-- ==== Sys2Proof/Word.lean ====
section
/-! DEFINITION. The words of the machine: bytes, 64-bit addresses and registers, the 128-bit and 256-bit
vector values. Bit 0 is the least significant bit and `a ++ b` has `a` in the high bits (00_scope.md R5). -/

namespace Sys2Proof

/-- One byte of memory or of an instruction. -/
abbrev Byte := BitVec 8

/-- A 64-bit general register, an address while it is computed, the instruction pointer. -/
abbrev Word64 := BitVec 64

/-- A 128-bit value, two quadwords: what an XMM register or an `m128` operand holds (10_state.md R11). -/
abbrev Xmm := BitVec 128

/-- A 256-bit value, four quadwords: what a YMM register or an `m256` operand holds (10_state.md R10). -/
abbrev Ymm := BitVec 256

end Sys2Proof
end

