-- ==== Sys2Proof/Config.lean ====
section
/-! DEFINITION. What is fixed for the machine, and the types of the launch parameters of 00_scope.md R4.
The parameters themselves stand in State as plain data (every statement then holds for all their values);
no step changes one. The model has no free value: the spec leaves no result of an instruction open. -/

namespace Sys2Proof

/-- The operating mode `MODE` (R4, D5). `mode64` and `mode32` are the two modes in scope; `realAddress` is the
mode the processor is in straight after reset (10_state.md R21), out of scope (R3): every step there is refused (log 23). -/
inductive Mode where
  | mode64
  | mode32
  | realAddress
  deriving DecidableEq, Repr

/-- `IMM8_RESERVED_POLICY` (R4, D8): what a non-zero reserved bit of imm8 does. -/
inductive Imm8Policy where
  | ignore
  | refuse
  deriving DecidableEq, Repr

/-- `LA_WIDTH` (R4): the number of implemented linear-address bits, 48 or 57. -/
inductive LaWidth where
  | la48
  | la57
  deriving DecidableEq, Repr

namespace Config

/-- The width in bits of a vector register (D3, log 21). -/
def vlmax : Nat := 256

/-- The number of vector registers reachable in a mode (R12, D4). -/
def numVregs : Mode → Nat
  | .mode64 => 16
  | .mode32 => 8
  | .realAddress => 8

/-- The number of bits of a linear address (20_memory.md R37). -/
def addressBits : Mode → Nat
  | .mode64 => 64
  | .mode32 => 32
  | .realAddress => 32

/-- No instruction is longer than this many bytes (30_encoding.md R64). -/
def maxInstrBytes : Nat := 15

/-- The linear-address width as a number. -/
def laBits : LaWidth → Nat
  | .la48 => 48
  | .la57 => 57

/-- What EDX holds after reset (10_state.md R21: "EDX holds the processor signature", no value given).
PRESUMED (log 6), unsafe: the signature of one processor of the family that has SSE2 and AVX and no 512-bit registers. -/
def processorSignature : BitVec 32 := 0x000206A7#32

end Config

end Sys2Proof
end

