-- ==== Sys2Proof/Syntax.lean ====
section
/-! DEFINITION. The decoded term of 30_encoding.md R70 and the memory operand of 20_memory.md R36.
One constructor for each of the three forms of 00_scope.md R1. The two-byte and the three-byte VEX rows of
spec/opcode_table.json are two encodings of one term (R62: "a decoder returns the same term for both"), log 1. -/

namespace Sys2Proof

/-- A vector register number (R70). `mode32` reaches 0 to 7 only (R12); WellFormed says so. -/
abbrev VReg := Fin 16

/-- A general register number (10_state.md R13): RAX 0, RCX 1, RDX 2, RBX 3, RSP 4, RBP 5, RSI 6, RDI 7, R8 to R15. -/
abbrev GReg := Fin 16

/-- The six segments of a memory operand (R36). -/
inductive Seg where
  | es
  | cs
  | ss
  | ds
  | fs
  | gs
  deriving DecidableEq, Repr

/-- The scale factor 1, 2, 4 or 8 of an index register (R58). -/
inductive Scale where
  | x1
  | x2
  | x4
  | x8
  deriving DecidableEq, Repr

/-- The effective address size (R36, R59). -/
inductive ASize where
  | a64
  | a32
  deriving DecidableEq, Repr

/-- The record `MemOperand` of R36; `disp` is the signed 32-bit displacement in two's complement. -/
structure MemOperand where
  seg    : Seg
  base   : Option GReg
  index  : Option GReg
  scale  : Scale
  disp   : BitVec 32
  riprel : Bool
  asize  : ASize
  deriving DecidableEq, Repr

/-- The operand named by `ModRM:r/m` (R51, R70). -/
inductive RM where
  | reg (n : VReg)
  | mem (m : MemOperand)
  deriving DecidableEq, Repr

/-- The three instructions (R70). -/
inductive Instr where
  | shufpd (dst : VReg) (src : RM) (imm8 : Byte)
  | vshufpd128 (dst src1 : VReg) (src2 : RM) (imm8 : Byte)
  | vshufpd256 (dst src1 : VReg) (src2 : RM) (imm8 : Byte)
  deriving DecidableEq, Repr

/-- What the decoder returns: the instruction and its encoded length in bytes (R70). -/
structure Decoded where
  instr : Instr
  len   : Nat
  deriving DecidableEq, Repr

end Sys2Proof
end

