-- ==== Sys2Proof/WellFormed.lean ====
section
/-! DEFINITION. The terms a decoder can return in a mode: register numbers the mode reaches (R12, R13), memory
operands an addressing form exists for (30_encoding.md R57 to R59), and imm8 bits the policy admits (R73). -/

namespace Sys2Proof

/-- A vector register the mode reaches (R12). -/
def VReg.wf (m : Mode) (r : VReg) : Bool := r.val < Config.numVregs m

/-- A general register the mode has (R13): sixteen in `mode64`, eight in `mode32`. -/
def GReg.wf (m : Mode) (r : GReg) : Bool :=
  match m with
  | .mode64 => true
  | .mode32 => r.val < 8
  | .realAddress => false

/-- A memory operand with an encoding (R57 to R59): register 4 is never an index (R58); RIP-relative is a `mode64`
form with no base and no SIB byte (R57); the 64-bit address size is `mode64`'s (R59). -/
def MemOperand.wf (m : Mode) (o : MemOperand) : Bool :=
  o.base.all (GReg.wf m) && o.index.all (GReg.wf m) && o.index != some 4 &&
  (!o.riprel || (m == .mode64 && o.base == none && o.index == none && o.scale == .x1)) &&
  (m == .mode64 || (m == .mode32 && o.asize == .a32))

/-- The `ModRM:r/m` operand: a register the mode reaches or an encodable memory operand. -/
def RM.wf (m : Mode) : RM → Bool
  | .reg r => VReg.wf m r
  | .mem o => o.wf m

/-- Reserved bits 7:2 of imm8 are zero, for the 128-bit forms (R54, R73). -/
def reservedZero128 (imm8 : Byte) : Bool := imm8.extractLsb' 2 6 == 0#6

/-- Reserved bits 7:4 of imm8 are zero, for the 256-bit form (R54, 90_conflicts.md C2). -/
def reservedZero256 (imm8 : Byte) : Bool := imm8.extractLsb' 4 4 == 0#4

/-- Under `refuse` the reserved bits must be zero; under `ignore` any imm8 is admitted (R73). -/
def Imm8Policy.admits (p : Imm8Policy) (reservedZero : Bool) : Bool :=
  match p with
  | .ignore => true
  | .refuse => reservedZero

/-- The well-formed instructions of a mode under a policy. -/
def Instr.wf (m : Mode) (p : Imm8Policy) : Instr → Bool
  | .shufpd dst src imm8 =>
    m != .realAddress && VReg.wf m dst && src.wf m && p.admits (reservedZero128 imm8)
  | .vshufpd128 dst src1 src2 imm8 =>
    m != .realAddress && VReg.wf m dst && VReg.wf m src1 && src2.wf m && p.admits (reservedZero128 imm8)
  | .vshufpd256 dst src1 src2 imm8 =>
    m != .realAddress && VReg.wf m dst && VReg.wf m src1 && src2.wf m && p.admits (reservedZero256 imm8)

end Sys2Proof
end

