-- ==== Sys2Proof/Decode.lean ====
section
/-! DEFINITION. The decoder of 30_encoding.md R71, total on any byte string, and after it the encoder, written from
the layouts of R55 to R62. Where R71's algorithm and the numbered rules differ on a repeat prefix before VEX, the
rules R63, R142, R148 and decision D23 are followed (log 8). -/

namespace Sys2Proof

/-- The named refusals of R71 and R72. Every one is safe: the processor gives the bytes a meaning the spec does not
state (D23). -/
inductive DecodeRefusal where
  /-- real-address mode (D5) -/
  | modeOutOfScope
  /-- `F2` or `F3` before anything but a VEX prefix: "repeat prefix" -/
  | repeatPrefix
  /-- a second `66` or `67`: "repeated prefix" -/
  | repeatedPrefix
  /-- "two segment overrides" -/
  | twoSegmentOverrides
  /-- `67` in `mode32`: "16-bit address size" -/
  | addressSize16
  /-- "not SHUFPD": any other opcode without VEX, EVEX and misplaced REX among them -/
  | notShufpd
  /-- "not VSHUFPD": another opcode under VEX -/
  | notVshufpd
  /-- "non-canonical VEX in Mode32" (R65) -/
  | nonCanonicalVex
  /-- "reserved imm8 bits", under the policy `refuse` (R73) -/
  | reservedImm8Bits
  deriving DecidableEq, Repr

/-- What decoding answers: a value, #UD (R142), a refusal by name, or `truncated`: the bytes end before the
instruction does (the step turns that into the fault of the fetch). -/
inductive DecodeResult (α : Type) where
  | ok (a : α)
  | ud
  | refused (r : DecodeRefusal)
  | truncated
  deriving DecidableEq, Repr

namespace DecodeResult

/-- Go on with the value, or stop with the first answer that is none. -/
def andThen {α β : Type} (x : DecodeResult α) (f : α → DecodeResult β) : DecodeResult β :=
  match x with
  | .ok a => f a
  | .ud => .ud
  | .refused r => .refused r
  | .truncated => .truncated

/-- The value, where there is one. -/
def toOption {α : Type} : DecodeResult α → Option α
  | .ok a => some a
  | .ud => none
  | .refused _ => none
  | .truncated => none

end DecodeResult

/-! ### Register numbers (R56, R60, R61, R74) -/

/-- A register number from its extension bit and its three-bit field (R74). -/
def regNum (hi : Bool) (lo : BitVec 3) : Fin 16 :=
  ⟨hi.toNat * 8 + lo.toNat, by have := lo.isLt; cases hi <;> simp <;> omega⟩

/-- The extension bit of a register number. -/
def hiBit (r : Fin 16) : Bool := 8 ≤ r.val

/-- The three-bit field of a register number. -/
def lo3 (r : Fin 16) : BitVec 3 := BitVec.ofNat 3 r.val

/-- The register number of an inverted `vvvv` field (R60). -/
def vvvvNum (field : BitVec 4) : Fin 16 := (~~~field).toFin

/-- The inverted `vvvv` field of a register number (R60). -/
def vvvvField (r : Fin 16) : BitVec 4 := ~~~(BitVec.ofFin r)

/-! ### Legacy prefixes (R55) -/

/-- The legacy prefix bytes: LOCK, repeat, operand size, address size, segment override. -/
inductive LegacyByte where
  | lock
  | rep
  | opSize
  | addrSize
  | segment (s : Seg)
  deriving DecidableEq, Repr

/-- The prefix a byte is, if it is one (R55, R71). -/
def legacyByte? (b : Byte) : Option LegacyByte :=
  if b = 0xF0#8 then some .lock
  else if b = 0xF2#8 then some .rep
  else if b = 0xF3#8 then some .rep
  else if b = 0x66#8 then some .opSize
  else if b = 0x67#8 then some .addrSize
  else if b = 0x26#8 then some (.segment .es)
  else if b = 0x2E#8 then some (.segment .cs)
  else if b = 0x36#8 then some (.segment .ss)
  else if b = 0x3E#8 then some (.segment .ds)
  else if b = 0x64#8 then some (.segment .fs)
  else if b = 0x65#8 then some (.segment .gs)
  else none

/-- The segment-override byte of a segment (R55). -/
def segByte : Seg → Byte
  | .es => 0x26#8
  | .cs => 0x2E#8
  | .ss => 0x36#8
  | .ds => 0x3E#8
  | .fs => 0x64#8
  | .gs => 0x65#8

/-- The prefixes met so far (R71: `p66`, `a67`, `seg_ovr`). -/
structure Prefixes where
  p66 : Bool
  a67 : Bool
  seg : Option Seg
  deriving DecidableEq, Repr

/-- No prefix. -/
def Prefixes.none : Prefixes := { p66 := false, a67 := false, seg := Option.none }

/-- A REX byte `0100WRXB` (R56). -/
def isRex (b : Byte) : Bool := b.extractLsb' 4 4 == 0x4#4

/-- The first byte of a VEX prefix (R60, R61). -/
def isVexLead (b : Byte) : Bool := b == 0xC5#8 || b == 0xC4#8

/-- `C5` or `C4` followed by this byte is a VEX prefix: always in `mode64`, in `mode32` only when bits 7:6 of the
following byte are 11 (R65). -/
def vexFollows (m : Mode) (next : Byte) : Bool := m == .mode64 || next.extractLsb' 6 2 == 0x3#2

/-- What follows a repeat prefix: #UD if a LOCK prefix or a VEX prefix does (R63, R142, D23), else the refusal
"repeat prefix" (R72); DEDUCED (log 8). In `mode64` a byte `C5` or `C4` settles it without the byte after it (log 9). -/
def afterRepeat (m : Mode) : List Byte → DecodeResult (Prefixes × List Byte)
  | [] => .truncated
  | b :: bs =>
    match legacyByte? b with
    | some .lock => .ud
    | some _ => afterRepeat m bs
    | none =>
      if m = .mode64 ∧ isRex b then
        match bs with
        | [] => .truncated
        | c :: _ => if isVexLead c then .ud else .refused .repeatPrefix
      else if isVexLead b then
        if m = .mode64 then .ud
        else
          match bs with
          | [] => .truncated
          | c :: _ => if vexFollows m c then .ud else .refused .repeatPrefix
      else .refused .repeatPrefix

/-- Step 1 of R71: the legacy prefixes. -/
def scanPrefixes (m : Mode) (p : Prefixes) : List Byte → DecodeResult (Prefixes × List Byte)
  | [] => .truncated
  | b :: bs =>
    match legacyByte? b with
    | some .lock => .ud
    | some .rep => afterRepeat m bs
    | some .opSize => if p.p66 then .refused .repeatedPrefix else scanPrefixes m { p with p66 := true } bs
    | some .addrSize => if p.a67 then .refused .repeatedPrefix else scanPrefixes m { p with a67 := true } bs
    | some (.segment sg) =>
      if p.seg.isSome then .refused .twoSegmentOverrides else scanPrefixes m { p with seg := some sg } bs
    | none => if m = .mode32 ∧ p.a67 then .refused .addressSize16 else .ok (p, b :: bs)

/-! ### REX, VEX and the opcode (R55, R56, R60 to R62, R65) -/

/-- The extension bits R, X and B, after inversion for VEX. -/
structure Ext where
  r : Bool
  x : Bool
  b : Bool
  deriving DecidableEq, Repr

/-- No prefix extends a register number. -/
def Ext.zero : Ext := { r := false, x := false, b := false }

/-- The extension bits of a REX byte (R56); W has no effect. -/
def Ext.ofRex (b : Byte) : Ext := { r := b.getLsbD 2, x := b.getLsbD 1, b := b.getLsbD 0 }

/-- Which of the three forms the bytes encode, with the VEX forms' first source. -/
inductive Form where
  | legacy
  | vex128 (src1 : VReg)
  | vex256 (src1 : VReg)
  deriving DecidableEq, Repr

/-- The bytes `0F C6` after the mandatory `66` (R55), or "not SHUFPD" (R71 step 3). -/
def parseLegacyOpcode (p : Prefixes) (e : Ext) (bs : List Byte) : DecodeResult ((Form × Ext) × List Byte) :=
  if p.p66 then
    match bs with
    | [] => .truncated
    | b :: t =>
      if b = 0x0F#8 then
        match t with
        | [] => .truncated
        | c :: u => if c = 0xC6#8 then .ok ((.legacy, e), u) else .refused .notShufpd
      else .refused .notShufpd
  else .refused .notShufpd

/-- The opcode byte `C6` after VEX, with the field values of R62: `mmmmm = 00001`, `pp = 01`. `last` is the VEX
byte that holds `vvvv`, L and pp (bits 6:3, 2, 1:0 in both prefix forms). In `mode32` only the encodings with
`R = X = B = 0` and `vvvv <= 7` are admitted (R65). -/
def parseVexOpcode (m : Mode) (mmmmm : BitVec 5) (e : Ext) (last : Byte) (bs : List Byte) :
    DecodeResult ((Form × Ext) × List Byte) :=
  if mmmmm = 0x01#5 ∧ last.extractLsb' 0 2 = 0x1#2 then
    match bs with
    | [] => .truncated
    | c :: u =>
      if c = 0xC6#8 then
        let src1 := vvvvNum (last.extractLsb' 3 4)
        if m = .mode32 ∧ (e ≠ Ext.zero ∨ 8 ≤ src1.val) then .refused .nonCanonicalVex
        else .ok ((if last.getLsbD 2 then .vex256 src1 else .vex128 src1, e), u)
      else .refused .notVshufpd
  else .refused .notVshufpd

/-- Steps 2 and 3 of R71: an optional REX or VEX prefix, and the opcode. In `mode64` a `66` before `C5` or `C4` is #UD
without the byte after it, as R71's algorithm has it; in `mode32` that byte decides whether this is a VEX prefix. That
a byte the algorithm does not read cannot fault, although R148 puts fetch faults first, is DEDUCED (log 9). -/
def parseOpcode (m : Mode) (p : Prefixes) (bs : List Byte) : DecodeResult ((Form × Ext) × List Byte) :=
  match bs with
  | [] => .truncated
  | b0 :: t0 =>
    if m = .mode64 ∧ isRex b0 then
      match t0 with
      | [] => .truncated
      | c :: _ => if isVexLead c then .ud else parseLegacyOpcode p (Ext.ofRex b0) t0
    else if isVexLead b0 then
      if m = .mode64 ∧ p.p66 then .ud
      else
        match t0 with
        | [] => .truncated
        | b1 :: t1 =>
          if vexFollows m b1 then
            if p.p66 then .ud
            else if b0 = 0xC5#8 then
              parseVexOpcode m 0x01#5 { r := !b1.getLsbD 7, x := false, b := false } b1 t1
            else
              match t1 with
              | [] => .truncated
              | b2 :: t2 =>
                parseVexOpcode m (b1.extractLsb' 0 5)
                  { r := !b1.getLsbD 7, x := !b1.getLsbD 6, b := !b1.getLsbD 5 } b2 t2
          else parseLegacyOpcode p Ext.zero bs
    else parseLegacyOpcode p Ext.zero bs

/-! ### ModRM, SIB and displacement (R57 to R59) -/

/-- The displacement an addressing form announces: none, one byte or four bytes. -/
inductive DispSize where
  | d0
  | d8
  | d32
  deriving DecidableEq, Repr

/-- A displacement byte, sign-extended (R59). -/
def disp8 (b : Byte) : BitVec 32 := b.signExtend 32

/-- Four displacement bytes, least significant first (R59). -/
def disp32 (b0 b1 b2 b3 : Byte) : BitVec 32 := b3 ++ b2 ++ b1 ++ b0

/-- Read the displacement (R59): 0 when there is none. -/
def parseDisp (n : DispSize) (bs : List Byte) : DecodeResult (BitVec 32 × List Byte) :=
  match n with
  | .d0 => .ok (0#32, bs)
  | .d8 =>
    match bs with
    | [] => .truncated
    | b :: t => .ok (disp8 b, t)
  | .d32 =>
    match bs with
    | b0 :: b1 :: b2 :: b3 :: t => .ok (disp32 b0 b1 b2 b3, t)
    | _ => .truncated

/-- The displacement of `mod` 00, 01 and 10 when the special cases of R57 and R58 do not apply. -/
def modDisp (md : BitVec 2) : DispSize :=
  if md = 0x0#2 then .d0 else if md = 0x1#2 then .d8 else .d32

/-- The scale factor of SIB bits 7:6 (R58). -/
def scaleOf (f : BitVec 2) : Scale :=
  if f = 0x0#2 then .x1 else if f = 0x1#2 then .x2 else if f = 0x2#2 then .x4 else .x8

/-- SIB bits 7:6 of a scale factor (R58). -/
def scaleField : Scale → BitVec 2
  | .x1 => 0x0#2
  | .x2 => 0x1#2
  | .x4 => 0x2#2
  | .x8 => 0x3#2

/-- The index register of a SIB byte: number 4 means no index (R58); the scale is kept (log 27). -/
def sibIndex (e : Ext) (sib : Byte) : Option GReg :=
  if regNum e.x (sib.extractLsb' 3 3) = 4 then none else some (regNum e.x (sib.extractLsb' 3 3))

/-- The SIB byte means no base: `base = 101` with `mod = 00` (R58). -/
def sibNoBase (md : BitVec 2) (sib : Byte) : Bool := sib.extractLsb' 0 3 == 0x5#3 && md == 0x0#2

/-- The base register of a SIB byte (R58). -/
def sibBase (md : BitVec 2) (e : Ext) (sib : Byte) : Option GReg :=
  if sibNoBase md sib then none else some (regNum e.b (sib.extractLsb' 0 3))

/-- The default segment: SS for base RSP/ESP or RBP/EBP, else DS (R59, on the full four-bit number,
log 22). -/
def defaultSeg (base : Option GReg) : Seg :=
  if base = some 4 ∨ base = some 5 then .ss else .ds

/-- The effective address size (R59). -/
def asizeOf (m : Mode) (p : Prefixes) : ASize := if m = .mode64 ∧ !p.a67 then .a64 else .a32

/-- A memory operand from its parts; `seg` is the override or the default (R59). -/
def memOperand (m : Mode) (p : Prefixes) (base index : Option GReg) (scale : Scale) (riprel : Bool)
    (disp : BitVec 32) : MemOperand :=
  { seg := p.seg.getD (defaultSeg base), base := base, index := index, scale := scale, disp := disp,
    riprel := riprel, asize := asizeOf m p }

/-- Step 4 of R71: the operand named by `mod` and `r/m` (tables of R57 and R58), `bs` standing after the ModRM byte. -/
def parseRm (m : Mode) (p : Prefixes) (e : Ext) (md : BitVec 2) (rm : BitVec 3) (bs : List Byte) :
    DecodeResult (RM × List Byte) :=
  if md = 0x3#2 then .ok (.reg (regNum e.b rm), bs)
  else if rm = 0x4#3 then
    match bs with
    | [] => .truncated
    | sib :: t =>
      (parseDisp (if sibNoBase md sib then .d32 else modDisp md) t).andThen fun (d, u) =>
        .ok (.mem (memOperand m p (sibBase md e sib) (sibIndex e sib) (scaleOf (sib.extractLsb' 6 2)) false d), u)
  else if rm = 0x5#3 ∧ md = 0x0#2 then
    (parseDisp .d32 bs).andThen fun (d, u) => .ok (.mem (memOperand m p none none .x1 (m == .mode64) d), u)
  else
    (parseDisp (modDisp md) bs).andThen fun (d, u) =>
      .ok (.mem (memOperand m p (some (regNum e.b rm)) none .x1 false d), u)

/-! ### The whole instruction (R71) -/

/-- The term of a form (R71 step 6, R70's mapping of operands). -/
def formInstr (f : Form) (dst : VReg) (rm : RM) (imm8 : Byte) : Instr :=
  match f with
  | .legacy => .shufpd dst rm imm8
  | .vex128 src1 => .vshufpd128 dst src1 rm imm8
  | .vex256 src1 => .vshufpd256 dst src1 rm imm8

/-- The reserved bits of imm8 are zero in this form (R54, R73). -/
def Form.reservedZero (f : Form) (imm8 : Byte) : Bool :=
  match f with
  | .legacy => reservedZero128 imm8
  | .vex128 _ => reservedZero128 imm8
  | .vex256 _ => reservedZero256 imm8

/-- Step 5 and 6 of R71: the immediate byte, the policy on its reserved bits, the term. -/
def parseImm (pol : Imm8Policy) (f : Form) (dst : VReg) (rm : RM) (bs : List Byte) :
    DecodeResult (Instr × List Byte) :=
  match bs with
  | [] => .truncated
  | imm8 :: t =>
    if pol.admits (f.reservedZero imm8) then .ok (formInstr f dst rm imm8, t) else .refused .reservedImm8Bits

/-- Steps 4 to 6 of R71: ModRM, SIB, displacement, immediate. -/
def parseBody (m : Mode) (pol : Imm8Policy) (p : Prefixes) (f : Form) (e : Ext) (bs : List Byte) :
    DecodeResult (Instr × List Byte) :=
  match bs with
  | [] => .truncated
  | modrm :: t =>
    (parseRm m p e (modrm.extractLsb' 6 2) (modrm.extractLsb' 0 3) t).andThen fun (rm, u) =>
      parseImm pol f (regNum e.r (modrm.extractLsb' 3 3)) rm u

/-- One instruction from the front of the bytes, with the bytes left over. -/
def parseInstr (m : Mode) (pol : Imm8Policy) (bs : List Byte) : DecodeResult (Instr × List Byte) :=
  if m = .realAddress then .refused .modeOutOfScope
  else
    (scanPrefixes m Prefixes.none bs).andThen fun (p, t) =>
      (parseOpcode m p t).andThen fun (fe, u) => parseBody m pol p fe.1 fe.2 u

/-- The decoder of R71: the instruction at the front of the bytes and its length. -/
def decode (m : Mode) (pol : Imm8Policy) (bs : List Byte) : DecodeResult Decoded :=
  (parseInstr m pol bs).andThen fun (i, rest) => .ok { instr := i, len := bs.length - rest.length }

/-- The bytes end before the instruction does. -/
def DecodeResult.isTruncated {α : Type} : DecodeResult α → Bool
  | .ok _ => false
  | .ud => false
  | .refused _ => false
  | .truncated => true

/-- How many of the bytes the decoder needs for its answer: the length of the shortest front part it can answer for,
and one more than there are where it has no answer. For an instruction this is its length. -/
def bytesNeeded (m : Mode) (pol : Imm8Policy) (bs : List Byte) : Nat :=
  ((List.range (bs.length + 1)).find? fun n => !(decode m pol (bs.take n)).isTruncated).getD (bs.length + 1)

/-! ### The encoder (R55 to R62) -/

/-- The orders of the legacy prefixes `66`, `67` and segment override (R55: "in any order"), `a`, `b` and `c` standing
for them. -/
inductive PrefixOrder where
  | abc
  | acb
  | bac
  | bca
  | cab
  | cba
  deriving DecidableEq, Repr

/-- All the choices the layouts leave (R55 to R62): the order of the legacy prefixes; whether the three-byte VEX prefix
or, in `mode64`, a REX prefix is used where a shorter encoding would do; its W bit; the values of the extension bits X
and B where nothing reads them ("It has no effect when there is no SIB byte", R56; "whatever `B` is", R58), in `mode64`;
the displacement form, where it can hold the displacement; whether a SIB byte is used where none is needed; whether the
default segment is written out; the segment override and, in `mode64`, the `67` of a register operand. -/
structure EncodingStyle where
  order       : PrefixOrder
  wide        : Bool
  w           : Bool
  spareX      : Bool
  spareB      : Bool
  disp        : DispSize
  sib         : Bool
  explicitSeg : Bool
  regSeg      : Option Seg
  reg67       : Bool
  deriving DecidableEq, Repr

/-- The shortest encoding. -/
def EncodingStyle.short : EncodingStyle :=
  { order := .abc, wide := false, w := false, spareX := false, spareB := false, disp := .d0, sib := false,
    explicitSeg := false, regSeg := none, reg67 := false }

/-- The bytes of a 32-bit displacement, least significant first (R59). -/
def dispBytes (d : BitVec 32) : List Byte :=
  [d.extractLsb' 0 8, d.extractLsb' 8 8, d.extractLsb' 16 8, d.extractLsb' 24 8]

/-- The displacement fits in a sign-extended byte. -/
def fitsDisp8 (d : BitVec 32) : Bool := disp8 (d.extractLsb' 0 8) == d

/-- A displacement form can hold `d` with base register `b`: no displacement only for 0 and not with a base field 101,
which has no `mod = 00` form (R57, R58). -/
def dispFits (n : DispSize) (b : GReg) (d : BitVec 32) : Bool :=
  match n with
  | .d0 => d == 0#32 && lo3 b != 0x5#3
  | .d8 => fitsDisp8 d
  | .d32 => true

/-- The displacement form of an operand with base register `b`: the style's where it fits, else the shortest. -/
def dispChoice (st : EncodingStyle) (b : GReg) (d : BitVec 32) : DispSize :=
  if dispFits st.disp b d then st.disp
  else if dispFits .d0 b d then .d0
  else if dispFits .d8 b d then .d8
  else .d32

/-- The `mod` field of a displacement form (R57). -/
def dispMod : DispSize → BitVec 2
  | .d0 => 0x0#2
  | .d8 => 0x1#2
  | .d32 => 0x2#2

/-- The displacement bytes of a displacement form. -/
def dispEnc (n : DispSize) (d : BitVec 32) : List Byte :=
  match n with
  | .d0 => []
  | .d8 => [d.extractLsb' 0 8]
  | .d32 => dispBytes d

/-- The SIB byte (R58); no index is field 100. -/
def sibByte (o : MemOperand) (base3 : BitVec 3) : Byte :=
  scaleField o.scale ++ (match o.index with | some i => lo3 i | none => 0x4#3) ++ base3

/-- The operand's encoding has a SIB byte (R57, R58): it has an index, a scale, or a base whose field is 100, or has
neither base nor index in `mode64` without being RIP-relative; or the style asks for one. -/
def usesSib (m : Mode) (st : EncodingStyle) (o : MemOperand) : Bool :=
  !o.riprel && (st.sib || o.index.isSome || o.scale != .x1 ||
    match o.base with
    | some b => lo3 b == 0x4#3
    | none => m == .mode64)

/-- `mod`, `r/m` and the bytes after ModRM that encode an `r/m` operand (R57, R58). -/
def encodeRm (m : Mode) (st : EncodingStyle) : RM → BitVec 2 × BitVec 3 × List Byte
  | .reg r => (0x3#2, lo3 r, [])
  | .mem o =>
    match o.base with
    | some b =>
      let n := dispChoice st b o.disp
      if usesSib m st o then (dispMod n, 0x4#3, sibByte o (lo3 b) :: dispEnc n o.disp)
      else (dispMod n, lo3 b, dispEnc n o.disp)
    | none =>
      if usesSib m st o then (0x0#2, 0x4#3, sibByte o 0x5#3 :: dispBytes o.disp)
      else (0x0#2, 0x5#3, dispBytes o.disp)

/-- An extension bit nothing reads: the style's in `mode64`, 0 in `mode32`, where only 0 is admitted (R65). -/
def spare (m : Mode) (b : Bool) : Bool := m == .mode64 && b

/-- The extension bits with an `r/m` operand (R74), R given. -/
def rmExt (m : Mode) (st : EncodingStyle) (r : Bool) : RM → Ext
  | .reg n => { r := r, x := spare m st.spareX, b := hiBit n }
  | .mem o =>
    { r := r,
      x := if usesSib m st o then o.index.any hiBit else spare m st.spareX,
      b := match o.base with | some b => hiBit b | none => spare m st.spareB }

/-- The address-size and segment prefixes with an `r/m` operand (R55, R59). -/
def rmPrefixes (m : Mode) (st : EncodingStyle) : RM → List Byte × List Byte
  | .reg _ =>
    (if m = .mode64 ∧ st.reg67 then [0x67#8] else [],
     match st.regSeg with | some g => [segByte g] | none => [])
  | .mem o =>
    (if m = .mode64 ∧ o.asize = .a32 then [0x67#8] else [],
     if o.seg = defaultSeg o.base ∧ !st.explicitSeg then [] else [segByte o.seg])

/-- The REX byte (R56). -/
def rexByte (w : Bool) (e : Ext) : Byte :=
  0x4#4 ++ BitVec.ofBool w ++ BitVec.ofBool e.r ++ BitVec.ofBool e.x ++ BitVec.ofBool e.b

/-- The REX prefix of the legacy form: in `mode64`, where an extension bit is set or the style asks for it. -/
def rexBytes (m : Mode) (st : EncodingStyle) (e : Ext) : List Byte :=
  if m = .mode64 ∧ (e ≠ Ext.zero ∨ st.wide) then [rexByte (st.wide && st.w) e] else []

/-- The VEX byte that holds `vvvv`, L and pp, with its top bit (R' in the two-byte form, W in the three-byte form). -/
def vexLast (top : Bool) (src1 : VReg) (l : Bool) : Byte :=
  BitVec.ofBool top ++ vvvvField src1 ++ BitVec.ofBool l ++ 0x1#2

/-- The VEX prefix (R60 to R62): two bytes where X = B = 0 and the style does not ask for three. -/
def vexBytes (st : EncodingStyle) (e : Ext) (src1 : VReg) (l : Bool) : List Byte :=
  if !e.x ∧ !e.b ∧ !st.wide then [0xC5#8, vexLast (!e.r) src1 l]
  else
    [0xC4#8, BitVec.ofBool (!e.r) ++ BitVec.ofBool (!e.x) ++ BitVec.ofBool (!e.b) ++ 0x01#5,
     vexLast (st.wide && st.w) src1 l]

/-- ModRM, SIB, displacement and immediate (R55, R62). -/
def encodeBody (m : Mode) (st : EncodingStyle) (dst : VReg) (rm : RM) (imm8 : Byte) : List Byte :=
  let (md, field, rest) := encodeRm m st rm
  (md ++ lo3 dst ++ field : Byte) :: rest ++ [imm8]

/-- Prefixes in one of their orders (R55). -/
def orderPrefixes (st : EncodingStyle) (a b c : List Byte) : List Byte :=
  match st.order with
  | .abc => a ++ (b ++ c)
  | .acb => a ++ (c ++ b)
  | .bac => b ++ (a ++ c)
  | .bca => b ++ (c ++ a)
  | .cab => c ++ (a ++ b)
  | .cba => c ++ (b ++ a)

/-- The bytes of a well-formed instruction in one of the styles the layouts allow. -/
def encodeStyled (m : Mode) (st : EncodingStyle) : Instr → List Byte
  | .shufpd dst src imm8 =>
    let (a, g) := rmPrefixes m st src
    orderPrefixes st [0x66#8] a g ++ rexBytes m st (rmExt m st (hiBit dst) src) ++ [0x0F#8, 0xC6#8] ++
      encodeBody m st dst src imm8
  | .vshufpd128 dst src1 src2 imm8 =>
    let (a, g) := rmPrefixes m st src2
    orderPrefixes st [] a g ++ vexBytes st (rmExt m st (hiBit dst) src2) src1 false ++ [0xC6#8] ++
      encodeBody m st dst src2 imm8
  | .vshufpd256 dst src1 src2 imm8 =>
    let (a, g) := rmPrefixes m st src2
    orderPrefixes st [] a g ++ vexBytes st (rmExt m st (hiBit dst) src2) src1 true ++ [0xC6#8] ++
      encodeBody m st dst src2 imm8

/-- The shortest bytes of a well-formed instruction. -/
def encode (m : Mode) (i : Instr) : List Byte := encodeStyled m EncodingStyle.short i

/-! ### Words of the opcode table (log 2) -/

/-- The low `n` bytes of `w`, least significant first. -/
def wordBytes (n w : Nat) : List Byte :=
  match n with
  | 0 => []
  | k + 1 => BitVec.ofNat 8 w :: wordBytes k (w / 256)

/-- Zero bytes up to the longest instruction. -/
def padInstr (bs : List Byte) : List Byte := bs ++ List.replicate (Config.maxInstrBytes - bs.length) 0x00#8

/-- The instruction bytes of a table word, zero-padded. spec/opcode_table.json numbers a row's bits with the leading
bytes "taken in address order with the first byte most significant"; a word that is no instruction in that order and
is one with the first byte least significant is laid out the second way. -/
def tableBytes (nbits w : Nat) : List Byte :=
  let low := wordBytes (nbits / 8) w
  match decode .mode64 .ignore (padInstr low.reverse), decode .mode64 .ignore (padInstr low) with
  | .ok _, _ => padInstr low.reverse
  | _, .ok _ => padInstr low
  | _, _ => padInstr low.reverse

/-- The instruction the decoder reads from a table word, in `mode64` under the default policy. -/
def decodeTableWord (nbits w : Nat) : Option Instr :=
  (decode .mode64 .ignore (tableBytes nbits w)).toOption.map Decoded.instr

end Sys2Proof
end

