-- ==== Sys2Proof/Machine/State.lean ====
section
/-! DEFINITION. The machine's state as plain data, the reasons a step can stop, and the state after reset.
Vector file and instruction pointer are what a step writes (10_state.md R22); the rest is read only or, like EFLAGS
and MXCSR, only kept. The launch parameters of 00_scope.md R4 and 70_reset_and_hazards.md R182 stand here as data. -/

namespace Sys2Proof.Machine

/-- The kind of an access `ADMITS` is asked about (20_memory.md R38). -/
inductive AccessKind where
  | read
  | fetch
  deriving DecidableEq, Repr

/-- What the launch supplies of a page fault's error code (60_exceptions.md R146): P, U/S, RSVD and PK.
W/R is 0 for every access of this machine and I/D is 1 exactly for a fetch. -/
structure PageCause where
  present : Bool
  user    : Bool
  rsvd    : Bool
  pkey    : Bool
  deriving DecidableEq, Repr

/-- The exceptions of class Type 4 (60_exceptions.md R142 to R149). A raised exception ends the step with the
state as it was (R150): every one is safe, the model stops where a processor would enter a handler (D10). There is no
constructor for #XM (R140) and none for #AC (R147): no form raises them. -/
inductive Fault where
  /-- #UD, vector 6. Raised by the decoder (LOCK; REX, 66, F2 or F3 before VEX) and by a form whose feature is not
  enabled (R142). Safe. -/
  | ud
  /-- #NM, vector 7. Raised by all three forms when CR0.TS = 1 (R143). Safe. -/
  | nm
  /-- #SS(0), vector 12. Raised by a memory operand through SS that is not canonical or outside the segment (R144),
  or where the launch's own `ADMITS` answers it (R38). Safe. -/
  | ss0
  /-- #GP(0), vector 13. Raised by a misaligned operand of the legacy form, by an operand or a fetch that is not
  canonical or outside the segment, by an instruction longer than 15 bytes (R145), and where the launch's own `ADMITS`
  answers it (R38). Safe. -/
  | gp0
  /-- #PF, vector 14, with the cause, the kind of access and the faulting linear address (R146). Raised by a memory
  operand or a fetch that touches a byte the launch does not admit (R38). Safe. -/
  | pf (cause : PageCause) (kind : AccessKind) (address : Word64)
  deriving DecidableEq, Repr

/-- The refusals. Each is safe: nothing is proved of a run that meets one. -/
inductive Refusal where
  /-- An instruction whose arm in exec has no meaning; no arm of this model uses it. Safe. -/
  | notModelled (mnemonic : String)
  /-- The machine is in real-address mode, which the spec excludes (00_scope.md R3, D5). Raised by the step and by
  the three meanings. Safe. -/
  | modeOutOfScope
  /-- The decoder refuses the bytes, by name (30_encoding.md R72). Raised by the step. Safe. -/
  | undecodable (r : DecodeRefusal)
  /-- The instruction passes the top of the address space, for which "a model should refuse such a launch"
  (10_state.md R14). Raised by the fetch. Safe. -/
  | fetchWraps
  /-- The access touches a region with read side effects, whose behaviour the spec does not give (20_memory.md R34,
  R38). Raised by the fetch and by memory operands. Safe. -/
  | deviceRegion
  /-- The operand passes the top of the address space and the launch's own `ADMITS` says nothing of it: "wrapping
  accesses are to be refused by the launch" (92_eei_decisions.md D17, log 15). Raised by memory operands. Safe. -/
  | accessWraps
  /-- The launch's own `ADMITS` refuses the access: "Regions with read side effects, unallocated regions and wrapping
  accesses are to be refused by the launch" (92_eei_decisions.md D17); that it refuses a single access is the model's
  choice (log 17). Raised by the fetch and by memory operands. Safe. -/
  | launchRefuses
  deriving DecidableEq, Repr

/-- A segment: selector, base, limit and access rights (10_state.md R18). `readable` is false for an execute-only code
segment and for a null selector (R38); `executable` is what a fetch checks in its place (20_memory.md R42, log 29). -/
structure Segment where
  selector   : BitVec 16
  base       : Word64
  limit      : BitVec 32
  readable   : Bool
  executable : Bool
  deriving DecidableEq, Repr

/-- The six segment registers (R18). -/
structure Segments where
  es : Segment
  cs : Segment
  ss : Segment
  ds : Segment
  fs : Segment
  gs : Segment
  deriving DecidableEq, Repr

/-- CPUID leaf 01H, of which R17 reads EDX bit 26 (SSE2) and ECX bit 28 (AVX). -/
structure Cpuid where
  leaf1Ecx : BitVec 32
  leaf1Edx : BitVec 32
  deriving DecidableEq, Repr

/-- What the platform answers for an access to a byte of a region (R38). -/
inductive RegionVerdict where
  /-- the access is allowed, if the launch memory holds the byte -/
  | allow
  /-- a page fault, with its cause -/
  | pageFault (cause : PageCause)
  /-- a device: read side effects -/
  | device
  deriving DecidableEq, Repr

/-- A region of the linear address space with the platform's verdicts on reading and on fetching. -/
structure Region where
  base    : Nat
  size    : Nat
  onRead  : RegionVerdict
  onFetch : RegionVerdict
  deriving DecidableEq, Repr

/-- What the launch's `ADMITS` answers for an access (R38): `ok`, one of the faults of R144 to R146, or the refusal of
D17. -/
inductive AdmitAnswer where
  /-- the access is admitted, where every byte of it is allocated ("never answer `ok` with invented bytes") -/
  | ok
  /-- #SS(0) -/
  | ss0
  /-- #GP(0) -/
  | gp0
  /-- #PF, with the cause and the faulting linear address -/
  | pageFault (cause : PageCause) (address : Word64)
  /-- the launch refuses the access -/
  | refuse
  deriving DecidableEq, Repr

/-- One line of the launch's `ADMITS(seg, lin, n, kind)` (R4, R38): the accesses it speaks of, by segment, kind, number
of bytes (`none` for any) and a range of linear addresses of the first byte, and its answer for them. -/
structure AdmitRule where
  seg    : Option Seg
  kind   : Option AccessKind
  size   : Option Nat
  first  : Nat
  last   : Nat
  answer : AdmitAnswer
  deriving DecidableEq, Repr

/-- The launch memory: a partial map from linear address to byte (R182), addresses strictly rising. A byte that is not
listed has no value: it is not allocated and an access to it is not admitted (R38: never "ok with invented bytes"). -/
abbrev Memory := List Host.Cell

/-- The whole state. -/
structure State where
  /-- the vector register file (R10 to R12); `mode32` reaches 0 to 7 -/
  ymm : Vector Ymm 16
  /-- the general registers, read for addresses only (R13, log 28) -/
  gpr : Vector Word64 16
  /-- RIP, or EIP with the high half zero (R14) -/
  pc : Word64
  /-- EFLAGS/RFLAGS: never read or written (R15) -/
  rflags : Word64
  /-- MXCSR: never read or written (R16) -/
  mxcsr : BitVec 32
  /-- CR0: EM bit 2, TS bit 3 (R17) -/
  cr0 : Word64
  /-- CR2, where a processor records the address of a page fault (R38, R146); the model's #PF carries the address
  itself and leaves the state as it was (R150) -/
  cr2 : Word64
  /-- CR4: OSFXSR bit 9, OSXSAVE bit 18 (R17) -/
  cr4 : Word64
  /-- XCR0: bits 2:1 enable SSE and AVX state (R17) -/
  xcr0 : Word64
  /-- the CPUID feature flags (R17) -/
  cpuid : Cpuid
  /-- the segment registers (R18) -/
  segs : Segments
  /-- `MODE` (R4) -/
  mode : Mode
  /-- `LA_WIDTH` (R4) -/
  laWidth : LaWidth
  /-- `IMM8_RESERVED_POLICY` (R4) -/
  imm8Policy : Imm8Policy
  /-- `END` (R4, R184) -/
  endPc : Word64
  /-- the launch's `ADMITS` (R4, R38): the first line that speaks of an access answers for it; where none does, `ADMITS`
  mirrors a processor (log 14) -/
  admitRules : List AdmitRule
  /-- the platform's regions, for the accesses no line of `admitRules` speaks of (R38) -/
  regions : List Region
  /-- the cause reported for a byte that is not allocated (R38, R146) -/
  absentCause : PageCause
  /-- the launch memory (R182) -/
  mem : Memory
  deriving DecidableEq, Repr

/-- A real-address-mode data segment after reset; PRESUMED (log 5). -/
def Segment.resetData : Segment :=
  { selector := 0x0000#16, base := 0#64, limit := 0xFFFF#32, readable := true, executable := false }

/-- CS after reset: selector F000H, base FFFF0000H (R21); limit and rights PRESUMED (log 5). -/
def Segment.resetCode : Segment :=
  { selector := 0xF000#16, base := 0xFFFF0000#64, limit := 0xFFFF#32, readable := true, executable := true }

/-- The machine right after reset: the orientation table of 10_state.md R21 (general knowledge there, no claim of
the spec rests on it), the default parameters of R4, and for what neither gives the values of log 4 (DESIGN CHOICE; the
empty memory among them), log 5 and log 6 (PRESUMED; EDX and bits 63:32 of RDX). The
processor is in real-address mode with both features disabled, so that a launch must come first (R21, R180, log 3). -/
def State.reset : State :=
  { ymm := Vector.replicate 16 0#256
    gpr := (Vector.replicate 16 0#64).set 2 (Config.processorSignature.setWidth 64)
    pc := 0xFFF0#64
    rflags := 0x2#64
    mxcsr := 0x1F80#32
    cr0 := 0x60000010#64
    cr2 := 0#64
    cr4 := 0#64
    xcr0 := 1#64
    cpuid := { leaf1Ecx := 0x10000000#32, leaf1Edx := 0x04000000#32 }
    segs := { es := .resetData, cs := .resetCode, ss := .resetData, ds := .resetData, fs := .resetData,
              gs := .resetData }
    mode := .realAddress
    laWidth := .la48
    imm8Policy := .ignore
    endPc := 0#64
    admitRules := []
    regions := []
    absentCause := { present := false, user := false, rsvd := false, pkey := false }
    mem := [] }

end Sys2Proof.Machine
end

