-- ==== Sys2Proof/Machine/Ops.lean ====
section
/-! DEFINITION. The named operations over registers, memory and outcomes, the lane operations of 40_shufpd.md R100
and R112, and raising an exception (60_exceptions.md R150). There is no return from an exception: the spec has no
handler and no return instruction (R151). -/

namespace Sys2Proof.Machine

/-! ### Outcomes and exceptions -/

/-- The answer of a part of a step. -/
abbrev Result (α : Type) := Host.Outcome α Fault Refusal

/-- Go on with the value, or end the step with the first fault or refusal. -/
def andThen {α β : Type} (x : Result α) (f : α → Result β) : Result β :=
  match x with
  | .next a => f a
  | .fault r => .fault r
  | .refused r => .refused r

/-- Take an exception (R150): the step ends with the fault and the state stays exactly what it was before the
instruction, `pc` at the instruction's first byte; the run is over (log 12). -/
def raise {α : Type} (x : Fault) : Result α := .fault x

/-- The vector of an exception (R149). -/
def Fault.vector : Fault → Nat
  | .ud => 6
  | .nm => 7
  | .ss0 => 12
  | .gp0 => 13
  | .pf _ _ _ => 14

/-- The error code of a page fault (R146): P bit 0, W/R bit 1 = 0, U/S bit 2, RSVD bit 3, I/D bit 4, PK bit 5. The spec
names these bits only; that the code is 32 bits wide and bits 31:6 are 0 is PRESUMED (log 32). -/
def pageErrorCode (c : PageCause) (k : AccessKind) : BitVec 32 :=
  0#26 ++ BitVec.ofBool c.pkey ++ BitVec.ofBool (k == .fetch) ++ BitVec.ofBool c.rsvd ++ BitVec.ofBool c.user ++
    0#1 ++ BitVec.ofBool c.present

/-- The error code of an exception, none for #UD and #NM (R149). -/
def Fault.errorCode : Fault → Option (BitVec 32)
  | .ud => none
  | .nm => none
  | .ss0 => some 0#32
  | .gp0 => some 0#32
  | .pf c k _ => some (pageErrorCode c k)

/-- The faulting linear address a #PF records (R149). -/
def Fault.address : Fault → Option Word64
  | .ud => none
  | .nm => none
  | .ss0 => none
  | .gp0 => none
  | .pf _ _ a => some a

/-! ### Lanes (R100, R112) -/

/-- `v[127:0]` of a 256-bit value. -/
def lowLane (v : Ymm) : Xmm := v.extractLsb' 0 128

/-- `v[255:128]` of a 256-bit value. -/
def highLane (v : Ymm) : Xmm := v.extractLsb' 128 128

/-- `sel64` (R100): the low quadword if the bit is 0, the high quadword if it is 1. -/
def sel64 (v : Xmm) (b : Bool) : BitVec 64 := if b then v.extractLsb' 64 64 else v.extractLsb' 0 64

/-- `shuf128` (R100): the high quadword from `b`, the low quadword from `a`. -/
def shuf128 (a b : Xmm) (s0 s1 : Bool) : Xmm := sel64 b s1 ++ sel64 a s0

/-- Two copies of `shuf128`, one a lane (R104, R112). -/
def shuf256 (a b : Ymm) (s0 s1 s2 s3 : Bool) : Ymm :=
  shuf128 (highLane a) (highLane b) s2 s3 ++ shuf128 (lowLane a) (lowLane b) s0 s1

/-! ### Registers (00_scope.md R6) -/

/-- `ymm[i]`, all 256 bits. -/
def State.ymmReg (s : State) (i : VReg) : Ymm := s.ymm.get i

/-- `xmm[i]`, bits 127:0 of `ymm[i]` (R11). -/
def State.xmmReg (s : State) (i : VReg) : Xmm := lowLane (s.ymmReg i)

/-- `ymm[i] <- v`, all 256 bits. -/
def State.writeYmm (s : State) (i : VReg) (v : Ymm) : State := { s with ymm := s.ymm.set i v }

/-- `xmm[i] <- v` of the legacy form: bits 255:128 stay (R11, R102). -/
def State.writeXmm (s : State) (i : VReg) (v : Xmm) : State := s.writeYmm i (highLane (s.ymmReg i) ++ v)

/-- The write of the VEX.128 form: bits 255:128 become zero (R103). -/
def State.writeXmmZero (s : State) (i : VReg) (v : Xmm) : State := s.writeYmm i (0#128 ++ v)

/-- `gpr[i][asize-1:0]`, zero-extended (R36). -/
def State.gprReg (s : State) (a : ASize) (i : GReg) : Word64 :=
  match a with
  | .a64 => s.gpr.get i
  | .a32 => ((s.gpr.get i).setWidth 32).setWidth 64

/-- The address of the next instruction: `pc + len` modulo 2^64 in `mode64`, modulo 2^32 in `mode32` (R14). -/
def nextPc (m : Mode) (pc : Word64) (len : Nat) : Word64 :=
  match m with
  | .mode64 => pc + BitVec.ofNat 64 len
  | .mode32 => ((pc + BitVec.ofNat 64 len).setWidth 32).setWidth 64
  | .realAddress => ((pc + BitVec.ofNat 64 len).setWidth 32).setWidth 64

/-- Move past an instruction of `len` bytes: `pc <- pc + len` (R14, R107). -/
def State.advance (s : State) (len : Nat) : State := { s with pc := nextPc s.mode s.pc len }

/-! ### Memory (20_memory.md R30, R182) -/

/-- The canonical form: addresses strictly rising and below 2^64. -/
abbrev Memory.wf (m : Memory) : Prop := m.Pairwise (fun x y => x.1 < y.1) ∧ ∀ c ∈ m, c.1 < 2 ^ 64

/-- The byte at a linear address, none where nothing is allocated. -/
def Memory.byte? (m : Memory) (a : Nat) : Option Byte :=
  match m with
  | [] => none
  | c :: t => if c.1 = a then some c.2 else Memory.byte? t a

/-- Store one byte. Only a launch does: no instruction writes memory (R34). -/
def Memory.store (m : Memory) (a : Nat) (b : Byte) : Memory :=
  match m with
  | [] => [(a, b)]
  | c :: t => if a < c.1 then (a, b) :: c :: t else if a = c.1 then (a, b) :: t else c :: Memory.store t a b

/-- Store bytes at consecutive addresses, wrapping at 2^64. -/
def Memory.storeBytes (m : Memory) (a : Nat) (bs : List Byte) : Memory :=
  match bs with
  | [] => m
  | b :: t => Memory.storeBytes (Memory.store m (a % 2 ^ 64) b) (a + 1) t

/-- Assemble bytes, the first one in bits 7:0 (R30: little-endian). -/
def leBytes (w : Nat) (bs : List Byte) : BitVec w :=
  match bs with
  | [] => 0#w
  | b :: t => (leBytes w t <<< 8) ||| b.setWidth w

end Sys2Proof.Machine
end

