-- ==== Sys2Proof/Machine/Flags.lean ====
section
/-! DEFINITION. The control bits the instruction reads (10_state.md R17) and the enabling checks of 40_shufpd.md R107.
There is no flag computation: no form reads or writes a bit of EFLAGS or MXCSR (R15, R16). -/

namespace Sys2Proof.Machine

/-- CR0.EM, bit 2. -/
def State.cr0Em (s : State) : Bool := s.cr0.getLsbD 2

/-- CR0.TS, bit 3: the parameter `TS` (R17). -/
def State.ts (s : State) : Bool := s.cr0.getLsbD 3

/-- CR4.OSFXSR, bit 9. -/
def State.osfxsr (s : State) : Bool := s.cr4.getLsbD 9

/-- CR4.OSXSAVE, bit 18. -/
def State.osxsave (s : State) : Bool := s.cr4.getLsbD 18

/-- XCR0 bits 2:1 = 11b: the operating system has enabled SSE and AVX state. -/
def State.xcr0SseAvx (s : State) : Bool := s.xcr0.extractLsb' 1 2 == 0x3#2

/-- CPUID.01H:EDX.SSE2, bit 26. -/
def State.hasSse2 (s : State) : Bool := s.cpuid.leaf1Edx.getLsbD 26

/-- CPUID.01H:ECX.AVX, bit 28. -/
def State.hasAvx (s : State) : Bool := s.cpuid.leaf1Ecx.getLsbD 28

/-- `SSE_ENABLED` (R17): the legacy form may execute. -/
def State.sseEnabled (s : State) : Bool := s.hasSse2 && !s.cr0Em && s.osfxsr

/-- `AVX_ENABLED` (R17): the VEX forms may execute. -/
def State.avxEnabled (s : State) : Bool := s.hasAvx && s.osxsave && s.xcr0SseAvx && s.mode != .realAddress

/-- The enabling checks of R107 in the order of R148: #UD if the feature is not enabled, then #NM if TS is set.
Real-address mode is refused before them (D5). -/
def checkEnabled (enabled : Bool) (s : State) : Result Unit :=
  if s.mode = .realAddress then .refused .modeOutOfScope
  else if !enabled then raise .ud
  else if s.ts then raise .nm
  else .next ()

end Sys2Proof.Machine
end

