-- ==== Sys2Proof/Machine/Operands.lean ====
section
/-! DEFINITION. The operand forms: effective address (20_memory.md R36), linear address (R37), `ADMITS` (R38), the
read of a memory operand with the alignment rule of the legacy form (R32, R33), and the second source of each form
(40_shufpd.md R105). -/

namespace Sys2Proof.Machine

/-! ### Addresses -/

/-- The scale factor (R58). -/
def scaleFactor : Scale → Word64
  | .x1 => 1#64
  | .x2 => 2#64
  | .x4 => 4#64
  | .x8 => 8#64

/-- Keep `asize` bits of an address, zero-extended (R36, R59). -/
def truncAddr (a : ASize) (v : Word64) : Word64 :=
  match a with
  | .a64 => v
  | .a32 => (v.setWidth 32).setWidth 64

/-- A register of the address, or 0 where there is none (R36). -/
def addrReg (s : State) (a : ASize) (r : Option GReg) : Word64 :=
  match r with
  | some i => s.gprReg a i
  | none => 0#64

/-- The effective address `EA` (R36). The state is the one whose `pc` is already at the next instruction, R36's
`pc_next`: the step moves `pc` before it runs the instruction (log 7). -/
def effectiveAddress (s : State) (m : MemOperand) : Word64 :=
  if m.riprel then truncAddr m.asize (s.pc + m.disp.signExtend 64)
  else
    truncAddr m.asize
      (addrReg s m.asize m.base + addrReg s m.asize m.index * scaleFactor m.scale + m.disp.signExtend 64)

/-- The segment register of a segment. -/
def Segments.get (sg : Segments) : Seg → Segment
  | .es => sg.es
  | .cs => sg.cs
  | .ss => sg.ss
  | .ds => sg.ds
  | .fs => sg.fs
  | .gs => sg.gs

/-- `SEG_BASE` (R4, R18): in `mode64` only FS and GS have a base. -/
def segBase (s : State) (g : Seg) : Word64 :=
  match s.mode with
  | .mode64 =>
    match g with
    | .fs => s.segs.fs.base
    | .gs => s.segs.gs.base
    | .es => 0#64
    | .cs => 0#64
    | .ss => 0#64
    | .ds => 0#64
  | .mode32 => (s.segs.get g).base
  | .realAddress => (s.segs.get g).base

/-- Keep the bits of a linear address of the mode (R37: modulo 2^64 or 2^32). -/
def truncLinear (m : Mode) (v : Word64) : Word64 :=
  match m with
  | .mode64 => v
  | .mode32 => (v.setWidth 32).setWidth 64
  | .realAddress => (v.setWidth 32).setWidth 64

/-- The linear address of a memory operand (R37). -/
def linearAddress (s : State) (m : MemOperand) : Word64 :=
  truncLinear s.mode (segBase s m.seg + effectiveAddress s m)

/-- The address of the byte at offset `k` of an access (R37: modulo the address space). -/
def byteAddress (m : Mode) (lin : Word64) (k : Nat) : Nat := (lin.toNat + k) % 2 ^ Config.addressBits m

/-! ### ADMITS (R38) -/

/-- What `ADMITS` answers; a device region, whose behaviour the spec does not give, is refused (R34). -/
inductive Verdict where
  | ok
  | fault (f : Fault)
  | refuse (r : Refusal)
  deriving DecidableEq, Repr

/-- An address is canonical when bits 63:LA_WIDTH-1 are all equal (R37). -/
def canonical (w : LaWidth) (a : Nat) : Bool :=
  a / 2 ^ (Config.laBits w - 1) == 0 || a / 2 ^ (Config.laBits w - 1) == 2 ^ (65 - Config.laBits w) - 1

/-- The rights of a segment allow the access (R38, R42). -/
def Segment.allows (g : Segment) : AccessKind → Bool
  | .read => g.readable
  | .fetch => g.executable

/-- The offset of a linear address in a segment of `mode32`, modulo 2^32 (log 29). The spec is silent on an operand whose
offset passes FFFFFFFFH where its linear address does not pass the top (limit FFFFFFFFH, base not 0): the offset goes on
at 0 and the access is inside the limit, DESIGN CHOICE (log 29). -/
def segOffset (g : Segment) (a : Nat) : Nat := (a + 2 ^ 32 - g.base.toNat % 2 ^ 32) % 2 ^ 32

/-- The byte at linear address `a` passes the segment's check (R38): canonical in `mode64`; inside the limit of a
segment whose rights allow the access in `mode32`. -/
def segmentAdmits (s : State) (g : Seg) (kind : AccessKind) (a : Nat) : Bool :=
  match s.mode with
  | .mode64 => canonical s.laWidth a
  | .mode32 => (s.segs.get g).allows kind && segOffset (s.segs.get g) a ≤ (s.segs.get g).limit.toNat
  | .realAddress => false

/-- The exception of a failed segment check (R144, R145): #SS(0) through SS, else #GP(0). -/
def segmentFault (g : Seg) : Fault := if g = .ss then .ss0 else .gp0

/-- The region verdict on a kind of access. -/
def Region.verdict (r : Region) : AccessKind → RegionVerdict
  | .read => r.onRead
  | .fetch => r.onFetch

/-- The platform's verdict on a byte: that of the first region holding it, else the access is allowed. -/
def regionVerdict (rs : List Region) (kind : AccessKind) (a : Nat) : RegionVerdict :=
  match rs with
  | [] => .allow
  | r :: t => if r.base ≤ a ∧ a < r.base + r.size then r.verdict kind else regionVerdict t kind a

/-- A byte has a value, or an access to it is a page fault with the launch's cause (R38; DESIGN CHOICE, log 13). -/
def allocated (s : State) (kind : AccessKind) (a : Nat) : Verdict :=
  if (Memory.byte? s.mem a).isSome then .ok else .fault (.pf s.absentCause kind (BitVec.ofNat 64 a))

/-- The page-level answer for one byte (R38): the region's verdict, and a page fault where no byte is allocated
(log 13, log 17). -/
def byteVerdict (s : State) (kind : AccessKind) (a : Nat) : Verdict :=
  match regionVerdict s.regions kind a with
  | .pageFault c => .fault (.pf c kind (BitVec.ofNat 64 a))
  | .device => .refuse .deviceRegion
  | .allow => allocated s kind a

/-- The first answer that is not `ok`, in the order of the list. -/
def firstVerdict (f : Nat → Verdict) : List Nat → Verdict
  | [] => .ok
  | a :: t =>
    match f a with
    | .ok => firstVerdict f t
    | .fault x => .fault x
    | .refuse r => .refuse r

/-- The addresses of the `n` bytes of an access. -/
def accessBytes (m : Mode) (lin : Word64) (n : Nat) : List Nat := (List.range n).map (byteAddress m lin)

/-- The same addresses, lowest first: the bytes that passed the top of the address space lie below the first byte. -/
def risingBytes (m : Mode) (lin : Word64) (n : Nat) : List Nat :=
  (accessBytes m lin n).filter (· < byteAddress m lin 0) ++ (accessBytes m lin n).filter (byteAddress m lin 0 ≤ ·)

/-- The answer of the lowest byte that is not admitted ("lowest faulting address first", R148 item 7; R38). -/
def lowestVerdict (s : State) (f : Nat → Verdict) (lin : Word64) (n : Nat) : Verdict :=
  firstVerdict f (risingBytes s.mode lin n)

/-- The access passes the top of the address space. -/
def accessWraps (m : Mode) (lin : Word64) (n : Nat) : Bool := 2 ^ Config.addressBits m < byteAddress m lin 0 + n

/-- `ADMITS` of a launch that mirrors a processor (R38): the segment's check on every byte, then the page-level check
(R148, log 18); an access that wraps is refused (D17, log 15). On a fetch that straddles the canonical boundary in
`mode64` this is #GP(0), DESIGN CHOICE (log 35): R14 and D15 leave it to `ADMITS` and would have the launch refused. -/
def mirrorAdmits (s : State) (g : Seg) (lin : Word64) (n : Nat) (kind : AccessKind) : Verdict :=
  if (accessBytes s.mode lin n).all (segmentAdmits s g kind) then
    if accessWraps s.mode lin n then .refuse .accessWraps else lowestVerdict s (byteVerdict s kind) lin n
  else .fault (segmentFault g)

/-- A line of the launch's `ADMITS` speaks of an access. -/
def AdmitRule.speaksOf (r : AdmitRule) (g : Seg) (lin : Word64) (n : Nat) (kind : AccessKind) : Bool :=
  r.seg.all (· == g) && r.kind.all (· == kind) && r.size.all (· == n) && r.first ≤ lin.toNat && lin.toNat ≤ r.last

/-- The launch's answer for an access: that of the first line that speaks of it. -/
def launchAnswer (rs : List AdmitRule) (g : Seg) (lin : Word64) (n : Nat) (kind : AccessKind) : Option AdmitAnswer :=
  (rs.find? fun r => r.speaksOf g lin n kind).map AdmitRule.answer

/-- A launch's answer as a verdict; `ok` never stands for a byte that has no value (R38). -/
def answerVerdict (s : State) (lin : Word64) (n : Nat) (kind : AccessKind) : AdmitAnswer → Verdict
  | .ok => lowestVerdict s (allocated s kind) lin n
  | .ss0 => .fault .ss0
  | .gp0 => .fault .gp0
  | .pageFault c a => .fault (.pf c kind a)
  | .refuse => .refuse .launchRefuses

/-- `ADMITS(seg, lin, n, kind)` (R4, R38): the launch's answer, and where it gives none that of a launch that mirrors a
processor. As a function of the access it can be any (log 14). -/
def admits (s : State) (g : Seg) (lin : Word64) (n : Nat) (kind : AccessKind) : Verdict :=
  match launchAnswer s.admitRules g lin n kind with
  | some a => answerVerdict s lin n kind a
  | none => mirrorAdmits s g lin n kind

/-! ### Memory operands -/

/-- The bytes of an admitted access, lowest offset first. `admits` answers `ok` only where every byte is allocated
(Laws: admits_ok_allocated), so the default is never read. -/
def bytesAt (s : State) (lin : Word64) (n : Nat) : List Byte :=
  (accessBytes s.mode lin n).map fun a => (Memory.byte? s.mem a).getD 0x00#8

/-- `MemRead(lin, n)` on behalf of segment `g` (R38). -/
def memRead (s : State) (g : Seg) (lin : Word64) (n : Nat) : Result (List Byte) :=
  match admits s g lin n .read with
  | .ok => .next (bytesAt s lin n)
  | .fault f => raise f
  | .refuse r => .refused r

/-- Which forms check the alignment of a memory operand (R32): the legacy form does, the VEX forms do not, and no form
raises #AC (R147, log 19). -/
inductive AlignRule where
  | aligned16
  | anyAddress
  deriving DecidableEq, Repr

/-- The linear address breaks the alignment rule: `lin mod 16 != 0` for the legacy form (R32). -/
def misaligned (al : AlignRule) (lin : Word64) : Bool := al == .aligned16 && lin.toNat % 16 != 0

/-- Read a memory operand of `n` bytes (R107): the alignment check, then `MemRead`. All `n` bytes are read whatever
imm8 is (R33). -/
def readMem (al : AlignRule) (n : Nat) (m : MemOperand) (s : State) : Result (List Byte) :=
  if misaligned al (linearAddress s m) then raise .gp0 else memRead s m.seg (linearAddress s m) n

/-- The 128-bit second source: bits 127:0 of a register, or 16 bytes of memory (R105, R31). -/
def source128 (al : AlignRule) (o : RM) (s : State) : Result Xmm :=
  match o with
  | .reg r => .next (s.xmmReg r)
  | .mem m => andThen (readMem al 16 m s) fun bs => .next (leBytes 128 bs)

/-- The 256-bit second source: a register, or 32 bytes of memory (R105, R31). -/
def source256 (o : RM) (s : State) : Result Ymm :=
  match o with
  | .reg r => .next (s.ymmReg r)
  | .mem m => andThen (readMem .anyAddress 32 m s) fun bs => .next (leBytes 256 bs)

end Sys2Proof.Machine
end

