-- ==== Sys2Proof/Machine/Shuffle.lean ====
section
/-! DEFINITION. The meanings of the three instructions (40_shufpd.md R102 to R104), run in the envelope of R107: the
enabling checks, the operands, the result. The state is the one whose `pc` the step has moved past the instruction
(log 7). Every source is read, and the memory read completes or faults, before the destination is written (R105). -/

namespace Sys2Proof.Machine

/-- `SHUFPD xmm1, xmm2/m128, imm8` (R102): bits 255:128 of the destination stay. -/
def execShufpd (dst : VReg) (src : RM) (imm8 : Byte) (s : State) : Host.Outcome State Fault Refusal :=
  andThen (checkEnabled s.sseEnabled s) fun _ =>
    andThen (source128 .aligned16 src s) fun b =>
      .next (s.writeXmm dst (shuf128 (s.xmmReg dst) b (imm8.getLsbD 0) (imm8.getLsbD 1)))

/-- `VSHUFPD xmm1, xmm2, xmm3/m128, imm8` (R103): bits 255:128 of the destination become zero. -/
def execVshufpd128 (dst src1 : VReg) (src2 : RM) (imm8 : Byte) (s : State) : Host.Outcome State Fault Refusal :=
  andThen (checkEnabled s.avxEnabled s) fun _ =>
    andThen (source128 .anyAddress src2 s) fun b =>
      .next (s.writeXmmZero dst (shuf128 (s.xmmReg src1) b (imm8.getLsbD 0) (imm8.getLsbD 1)))

/-- `VSHUFPD ymm1, ymm2, ymm3/m256, imm8` (R104): all 256 bits of the destination are written. -/
def execVshufpd256 (dst src1 : VReg) (src2 : RM) (imm8 : Byte) (s : State) : Host.Outcome State Fault Refusal :=
  andThen (checkEnabled s.avxEnabled s) fun _ =>
    andThen (source256 src2 s) fun b =>
      .next (s.writeYmm dst (shuf256 (s.ymmReg src1) b (imm8.getLsbD 0) (imm8.getLsbD 1) (imm8.getLsbD 2)
        (imm8.getLsbD 3)))

end Sys2Proof.Machine
end

