-- ==== Sys2Proof/Machine/Dispatch.lean ====
section
/-! DEFINITION. One arm per constructor of Instr: 40_shufpd.md R102, R103, R104. -/

namespace Sys2Proof.Machine

def exec (i : Instr) (s : State) : Host.Outcome State Fault Refusal :=
  match i with
  | .shufpd dst src imm8 => Sys2Proof.Machine.execShufpd dst src imm8 s
  | .vshufpd128 dst src1 src2 imm8 => Sys2Proof.Machine.execVshufpd128 dst src1 src2 imm8 s
  | .vshufpd256 dst src1 src2 imm8 => Sys2Proof.Machine.execVshufpd256 dst src1 src2 imm8 s

end Sys2Proof.Machine
end

