-- ==== Sys2Proof/Machine/Fetch.lean ====
section
/-! DEFINITION. Fetching and decoding the instruction at `pc` (20_memory.md R42, 30_encoding.md R71, 60_exceptions.md
R148 items 1 and 2). -/

namespace Sys2Proof.Machine

/-- The bytes the launch memory holds from offset `k` of the instruction: at most `fuel`, up to the first that has no
value or lies past the top of the address space. `pc + k` is a linear address, as R71 says (log 10). -/
def codeFrom (s : State) (k : Nat) (fuel : Nat) : List Byte :=
  match fuel with
  | 0 => []
  | f + 1 =>
    if 2 ^ Config.addressBits s.mode ≤ s.pc.toNat + k then []
    else
      match Memory.byte? s.mem (s.pc.toNat + k) with
      | some b => b :: codeFrom s (k + 1) f
      | none => []

/-- The bytes at `pc` the decoder may look at: at most 15 (30_encoding.md R64). -/
def fetchBytes (s : State) : List Byte := codeFrom s 0 Config.maxInstrBytes

/-- The `len` of the fetch `ADMITS(CS, pc, len, fetch)` (R42): the bytes the decoder needs, the first byte that has no
value among them where it has no answer before that; not past the 15th byte or the top of the address space. DEDUCED
(log 9). -/
def fetchLength (s : State) : Nat :=
  min (bytesNeeded s.mode s.imm8Policy (fetchBytes s))
    (min Config.maxInstrBytes (2 ^ Config.addressBits s.mode - s.pc.toNat))

/-- The end of a step whose bytes are all admitted and make no instruction: #GP(0) where there are 15 of them (R64,
R145; log 8), else the next byte lies past the top of the address space, which is refused (10_state.md R14, log 16). -/
def fetchStop (got : Nat) : Result Decoded :=
  if Config.maxInstrBytes ≤ got then raise .gp0 else .refused .fetchWraps

/-- The decoder's answer as the step's (R148 item 2). -/
def decodedResult (got : Nat) : DecodeResult Decoded → Result Decoded
  | .ok d => .next d
  | .ud => raise .ud
  | .refused r => .refused (.undecodable r)
  | .truncated => fetchStop got

/-- The instruction at `pc`: the fetch's fault or refusal comes before everything the decoder finds (R148 item 1). -/
def fetchDecode (s : State) : Result Decoded :=
  if s.mode = .realAddress then .refused .modeOutOfScope
  else
    match admits s .cs s.pc (fetchLength s) .fetch with
    | .ok => decodedResult (fetchBytes s).length (decode s.mode s.imm8Policy (fetchBytes s))
    | .fault f => raise f
    | .refuse r => .refused r

end Sys2Proof.Machine
end

