-- ==== Sys2Proof/Machine/Launch.lean ====
section
/-! DEFINITION. Launching a program from outside the machine (70_reset_and_hazards.md R180 to R182): what system
software must have done before the rules hold, and the placing of the program's bytes. No step does any of this
(log 3). -/

namespace Sys2Proof.Machine

/-- Write one bit of a control register. -/
def setBit (v : Word64) (i : Nat) (b : Bool) : Word64 :=
  if b then v ||| (1#64 <<< i) else v &&& ~~~(1#64 <<< i)

/-- R181 for `mode64`, with the bits whose positions the spec gives: CR0.EM and CR0.TS clear, CR0.MP set, CR4.OSFXSR,
CR4.OSXMMEXCPT and CR4.OSXSAVE set, XCR0 bits 2:0 set. CPUID.01H:ECX bit 27 (OSXSAVE) is set with CR4.OSXSAVE: R181
has software check it "after step 4" and does not say outright that it follows; DEDUCED (log 33), and no rule reads it.
Step 1 of R181 is the value `mode64` of the mode: CR0.PE, CR0.PG and CR4.PAE, whose positions the spec does not give,
stay as they were, and EFER.LME is not held; DESIGN CHOICE (log 36). -/
def State.initialise (s : State) : State :=
  { s with
    mode := .mode64
    cr0 := setBit (setBit (setBit s.cr0 2 false) 1 true) 3 false
    cr4 := setBit (setBit (setBit s.cr4 9 true) 10 true) 18 true
    xcr0 := s.xcr0 ||| 0x7#64
    cpuid := { s.cpuid with leaf1Ecx := s.cpuid.leaf1Ecx ||| (1#32 <<< 27) } }

/-- The data a launch from reset lists beside the program: 32 zero bytes at linear address 0 (log 3). -/
def launchData : List Byte := List.replicate 32 0x00#8

/-- The launch of a machine that is still in real-address mode; a machine already launched stays as it is. -/
def State.launched (s : State) : State :=
  if s.mode = .realAddress then { s.initialise with mem := Memory.storeBytes s.mem 0 launchData } else s

/-- The length of the instruction at the front of the bytes; all of them where there is none. -/
def programLength (s : State) (bs : List Byte) : Nat :=
  match decode s.mode s.imm8Policy bs with
  | .ok d => d.len
  | .ud => bs.length
  | .refused _ => bs.length
  | .truncated => bs.length

/-- Place a program of one instruction: its bytes at `pc`, and `END` at the byte after it (R182: "it contains the program
bytes at `pc0 .. END-1`"; R184). -/
def State.placeInstr (s : State) (bs : List Byte) : State :=
  { s with
    mem := Memory.storeBytes s.mem s.pc.toNat bs
    endPc := nextPc s.mode s.pc (programLength s bs) }

end Sys2Proof.Machine
end

