-- ==== Sys2Proof/Machine/Step.lean ====
section
/-! DEFINITION. One step of the machine (40_shufpd.md R107), and the placing of an instruction for it. -/

namespace Sys2Proof.Machine

/-- R107: at `END` the run is over and the state stays (R184, log 11); else fetch and decode, move `pc` past the
instruction, and run it. A fault or a refusal carries no state: the machine stays as it was, `pc` at the instruction's
first byte (R150). -/
def step (s : State) : Host.Outcome State Fault Refusal :=
  if s.pc = s.endPc then .next s
  else andThen (fetchDecode s) fun d => exec d.instr (s.advance d.len)

/-- `s` launched with the instruction of a table word as its program (log 3). -/
def State.withFetchWord (s : State) (nbits w : Nat) : State := s.launched.placeInstr (tableBytes nbits w)

end Sys2Proof.Machine
end

