-- ==== Sys2Proof/Safety.lean ====
section
/-! DEFINITION. What counts as a well-formed state and as a safe run, in the terms the statements use. -/

namespace Sys2Proof

/-- The destination register of an instruction (30_encoding.md R51). -/
def Instr.dst : Instr → VReg
  | .shufpd d _ _ => d
  | .vshufpd128 d _ _ _ => d
  | .vshufpd256 d _ _ _ => d

/-- The `ModRM:r/m` operand (R51). -/
def Instr.rm : Instr → RM
  | .shufpd _ o _ => o
  | .vshufpd128 _ _ o _ => o
  | .vshufpd256 _ _ o _ => o

/-- The number of bytes of a memory operand (20_memory.md R33). -/
def Instr.memBytes : Instr → Nat
  | .shufpd _ _ _ => 16
  | .vshufpd128 _ _ _ _ => 16
  | .vshufpd256 _ _ _ _ => 32

/-- The alignment rule of a form (20_memory.md R32). -/
def Instr.alignRule : Instr → Machine.AlignRule
  | .shufpd _ _ _ => .aligned16
  | .vshufpd128 _ _ _ _ => .anyAddress
  | .vshufpd256 _ _ _ _ => .anyAddress

/-- The same instruction with another immediate. -/
def Instr.withImm (i : Instr) (imm8 : Byte) : Instr :=
  match i with
  | .shufpd d o _ => .shufpd d o imm8
  | .vshufpd128 d a o _ => .vshufpd128 d a o imm8
  | .vshufpd256 d a o _ => .vshufpd256 d a o imm8

/-- The immediate of an instruction. -/
def Instr.imm : Instr → Byte
  | .shufpd _ _ k => k
  | .vshufpd128 _ _ _ k => k
  | .vshufpd256 _ _ _ k => k

/-- A segment-override byte (30_encoding.md R55). -/
def isOverride (b : Byte) : Bool :=
  match legacyByte? b with
  | some (.segment _) => true
  | some .lock => false
  | some .rep => false
  | some .opSize => false
  | some .addrSize => false
  | none => false

/-- A string of legacy prefixes the decoder scans without an answer (R71): `66`, `67` and a segment override, each at
most once. -/
def PrefixesOnce (ps : List Byte) : Prop :=
  (∀ b ∈ ps, b = 0x66#8 ∨ b = 0x67#8 ∨ isOverride b = true) ∧
    ps.count 0x66#8 ≤ 1 ∧ ps.count 0x67#8 ≤ 1 ∧ ps.countP isOverride ≤ 1

/-- The byte starts no prefix of any kind in the mode: no legacy prefix, no REX, no VEX. -/
def noPrefixByte (m : Mode) (b : Byte) : Bool :=
  (legacyByte? b).isNone && !isVexLead b && !(m == .mode64 && isRex b)

/-- The mask of the immediate's select bits: bits 1:0, and bits 3:0 in the 256-bit form (30_encoding.md R54). -/
def Instr.selectMask : Instr → Byte
  | .shufpd _ _ _ => 0x03#8
  | .vshufpd128 _ _ _ _ => 0x03#8
  | .vshufpd256 _ _ _ _ => 0x0F#8

end Sys2Proof

namespace Sys2Proof.Machine

/-- The invariant of the model: the launch memory is in its canonical form, and in `mode32` the instruction pointer
is a 32-bit value (10_state.md R14). -/
def State.Inv (s : State) : Prop :=
  Memory.wf s.mem ∧ (s.mode = .mode32 → s.pc.toNat < 2 ^ 32)

/-- A state is final when `pc = END` (70_reset_and_hazards.md R184); a run that faulted has no state. -/
def State.final (s : State) : Bool := s.pc == s.endPc

/-- `t` is what `k` steps from `s` lead to, none of them a fault or a refusal. -/
def RunsTo (k : Nat) (s t : State) : Prop := Host.Core.run Sys2Proof.core k s = .next t

/-- A safe run: it reaches a final state (R184). -/
def SafeRun (s : State) : Prop := ∃ k t, RunsTo k s t ∧ t.final = true

/-- The launch premises of R182 that are more than "a field with a value": memory and `pc` in their form, a mode in
scope (D5), and a memory that contains the program bytes at `pc0 .. END-1`. That no fault is recorded and nothing is in
flight holds of every state. R182 writes `pc0 .. END-1` and does not say whether END may be 0 for a program that ends
exactly at the top of the address space (log 16 lets it run); that END is not below `pc` is a premise of the model's,
DESIGN CHOICE (log 34). -/
structure LaunchPremises (s : State) : Prop where
  form         : s.Inv
  modeInScope  : s.mode ≠ .realAddress
  endAfterPc   : s.pc.toNat ≤ s.endPc.toNat
  programBytes : ∀ a, s.pc.toNat ≤ a → a < s.endPc.toNat → (Memory.byte? s.mem a).isSome = true

/-- From address `a` to `END` the memory holds these instructions' bytes, one after the other (R182, R184). -/
def ProgramAt (s : State) (a : Nat) : List (List Byte) → Prop
  | [] => a = s.endPc.toNat
  | bs :: t =>
    (∃ d, decode s.mode s.imm8Policy bs = .ok d ∧ d.len = bs.length) ∧
    (∀ j, j < bs.length → Memory.byte? s.mem (a + j) = bs[j]?) ∧ ProgramAt s (a + bs.length) t

/-- Everything but the vector register file is the same (10_state.md R22). -/
def SameButVectors (s t : State) : Prop := t = { s with ymm := t.ymm }

/-- Everything but the vector register file and the instruction pointer is the same (R22). -/
def SameButVectorsPc (s t : State) : Prop := t = { s with ymm := t.ymm, pc := t.pc }

/-- The form's feature is enabled (10_state.md R17). -/
def formEnabled (s : State) : Instr → Bool
  | .shufpd _ _ _ => s.sseEnabled
  | .vshufpd128 _ _ _ _ => s.avxEnabled
  | .vshufpd256 _ _ _ _ => s.avxEnabled

/-- A form runs: the mode is in scope, its feature is enabled and TS is clear (R17, 60_exceptions.md R142, R143). -/
def FormReady (s : State) (i : Instr) : Prop :=
  s.mode ≠ .realAddress ∧ formEnabled s i = true ∧ s.ts = false

/-- One register was written and nothing else changed: every other vector register, every other field and every byte
of memory is as it was (R22). -/
def OnlyRegisterWritten (s t : State) (dst : VReg) : Prop :=
  SameButVectors s t ∧ (∀ r, r ≠ dst → t.ymmReg r = s.ymmReg r) ∧
    ∀ a, Memory.byte? t.mem a = Memory.byte? s.mem a

/-- Quadword `k` of a 256-bit value: bits 64k+63:64k (40_shufpd.md, notation). -/
def quad (v : Ymm) (k : Nat) : BitVec 64 := v.extractLsb' (64 * k) 64

/-- The outcome table of R108 for one lane: the two select bits, the first source `x1:x0`, the second source `y1:y0`, and
the lane of the result. -/
def SelectTable (f : BitVec 2) (x1 x0 y1 y0 : BitVec 64) (v : Xmm) : Prop :=
  (f = 0#2 → v = y0 ++ x0) ∧ (f = 1#2 → v = y0 ++ x1) ∧ (f = 2#2 → v = y1 ++ x0) ∧ (f = 3#2 → v = y1 ++ x1)

/-- Quadword `k` of the memory at `lin`: the eight bytes from offset 8k, least significant first (20_memory.md R31). -/
def memQuad (s : State) (lin : Word64) (k : Nat) : BitVec 64 :=
  leBytes 64 ((List.range 8).map fun j => (Memory.byte? s.mem (byteAddress s.mode lin (8 * k + j))).getD 0x00#8)

/-- The memory operand passes every check of the form: aligned where the form asks for it (R32), and admitted for the
read of all its bytes (R38). -/
def OperandReady (s : State) (i : Instr) : Prop :=
  match i.rm with
  | .reg _ => True
  | .mem m => misaligned i.alignRule (linearAddress s m) = false ∧
      admits s m.seg (linearAddress s m) i.memBytes .read = .ok

/-- Every instruction of a program from address `a` can be fetched (R42), and its form runs and its operand passes its
checks when `pc_next` is the address after it. None of this reads a vector register. -/
def ReadyAt (s : State) (a : Nat) : List (List Byte) → Prop
  | [] => True
  | bs :: t =>
    admits s .cs (BitVec.ofNat 64 a) bs.length .fetch = .ok ∧
    (∀ d, decode s.mode s.imm8Policy bs = .ok d → FormReady s d.instr ∧
      OperandReady { s with pc := nextPc s.mode (BitVec.ofNat 64 a) d.len } d.instr) ∧
    ReadyAt s (a + bs.length) t

end Sys2Proof.Machine
end

