-- ==== Sys2Proof/Certificates/Slice0/Obligations.lean ====
section
/-! DEFINITION. The statements for the provers. In a statement about exec the state `s` is the one exec is given, whose
`pc` the step has moved to the next instruction (log 7); the statements about step say what happens to `pc`. Hypotheses
are on the state and the operands alone. -/

open Sys2Proof Sys2Proof.Machine

/-! ### Decoding and encoding (30_encoding.md) -/

/-- The encoding of a well-formed instruction, in every mode, policy and style and whatever bytes follow, decodes to that
instruction with its length. A style fixes every choice the layouts of R55 to R62 leave: the order of the prefixes, REX
or the three-byte VEX prefix where a shorter encoding would do, W, extension bits nothing reads, the displacement form, a
SIB byte where none is needed, a written-out default segment, and the prefixes of a register operand. That no encoding is
left out is EveryDecodedWordIsAnEncoding. -/
def Obligations.DecodeOfEncodeIsTheInstruction : Prop :=
  ∀ (m : Mode) (pol : Imm8Policy) (st : EncodingStyle) (i : Instr) (rest : List Byte), i.wf m pol = true →
    decode m pol (encodeStyled m st i ++ rest) = .ok { instr := i, len := (encodeStyled m st i).length }

/-- R62: where X and B are 0, the two-byte and the three-byte VEX prefix, the latter with either W bit,
decode to the same term, the three-byte encoding being one byte longer. -/
def Obligations.TwoByteAndThreeByteVexDecodeAlike : Prop :=
  ∀ (m : Mode) (pol : Imm8Policy) (st : EncodingStyle) (i : Instr) (rest : List Byte), i.wf m pol = true →
    (∀ d o k, i ≠ .shufpd d o k) → (rmExt m st false i.rm).x = false → (rmExt m st false i.rm).b = false →
    ∃ n, ∀ w,
      decode m pol (encodeStyled m { st with wide := false, w := w } i ++ rest) = .ok { instr := i, len := n } ∧
      decode m pol (encodeStyled m { st with wide := true, w := w } i ++ rest) = .ok { instr := i, len := n + 1 }

/-- The other direction: the bytes of every decoded instruction are the encoding of that instruction in some style, so
that the decoder admits no encoding but those of the layouts R55 to R62, and the encoder lacks none of them. -/
def Obligations.EveryDecodedWordIsAnEncoding : Prop :=
  ∀ (m : Mode) (pol : Imm8Policy) (bs : List Byte) (d : Decoded), decode m pol bs = .ok d →
    ∃ st : EncodingStyle, encodeStyled m st d.instr = bs.take d.len

/-- The decoder's answer depends on the bytes it needs only: once it answers anything but "truncated", bytes that
follow change nothing (R71). -/
def Obligations.DecodeIgnoresFollowingBytes : Prop :=
  ∀ (m : Mode) (pol : Imm8Policy) (bs extra : List Byte), decode m pol bs ≠ .truncated →
    decode m pol (bs ++ extra) = decode m pol bs

/-- A decoded instruction has a length of 5 to 13 bytes (R64, R70), lies within the bytes, and is decoded from those
bytes alone. -/
def Obligations.DecodedLengthsLieBetween5And13 : Prop :=
  ∀ (m : Mode) (pol : Imm8Policy) (bs : List Byte) (d : Decoded), decode m pol bs = .ok d →
    5 ≤ d.len ∧ d.len ≤ 13 ∧ d.len ≤ bs.length ∧ decode m pol (bs.take d.len) = .ok d

/-- The decoder returns well-formed instructions only: registers the mode reaches (R12, R13, R65), operands an
addressing form exists for (R57 to R59), imm8 bits the policy admits (R73). -/
def Obligations.DecodedInstructionsAreWellFormed : Prop :=
  ∀ (m : Mode) (pol : Imm8Policy) (bs : List Byte) (d : Decoded), decode m pol bs = .ok d → d.instr.wf m pol = true

/-- Words written out from R55 to R62: a legacy form with REX, both VEX.128 prefixes, a VEX.256 form, a SIB operand; the
six override bytes and one before VEX (R55, R63); default SS with base 4 and 5, default DS with base 12 and 13 (R59,
log 22), replaced by an override; a negative disp8, and the same displacement as a disp32 (R57, R59). -/
def Obligations.WrittenOutWordsDecode : Prop :=
  decode .mode64 .ignore [0x66#8, 0x44#8, 0x0F#8, 0xC6#8, 0xCA#8, 0x03#8] =
    .ok { instr := .shufpd 9 (.reg 2) 3#8, len := 6 } ∧
  decode .mode32 .refuse [0xC5#8, 0xE9#8, 0xC6#8, 0xCB#8, 0x01#8] =
    .ok { instr := .vshufpd128 1 2 (.reg 3) 1#8, len := 5 } ∧
  decode .mode64 .ignore [0xC4#8, 0xE1#8, 0xE9#8, 0xC6#8, 0xCB#8, 0x01#8] =
    .ok { instr := .vshufpd128 1 2 (.reg 3) 1#8, len := 6 } ∧
  decode .mode64 .ignore [0xC4#8, 0x41#8, 0x35#8, 0xC6#8, 0xC2#8, 0x0F#8] =
    .ok { instr := .vshufpd256 8 9 (.reg 10) 15#8, len := 6 } ∧
  decode .mode64 .ignore [0x66#8, 0x0F#8, 0xC6#8, 0x0C#8, 0xC8#8, 0x01#8] =
    .ok { instr := .shufpd 1
            (.mem { seg := .ds, base := some 0, index := some 1, scale := .x8, disp := 0#32, riprel := false,
                    asize := .a64 }) 1#8,
          len := 6 } ∧
  (∀ p ∈ [(0x26#8, Seg.es), (0x2E#8, .cs), (0x36#8, .ss), (0x3E#8, .ds), (0x64#8, .fs), (0x65#8, .gs)],
    decode .mode64 .ignore [p.1, 0x66#8, 0x0F#8, 0xC6#8, 0x4D#8, 0xF0#8, 0x02#8] =
      .ok { instr := .shufpd 1
              (.mem { seg := p.2, base := some 5, index := none, scale := .x1, disp := 0xFFFFFFF0#32, riprel := false,
                      asize := .a64 }) 2#8,
            len := 7 }) ∧
  decode .mode64 .ignore [0x64#8, 0xC5#8, 0xF1#8, 0xC6#8, 0x07#8, 0x02#8] =
    .ok { instr := .vshufpd128 0 1
            (.mem { seg := .fs, base := some 7, index := none, scale := .x1, disp := 0#32, riprel := false,
                    asize := .a64 }) 2#8,
          len := 6 } ∧
  decode .mode32 .ignore [0x66#8, 0x0F#8, 0xC6#8, 0x5B#8, 0x10#8, 0x00#8] =
    .ok { instr := .shufpd 3
            (.mem { seg := .ds, base := some 3, index := none, scale := .x1, disp := 16#32, riprel := false,
                    asize := .a32 }) 0#8,
          len := 6 } ∧
  decode .mode64 .ignore [0x66#8, 0x0F#8, 0xC6#8, 0x4D#8, 0xF0#8, 0x01#8] =
    .ok { instr := .shufpd 1
            (.mem { seg := .ss, base := some 5, index := none, scale := .x1, disp := 0xFFFFFFF0#32, riprel := false,
                    asize := .a64 }) 1#8,
          len := 6 } ∧
  decode .mode64 .ignore [0x66#8, 0x0F#8, 0xC6#8, 0x8D#8, 0xF0#8, 0xFF#8, 0xFF#8, 0xFF#8, 0x01#8] =
    .ok { instr := .shufpd 1
            (.mem { seg := .ss, base := some 5, index := none, scale := .x1, disp := 0xFFFFFFF0#32, riprel := false,
                    asize := .a64 }) 1#8,
          len := 9 } ∧
  decode .mode64 .ignore [0x66#8, 0x0F#8, 0xC6#8, 0x0C#8, 0x24#8, 0x01#8] =
    .ok { instr := .shufpd 1
            (.mem { seg := .ss, base := some 4, index := none, scale := .x1, disp := 0#32, riprel := false,
                    asize := .a64 }) 1#8,
          len := 6 } ∧
  decode .mode64 .ignore [0x66#8, 0x41#8, 0x0F#8, 0xC6#8, 0x04#8, 0x24#8, 0x01#8] =
    .ok { instr := .shufpd 0
            (.mem { seg := .ds, base := some 12, index := none, scale := .x1, disp := 0#32, riprel := false,
                    asize := .a64 }) 1#8,
          len := 7 } ∧
  decode .mode64 .ignore [0xC4#8, 0xC1#8, 0x31#8, 0xC6#8, 0x45#8, 0x00#8, 0x01#8] =
    .ok { instr := .vshufpd128 0 9
            (.mem { seg := .ds, base := some 13, index := none, scale := .x1, disp := 0#32, riprel := false,
                    asize := .a64 }) 1#8,
          len := 7 }

/-- R142, R63, R71: after any string `ps` of prefixes that is no answer itself, and after a repeat prefix with further
prefixes `qs` as well (log 8), a LOCK prefix is #UD; a VEX prefix is #UD after a `66`, after a repeat prefix, and in
`mode64` right after a REX byte. In `mode64` `C5` and `C4` start a VEX prefix whatever follows (log 9), in `mode32` when
the next byte says so (R65). A `67` before `66` and VEX in `mode32` is the refusal of the 16-bit address size instead
(R71). -/
def Obligations.LockAndMisplacedBytesBeforeVexAreUd : Prop :=
  ∀ (m : Mode) (pol : Imm8Policy) (ps : List Byte), m ≠ .realAddress → PrefixesOnce ps →
    (∀ bs, decode m pol (ps ++ 0xF0#8 :: bs) = .ud) ∧
    (∀ v t, isVexLead v = true → (m = .mode64 ∨ ∃ c bs, t = c :: bs ∧ vexFollows m c = true) →
      0x66#8 ∈ ps → (m = .mode64 ∨ 0x67#8 ∉ ps) → decode m pol (ps ++ v :: t) = .ud) ∧
    (∀ x v bs, m = .mode64 → isRex x = true → isVexLead v = true → decode m pol (ps ++ x :: v :: bs) = .ud) ∧
    (∀ r qs, r = 0xF2#8 ∨ r = 0xF3#8 → (∀ q ∈ qs, (legacyByte? q).isSome = true ∧ q ≠ 0xF0#8) →
      (∀ bs, decode m pol (ps ++ r :: (qs ++ 0xF0#8 :: bs)) = .ud) ∧
      (∀ v t, isVexLead v = true → (m = .mode64 ∨ ∃ c bs, t = c :: bs ∧ vexFollows m c = true) →
        decode m pol (ps ++ r :: (qs ++ v :: t)) = .ud) ∧
      (∀ x v bs, m = .mode64 → isRex x = true → isVexLead v = true →
        decode m pol (ps ++ r :: (qs ++ x :: v :: bs)) = .ud))

/-- R72, D23, R65: byte strings outside the three forms are refused by name. `ps` is any string of prefixes that is no
answer itself. In order: a repeated `66` or `67`; a second segment override; a repeat prefix before anything that is
neither LOCK nor a VEX prefix, the legacy form among it, with and without REX, and `C4` and `C5` that are no VEX prefix in
`mode32` (log 8); the 16-bit address size; without
VEX another opcode than `66 0F C6`, SHUFPS, EVEX and a REX that is not right before `0F` among them; `C4` and `C5` that
are no VEX prefix in `mode32`; under VEX other fields and another opcode; non-canonical VEX bits in `mode32`. -/
def Obligations.OtherBytesAreRefusedByName : Prop :=
  ∀ (m : Mode) (pol : Imm8Policy) (ps : List Byte), m ≠ .realAddress → PrefixesOnce ps →
    (∀ b bs, b = 0x66#8 ∨ b = 0x67#8 → b ∈ ps → decode m pol (ps ++ b :: bs) = .refused .repeatedPrefix) ∧
    (∀ g h bs, segByte g ∈ ps → decode m pol (ps ++ segByte h :: bs) = .refused .twoSegmentOverrides) ∧
    (∀ r qs b bs, r = 0xF2#8 ∨ r = 0xF3#8 → (∀ q ∈ qs, (legacyByte? q).isSome = true ∧ q ≠ 0xF0#8) →
      (noPrefixByte m b = true → decode m pol (ps ++ r :: (qs ++ b :: bs)) = .refused .repeatPrefix) ∧
      (∀ x, m = .mode64 → isRex x = true → isVexLead b = false →
        decode m pol (ps ++ r :: (qs ++ x :: b :: bs)) = .refused .repeatPrefix) ∧
      (∀ v, isVexLead v = true → vexFollows m b = false →
        decode m pol (ps ++ r :: (qs ++ v :: b :: bs)) = .refused .repeatPrefix)) ∧
    (∀ b bs, m = .mode32 → 0x67#8 ∈ ps → legacyByte? b = none →
      decode m pol (ps ++ b :: bs) = .refused .addressSize16) ∧
    (m = .mode64 ∨ 0x67#8 ∉ ps →
      (∀ b bs, noPrefixByte m b = true → 0x66#8 ∉ ps ∨ b ≠ 0x0F#8 →
        decode m pol (ps ++ b :: bs) = .refused .notShufpd) ∧
      (∀ b bs, b ≠ 0xC6#8 → decode m pol (ps ++ 0x0F#8 :: b :: bs) = .refused .notShufpd) ∧
      (∀ x b bs, m = .mode64 → isRex x = true → isVexLead b = false → 0x66#8 ∉ ps ∨ b ≠ 0x0F#8 →
        decode m pol (ps ++ x :: b :: bs) = .refused .notShufpd) ∧
      (∀ x b bs, m = .mode64 → isRex x = true → b ≠ 0xC6#8 →
        decode m pol (ps ++ x :: 0x0F#8 :: b :: bs) = .refused .notShufpd) ∧
      (∀ v b bs, m = .mode32 → isVexLead v = true → vexFollows m b = false →
        decode m pol (ps ++ v :: b :: bs) = .refused .notShufpd) ∧
      (0x66#8 ∉ ps →
        (∀ b1 c bs, vexFollows m b1 = true → b1.extractLsb' 0 2 ≠ 0x1#2 ∨ c ≠ 0xC6#8 →
          decode m pol (ps ++ 0xC5#8 :: b1 :: c :: bs) = .refused .notVshufpd) ∧
        (∀ b1 b2 c bs, vexFollows m b1 = true →
          b1.extractLsb' 0 5 ≠ 0x01#5 ∨ b2.extractLsb' 0 2 ≠ 0x1#2 ∨ c ≠ 0xC6#8 →
          decode m pol (ps ++ 0xC4#8 :: b1 :: b2 :: c :: bs) = .refused .notVshufpd) ∧
        (∀ b1 b2 bs, m = .mode32 → vexFollows m b1 = true → b1.extractLsb' 0 5 = 0x01#5 →
          b2.extractLsb' 0 2 = 0x1#2 → b1.getLsbD 5 = false ∨ b2.getLsbD 6 = false →
          decode m pol (ps ++ 0xC4#8 :: b1 :: b2 :: 0xC6#8 :: bs) = .refused .nonCanonicalVex)))

/-- R57, row mod 00, r/m 101: the same bytes are RIP-relative in `mode64` and an absolute address in `mode32`. -/
def Obligations.RipRelativeInMode64AbsoluteInMode32 : Prop :=
  ∀ (r : BitVec 3) (d : BitVec 32) (k : Byte) (rest : List Byte),
    decode .mode64 .ignore (0x66#8 :: 0x0F#8 :: 0xC6#8 :: (0x0#2 ++ r ++ 0x5#3 : Byte) :: (dispBytes d ++ k :: rest)) =
      .ok { instr := .shufpd (regNum false r)
              (.mem { seg := .ds, base := none, index := none, scale := .x1, disp := d, riprel := true,
                      asize := .a64 }) k,
            len := 9 } ∧
    decode .mode32 .ignore (0x66#8 :: 0x0F#8 :: 0xC6#8 :: (0x0#2 ++ r ++ 0x5#3 : Byte) :: (dispBytes d ++ k :: rest)) =
      .ok { instr := .shufpd (regNum false r)
              (.mem { seg := .ds, base := none, index := none, scale := .x1, disp := d, riprel := false,
                      asize := .a32 }) k,
            len := 9 }

/-- R111, R73: under `ignore` the reserved bits of imm8 change nothing: the instruction runs as with those bits zero.
An instruction `refuse` lets through decodes to the same term under `ignore` and has them zero; one with a non-zero
reserved bit is refused by name. -/
def Obligations.ReservedImm8BitsFollowThePolicy : Prop :=
  (∀ (i : Instr) (s : State), exec i s = exec (i.withImm (i.imm &&& i.selectMask)) s) ∧
  (∀ (m : Mode) (bs : List Byte) (d : Decoded), decode m .refuse bs = .ok d →
    decode m .ignore bs = .ok d ∧ d.instr.imm &&& ~~~d.instr.selectMask = 0#8) ∧
  (∀ (m : Mode) (bs : List Byte) (d : Decoded), decode m .ignore bs = .ok d →
    d.instr.imm &&& ~~~d.instr.selectMask ≠ 0#8 → decode m .refuse bs = .refused .reservedImm8Bits)

/-! ### What each instruction computes (40_shufpd.md) -/

/-- R100: `sel64` and `shuf128`, by bits. -/
def Obligations.Sel64AndShuf128SelectQuadwords : Prop :=
  ∀ (a b : Xmm) (s0 s1 : Bool),
    (∀ v : Xmm, sel64 v false = v.extractLsb' 0 64 ∧ sel64 v true = v.extractLsb' 64 64) ∧
    (shuf128 a b s0 s1).extractLsb' 0 64 = sel64 a s0 ∧ (shuf128 a b s0 s1).extractLsb' 64 64 = sel64 b s1

/-- R102, register operand: the result, quadword by quadword, and the frame. -/
def Obligations.ShufpdRegisterResult : Prop :=
  ∀ (s : State) (dst r : VReg) (k : Byte), FormReady s (.shufpd dst (.reg r) k) →
    ∃ t, exec (.shufpd dst (.reg r) k) s = .next t ∧
      quad (t.ymmReg dst) 0 = (if k.getLsbD 0 then quad (s.ymmReg dst) 1 else quad (s.ymmReg dst) 0) ∧
      quad (t.ymmReg dst) 1 = (if k.getLsbD 1 then quad (s.ymmReg r) 1 else quad (s.ymmReg r) 0) ∧
      quad (t.ymmReg dst) 2 = quad (s.ymmReg dst) 2 ∧ quad (t.ymmReg dst) 3 = quad (s.ymmReg dst) 3 ∧
      OnlyRegisterWritten s t dst

/-- R102, memory operand: 16-byte aligned and admitted; the second source is the 16 bytes at the operand's linear
address (R31). -/
def Obligations.ShufpdMemoryResult : Prop :=
  ∀ (s : State) (dst : VReg) (m : MemOperand) (k : Byte), FormReady s (.shufpd dst (.mem m) k) →
    (linearAddress s m).toNat % 16 = 0 → admits s m.seg (linearAddress s m) 16 .read = .ok →
    ∃ t, exec (.shufpd dst (.mem m) k) s = .next t ∧
      quad (t.ymmReg dst) 0 = (if k.getLsbD 0 then quad (s.ymmReg dst) 1 else quad (s.ymmReg dst) 0) ∧
      quad (t.ymmReg dst) 1 =
        (if k.getLsbD 1 then memQuad s (linearAddress s m) 1 else memQuad s (linearAddress s m) 0) ∧
      quad (t.ymmReg dst) 2 = quad (s.ymmReg dst) 2 ∧ quad (t.ymmReg dst) 3 = quad (s.ymmReg dst) 3 ∧
      OnlyRegisterWritten s t dst

/-- R103, register operand: bits 255:128 become zero. -/
def Obligations.Vshufpd128RegisterResult : Prop :=
  ∀ (s : State) (dst a r : VReg) (k : Byte), FormReady s (.vshufpd128 dst a (.reg r) k) →
    ∃ t, exec (.vshufpd128 dst a (.reg r) k) s = .next t ∧
      quad (t.ymmReg dst) 0 = (if k.getLsbD 0 then quad (s.ymmReg a) 1 else quad (s.ymmReg a) 0) ∧
      quad (t.ymmReg dst) 1 = (if k.getLsbD 1 then quad (s.ymmReg r) 1 else quad (s.ymmReg r) 0) ∧
      quad (t.ymmReg dst) 2 = 0#64 ∧ quad (t.ymmReg dst) 3 = 0#64 ∧ OnlyRegisterWritten s t dst

/-- R103, memory operand: admitted, at any address (R32). That a misaligned operand completes rests on a premise on the
processor that is named here and is no hypothesis: alignment checking is off (R147, D7, G14; log 19, UNVERIFIED). -/
def Obligations.Vshufpd128MemoryResult : Prop :=
  ∀ (s : State) (dst a : VReg) (m : MemOperand) (k : Byte), FormReady s (.vshufpd128 dst a (.mem m) k) →
    admits s m.seg (linearAddress s m) 16 .read = .ok →
    ∃ t, exec (.vshufpd128 dst a (.mem m) k) s = .next t ∧
      quad (t.ymmReg dst) 0 = (if k.getLsbD 0 then quad (s.ymmReg a) 1 else quad (s.ymmReg a) 0) ∧
      quad (t.ymmReg dst) 1 =
        (if k.getLsbD 1 then memQuad s (linearAddress s m) 1 else memQuad s (linearAddress s m) 0) ∧
      quad (t.ymmReg dst) 2 = 0#64 ∧ quad (t.ymmReg dst) 3 = 0#64 ∧ OnlyRegisterWritten s t dst

/-- R104, register operand: all four quadwords. -/
def Obligations.Vshufpd256RegisterResult : Prop :=
  ∀ (s : State) (dst a r : VReg) (k : Byte), FormReady s (.vshufpd256 dst a (.reg r) k) →
    ∃ t, exec (.vshufpd256 dst a (.reg r) k) s = .next t ∧
      quad (t.ymmReg dst) 0 = (if k.getLsbD 0 then quad (s.ymmReg a) 1 else quad (s.ymmReg a) 0) ∧
      quad (t.ymmReg dst) 1 = (if k.getLsbD 1 then quad (s.ymmReg r) 1 else quad (s.ymmReg r) 0) ∧
      quad (t.ymmReg dst) 2 = (if k.getLsbD 2 then quad (s.ymmReg a) 3 else quad (s.ymmReg a) 2) ∧
      quad (t.ymmReg dst) 3 = (if k.getLsbD 3 then quad (s.ymmReg r) 3 else quad (s.ymmReg r) 2) ∧
      OnlyRegisterWritten s t dst

/-- R104, memory operand: 32 admitted bytes at any address (R32). That a misaligned operand completes rests on a premise on the
processor that is named here and is no hypothesis: alignment checking is off (R147, D7, G14; log 19, UNVERIFIED). -/
def Obligations.Vshufpd256MemoryResult : Prop :=
  ∀ (s : State) (dst a : VReg) (m : MemOperand) (k : Byte), FormReady s (.vshufpd256 dst a (.mem m) k) →
    admits s m.seg (linearAddress s m) 32 .read = .ok →
    ∃ t, exec (.vshufpd256 dst a (.mem m) k) s = .next t ∧
      quad (t.ymmReg dst) 0 = (if k.getLsbD 0 then quad (s.ymmReg a) 1 else quad (s.ymmReg a) 0) ∧
      quad (t.ymmReg dst) 1 =
        (if k.getLsbD 1 then memQuad s (linearAddress s m) 1 else memQuad s (linearAddress s m) 0) ∧
      quad (t.ymmReg dst) 2 = (if k.getLsbD 2 then quad (s.ymmReg a) 3 else quad (s.ymmReg a) 2) ∧
      quad (t.ymmReg dst) 3 =
        (if k.getLsbD 3 then memQuad s (linearAddress s m) 3 else memQuad s (linearAddress s m) 2) ∧
      OnlyRegisterWritten s t dst

/-- R108: the outcome tables of the three forms, whatever the second source is: first source `X3:X2:X1:X0` (`X1:X0`
in the 128-bit forms, the destination itself in the legacy form), second source `Y3:Y2:Y1:Y0` (`Y1:Y0`). -/
def Obligations.OutcomeTables : Prop :=
  ∀ (s t : State) (dst a : VReg) (o : RM) (k : Byte) (X0 X1 X2 X3 Y0 Y1 Y2 Y3 : BitVec 64),
    (s.xmmReg dst = (X1 ++ X0 : BitVec 128) → source128 .aligned16 o s = .next (Y1 ++ Y0 : BitVec 128) →
      exec (.shufpd dst o k) s = .next t → SelectTable (k.extractLsb' 0 2) X1 X0 Y1 Y0 (t.xmmReg dst)) ∧
    (s.xmmReg a = (X1 ++ X0 : BitVec 128) → source128 .anyAddress o s = .next (Y1 ++ Y0 : BitVec 128) →
      exec (.vshufpd128 dst a o k) s = .next t → SelectTable (k.extractLsb' 0 2) X1 X0 Y1 Y0 (t.xmmReg dst)) ∧
    (s.ymmReg a = (X3 ++ X2 ++ X1 ++ X0 : BitVec 256) → source256 o s = .next (Y3 ++ Y2 ++ Y1 ++ Y0 : BitVec 256) →
      exec (.vshufpd256 dst a o k) s = .next t →
      SelectTable (k.extractLsb' 0 2) X1 X0 Y1 Y0 (lowLane (t.ymmReg dst)) ∧
      SelectTable (k.extractLsb' 2 2) X3 X2 Y3 Y2 (highLane (t.ymmReg dst)))

/-- R109: the same register in several roles, the table's rows in order, the last one for a register or a memory second
source (for a misaligned VEX operand log 19); every source is read before the destination is written. -/
def Obligations.SameRegisterInSeveralRoles : Prop :=
  ∀ (s : State) (r : VReg) (X1 X0 : BitVec 64), s.xmmReg r = (X1 ++ X0 : BitVec 128) →
    (∀ k, FormReady s (.shufpd r (.reg r) k) →
      ∃ t, exec (.shufpd r (.reg r) k) s = .next t ∧
        (k = 0#8 → t.xmmReg r = (X0 ++ X0 : BitVec 128)) ∧ (k = 1#8 → t.xmmReg r = (X0 ++ X1 : BitVec 128)) ∧
        (k = 2#8 → t.xmmReg r = (X1 ++ X0 : BitVec 128)) ∧ (k = 3#8 → t.xmmReg r = (X1 ++ X1 : BitVec 128))) ∧
    (∀ k, FormReady s (.vshufpd128 r r (.reg r) k) →
      ∃ t, exec (.vshufpd128 r r (.reg r) k) s = .next t ∧ highLane (t.ymmReg r) = 0#128 ∧
        (k.extractLsb' 0 2 = 0#2 → t.xmmReg r = (X0 ++ X0 : BitVec 128)) ∧
        (k.extractLsb' 0 2 = 1#2 → t.xmmReg r = (X0 ++ X1 : BitVec 128)) ∧
        (k.extractLsb' 0 2 = 2#2 → t.xmmReg r = (X1 ++ X0 : BitVec 128)) ∧
        (k.extractLsb' 0 2 = 3#2 → t.xmmReg r = (X1 ++ X1 : BitVec 128))) ∧
    (∀ a k, FormReady s (.vshufpd128 r a (.reg r) k) →
      ∃ t, exec (.vshufpd128 r a (.reg r) k) s = .next t ∧
        quad (t.ymmReg r) 1 = (if k.getLsbD 1 then X1 else X0) ∧
        quad (t.ymmReg r) 0 = (if k.getLsbD 0 then quad (s.ymmReg a) 1 else quad (s.ymmReg a) 0)) ∧
    (∀ o k, FormReady s (.vshufpd128 r r o k) → FormReady s (.shufpd r o k) → OperandReady s (.shufpd r o k) →
      ∃ t u, exec (.vshufpd128 r r o k) s = .next t ∧ exec (.shufpd r o k) s = .next u ∧
        t.xmmReg r = u.xmmReg r ∧ highLane (t.ymmReg r) = 0#128)

/-- R110, Figure 4-21, for every source of the legacy form: the result's high quadword is one of the source's two, its
low quadword one of the destination's two old ones. -/
def Obligations.ResultQuadwordsComeFromTheFigureBoxes : Prop :=
  ∀ (s t : State) (dst : VReg) (o : RM) (k : Byte), exec (.shufpd dst o k) s = .next t →
    ∃ Y1 Y0 : BitVec 64, source128 .aligned16 o s = .next (Y1 ++ Y0 : BitVec 128) ∧
      (quad (t.ymmReg dst) 1 = Y1 ∨ quad (t.ymmReg dst) 1 = Y0) ∧
      (quad (t.ymmReg dst) 0 = quad (s.ymmReg dst) 1 ∨ quad (t.ymmReg dst) 0 = quad (s.ymmReg dst) 0)

/-- R112: element `k` of the destination comes from the first source when `k` is even and from the second when `k` is
odd, from the same 128-bit lane, the half of it that bit `k` of imm8 selects: four elements in the 256-bit form, two
in the 128-bit forms. -/
def Obligations.ElementsStayInTheirLane : Prop :=
  (∀ (s t : State) (dst a : VReg) (o : RM) (k : Byte), exec (.vshufpd256 dst a o k) s = .next t →
    ∃ S2 : Ymm, source256 o s = .next S2 ∧ ∀ e, e < 4 →
      quad (t.ymmReg dst) e =
        sel64 ((if e % 2 = 0 then s.ymmReg a else S2).extractLsb' (128 * (e / 2)) 128) (k.getLsbD e)) ∧
  (∀ (s t : State) (dst a : VReg) (o : RM) (k : Byte), exec (.vshufpd128 dst a o k) s = .next t →
    ∃ S2 : Xmm, source128 .anyAddress o s = .next S2 ∧ ∀ e, e < 2 →
      quad (t.ymmReg dst) e = sel64 (if e % 2 = 0 then s.xmmReg a else S2) (k.getLsbD e)) ∧
  (∀ (s t : State) (dst : VReg) (o : RM) (k : Byte), exec (.shufpd dst o k) s = .next t →
    ∃ S2 : Xmm, source128 .aligned16 o s = .next S2 ∧ ∀ e, e < 2 →
      quad (t.ymmReg dst) e = sel64 (if e % 2 = 0 then s.xmmReg dst else S2) (k.getLsbD e))

/-- R104, R112: bits 127:0 of the 256-bit form are those of the VEX.128 form on the same operands, a memory operand
being admitted for the 32 bytes of the one and for the 16 of the other (`ADMITS` answers by size, R38). A
misaligned operand completes where alignment checking is off on the processor (R147, log 19). -/
def Obligations.Vex256LowLaneIsVex128 : Prop :=
  ∀ (s : State) (d a : VReg) (o : RM) (k : Byte),
    FormReady s (.vshufpd256 d a o k) → OperandReady s (.vshufpd256 d a o k) →
    OperandReady s (.vshufpd128 d a o k) →
    ∃ t u, exec (.vshufpd256 d a o k) s = .next t ∧ exec (.vshufpd128 d a o k) s = .next u ∧
      t.xmmReg d = u.xmmReg d

/-- 95_test_vectors.md P1, from R109: swapping the quadwords of a register twice gives back the whole state. -/
def Obligations.SwapTwiceIsTheIdentity : Prop :=
  ∀ (s : State) (r : VReg), FormReady s (.shufpd r (.reg r) 1#8) →
    ∃ t, exec (.shufpd r (.reg r) 1#8) s = .next t ∧ exec (.shufpd r (.reg r) 1#8) t = .next s

/-- R103, R104: the old contents of the destination do not influence a VEX form unless the destination is a source. -/
def Obligations.VexFormsForgetTheOldDestination : Prop :=
  ∀ (s : State) (d a : VReg) (o : RM) (k : Byte) (v : Ymm), d ≠ a → o ≠ .reg d →
    exec (.vshufpd128 d a o k) (s.writeYmm d v) = exec (.vshufpd128 d a o k) s ∧
    exec (.vshufpd256 d a o k) (s.writeYmm d v) = exec (.vshufpd256 d a o k) s

/-- R10 to R12: the 128-bit forms read bits 127:0 of their sources only: two register files that agree there give the
destination the same bits 127:0. -/
def Obligations.HighLanesOfSourcesAreNotRead : Prop :=
  ∀ (s : State) (v : Vector Ymm 16) (i : Instr) (t u : State), (∀ d a o k, i ≠ .vshufpd256 d a o k) →
    (∀ r : VReg, lowLane (v.get r) = s.xmmReg r) →
    exec i s = .next t → exec i { s with ymm := v } = .next u → t.xmmReg i.dst = u.xmmReg i.dst

/-! ### Completion and frame -/

/-- R107: a form completes exactly when its mode is in scope, its feature is enabled, TS is clear, and a memory operand
passes the form's alignment rule and is admitted. That a misaligned VEX operand is no obstacle rests on a premise on the
processor that is named here and is no hypothesis: alignment checking is off (R147, D7, G14; log 19, UNVERIFIED). -/
def Obligations.ExecCompletesExactlyWhenReady : Prop :=
  ∀ (i : Instr) (s : State), (∃ t, exec i s = .next t) ↔ FormReady s i ∧ OperandReady s i

/-- R22 for exec: when an instruction completes, its destination register is all that changes; the legacy form leaves
bits 255:128 of it as they were. -/
def Obligations.ExecWritesOnlyTheDestination : Prop :=
  ∀ (i : Instr) (s t : State), exec i s = .next t →
    OnlyRegisterWritten s t i.dst ∧
    ((∃ d o k, i = .shufpd d o k) → highLane (t.ymmReg i.dst) = highLane (s.ymmReg i.dst))

/-- R22 for step: a completed step changes the destination register and `pc` and nothing else, no byte of memory among
the rest. A faulting step answers no state. -/
def Obligations.StepWritesOnlyDestinationAndPc : Prop :=
  ∀ (s t : State), s.pc ≠ s.endPc → step s = .next t →
    ∃ d, fetchDecode s = .next d ∧ t.pc = nextPc s.mode s.pc d.len ∧ SameButVectorsPc s t ∧
      (∀ r, r ≠ d.instr.dst → t.ymmReg r = s.ymmReg r) ∧
      (∀ a, Memory.byte? t.mem a = Memory.byte? s.mem a)

/-- R15, R16: no form reads or writes EFLAGS or MXCSR (nor CR2): with other values there the outcome is the same, with
those values in it. -/
def Obligations.FlagsAndMxcsrAreNeitherReadNorWritten : Prop :=
  ∀ (i : Instr) (s : State) (f : Word64) (x : BitVec 32) (c : Word64),
    exec i { s with rflags := f, mxcsr := x, cr2 := c } =
      andThen (exec i s) fun t => .next { t with rflags := f, mxcsr := x, cr2 := c }

/-! ### Operands (20_memory.md) -/

/-- R36: the effective address is computed exactly and reduced modulo 2^asize; the state's `pc` is `pc_next`. -/
def Obligations.EffectiveAddressIsModular : Prop :=
  ∀ (s : State) (m : MemOperand),
    let bits : Nat := match m.asize with | .a64 => 64 | .a32 => 32
    let reg : Option GReg → Int := fun r => match r with | some i => ((s.gpr.get i).toNat % 2 ^ bits : Nat) | none => 0
    let scale : Int := match m.scale with | .x1 => 1 | .x2 => 2 | .x4 => 4 | .x8 => 8
    ((effectiveAddress s m).toNat : Int) =
      (if m.riprel then (s.pc.toNat : Int) + m.disp.toInt else reg m.base + reg m.index * scale + m.disp.toInt) %
        (2 ^ bits : Nat)

/-- R37: the linear address is base plus effective address modulo the address space; in `mode64` ES, CS, SS and DS have
base 0, so that an override among them changes no address, but still decides between #SS and #GP for a read (R38, where
the launch mirrors a processor, log 14); canonical means bits 63:LA_WIDTH-1 all equal; byte `k` of an operand is at
`lin + k` modulo the address space. R4, R18: FS and GS have their own bases in `mode64`, each segment its own in
`mode32`. -/
def Obligations.LinearAddressAndCanonicalForm : Prop :=
  (∀ (s : State) (m : MemOperand), (linearAddress s m).toNat =
    ((segBase s m.seg).toNat + (effectiveAddress s m).toNat) % 2 ^ Config.addressBits s.mode) ∧
  (∀ (s : State), s.mode = .mode64 → segBase s .fs = s.segs.fs.base ∧ segBase s .gs = s.segs.gs.base) ∧
  (∀ (s : State), s.mode = .mode32 →
    segBase s .es = s.segs.es.base ∧ segBase s .cs = s.segs.cs.base ∧ segBase s .ss = s.segs.ss.base ∧
    segBase s .ds = s.segs.ds.base ∧ segBase s .fs = s.segs.fs.base ∧ segBase s .gs = s.segs.gs.base) ∧
  (∀ (s : State) (m : MemOperand) (g h : Seg), s.mode = .mode64 → g ≠ .fs → g ≠ .gs → h ≠ .fs → h ≠ .gs →
    segBase s g = 0#64 ∧ linearAddress s { m with seg := g } = linearAddress s { m with seg := h }) ∧
  (∀ (s : State) (g : Seg) (lin : Word64) (n k : Nat), s.mode = .mode64 → k < n →
    canonical s.laWidth (byteAddress s.mode lin k) = false →
    mirrorAdmits s g lin n .read = .fault (if g = .ss then .ss0 else .gp0)) ∧
  (∀ (w : LaWidth) (a : Nat), a < 2 ^ 64 →
    (canonical w a = true ↔ ∀ j, Config.laBits w - 1 ≤ j → j < 64 → a.testBit j = a.testBit 63)) ∧
  (∀ (m : Mode) (lin : Word64) (k : Nat), byteAddress m lin k = (lin.toNat + k) % 2 ^ Config.addressBits m)

/-- R30: memory is little-endian: byte `k` of a completed read of `n` bytes is the byte at offset `k`, allocated, in
bits 8k+7:8k; a narrower read at `lin + j` sees bytes `j ..` of the wider value; a displacement's first byte is its
least significant one. -/
def Obligations.MemoryIsLittleEndian : Prop :=
  (∀ (s : State) (g : Seg) (lin : Word64) (n : Nat) (bs : List Byte), memRead s g lin n = .next bs →
    ∀ k, k < n →
      Memory.byte? s.mem (byteAddress s.mode lin k) = some ((leBytes (8 * n) bs).extractLsb' (8 * k) 8)) ∧
  (∀ (s : State) (lin : Word64) (n j l : Nat), j + l ≤ n →
    leBytes (8 * l) (bytesAt s (lin + BitVec.ofNat 64 j) l) =
      (leBytes (8 * n) (bytesAt s lin n)).extractLsb' (8 * j) (8 * l)) ∧
  (∀ b0 b1 b2 b3 : Byte, (disp32 b0 b1 b2 b3).extractLsb' 0 8 = b0 ∧ (disp32 b0 b1 b2 b3).extractLsb' 8 8 = b1 ∧
    (disp32 b0 b1 b2 b3).extractLsb' 16 8 = b2 ∧ (disp32 b0 b1 b2 b3).extractLsb' 24 8 = b3)

/-- R33, R38: a form whose memory operand completes has read 16 (32) allocated bytes, whatever imm8 selects; whether
and how it stops does not depend on imm8. A form with a register operand makes no data access: with another memory and
another `ADMITS` the outcome is the same. -/
def Obligations.WholeOperandIsReadWhateverImm8 : Prop :=
  (∀ (i : Instr) (s t : State) (m : MemOperand), i.rm = .mem m → exec i s = .next t →
    ∀ k, k < i.memBytes → (Memory.byte? s.mem (byteAddress s.mode (linearAddress s m) k)).isSome = true) ∧
  (∀ (i : Instr) (s : State) (k : Byte) (f : Fault), exec i s = .fault f ↔ exec (i.withImm k) s = .fault f) ∧
  (∀ (i : Instr) (s : State) (k : Byte) (r : Refusal), exec i s = .refused r ↔ exec (i.withImm k) s = .refused r) ∧
  (∀ (i : Instr) (s : State) (n : VReg) (m : Memory) (ar : List AdmitRule) (rs : List Region) (c : PageCause),
    i.rm = .reg n →
    exec i { s with mem := m, admitRules := ar, regions := rs, absentCause := c } =
      andThen (exec i s) fun t => .next { t with mem := m, admitRules := ar, regions := rs, absentCause := c })

/-! ### Exceptions (60_exceptions.md) -/

/-- R142, R17: in a mode in scope a form raises #UD exactly when one of its enabling conditions fails: CPUID SSE2,
CR0.EM = 0 and CR4.OSFXSR for the legacy form; CPUID AVX, CR4.OSXSAVE and XCR0[2:1] = 11b for the VEX forms. -/
def Obligations.DisabledFeatureRaisesUd : Prop :=
  ∀ (s : State), s.mode ≠ .realAddress →
    (∀ d o k, exec (.shufpd d o k) s = .fault .ud ↔
      s.cpuid.leaf1Edx.getLsbD 26 = false ∨ s.cr0.getLsbD 2 = true ∨ s.cr4.getLsbD 9 = false) ∧
    (∀ d a o k, exec (.vshufpd128 d a o k) s = .fault .ud ↔
      s.cpuid.leaf1Ecx.getLsbD 28 = false ∨ s.cr4.getLsbD 18 = false ∨ s.xcr0.extractLsb' 1 2 ≠ 0x3#2) ∧
    (∀ d a o k, exec (.vshufpd256 d a o k) s = .fault .ud ↔
      s.cpuid.leaf1Ecx.getLsbD 28 = false ∨ s.cr4.getLsbD 18 = false ∨ s.xcr0.extractLsb' 1 2 ≠ 0x3#2)

/-- R143: with CR0.TS set every form raises #NM in every mode in scope, except that #UD is raised when a condition of
R142 holds as well: a feature that is not enabled, or bytes that can be fetched and that the decoder finds to be #UD. -/
def Obligations.TaskSwitchedRaisesNm : Prop :=
  ∀ (s : State), s.mode ≠ .realAddress → s.cr0.getLsbD 3 = true →
    (∀ i, exec i s = if formEnabled s i then .fault .nm else .fault .ud) ∧
    (s.pc ≠ s.endPc → admits s .cs s.pc (fetchLength s) .fetch = .ok →
      decode s.mode s.imm8Policy (fetchBytes s) = .ud → step s = .fault .ud)

/-- R145, R32: a memory operand of the legacy form that is not 16-byte aligned raises #GP(0). That it does so whatever
`ADMITS` would answer, #SS(0) among it, is item 5 before item 6 of R148, an order the spec marks as not known and as its
own choice (D12); the model follows it by log 18, and no statement on a processor's order is made. -/
def Obligations.MisalignedLegacyOperandRaisesGp : Prop :=
  ∀ (s : State) (d : VReg) (m : MemOperand) (k : Byte), FormReady s (.shufpd d (.mem m) k) →
    (linearAddress s m).toNat % 16 ≠ 0 → exec (.shufpd d (.mem m) k) s = .fault .gp0

/-- R144, R145, R148 item 6: an operand of which some byte is not canonical (`mode64`), or lies outside its segment's
limit or in a segment that may not be read (`mode32`), raises #SS(0) through SS and #GP(0) through another segment,
before any page is looked at; the legacy form when it is aligned (log 18). The launch's own `ADMITS` is silent on the
access; LaunchAnswerDecides is the other case. -/
def Obligations.SegmentViolationRaisesSsOrGp : Prop :=
  ∀ (i : Instr) (s : State) (m : MemOperand) (k : Nat), FormReady s i → i.rm = .mem m →
    misaligned i.alignRule (linearAddress s m) = false → k < i.memBytes →
    launchAnswer s.admitRules m.seg (linearAddress s m) i.memBytes .read = none →
    (s.mode = .mode64 ∧ canonical s.laWidth (byteAddress s.mode (linearAddress s m) k) = false) ∨
    (s.mode = .mode32 ∧
      ((s.segs.get m.seg).readable = false ∨
        (s.segs.get m.seg).limit.toNat <
          segOffset (s.segs.get m.seg) (byteAddress s.mode (linearAddress s m) k))) →
    exec i s = .fault (if m.seg = .ss then .ss0 else .gp0)

/-- R146, R148 item 7, R38: when every byte passes the segment's check and the launch's own `ADMITS` is silent, the lowest
byte that is not admitted decides: a page fault with the region's cause, or with the launch's cause where nothing is
allocated, and that byte's address; a device region is refused (R34). Choices of the model: #PF with `absentCause` for a
byte that is not allocated (log 13; R38 says to refuse the launch or answer with a fault), the refusal of a device
(log 17). An operand that passes the top of the address space is refused, as D17 has the launch do (log 15). -/
def Obligations.FirstUnadmittedByteDecides : Prop :=
  ∀ (i : Instr) (s : State) (m : MemOperand), FormReady s i → i.rm = .mem m →
    misaligned i.alignRule (linearAddress s m) = false →
    launchAnswer s.admitRules m.seg (linearAddress s m) i.memBytes .read = none →
    (∀ j, j < i.memBytes → segmentAdmits s m.seg .read (byteAddress s.mode (linearAddress s m) j) = true) →
    ((linearAddress s m).toNat + i.memBytes > 2 ^ Config.addressBits s.mode → exec i s = .refused .accessWraps) ∧
    ((linearAddress s m).toNat + i.memBytes ≤ 2 ^ Config.addressBits s.mode →
      ∀ k, k < i.memBytes →
      (∀ j, j < k → byteVerdict s .read ((linearAddress s m).toNat + j) = .ok) →
      (∀ c, regionVerdict s.regions .read ((linearAddress s m).toNat + k) = .pageFault c →
        exec i s = .fault (.pf c .read (BitVec.ofNat 64 ((linearAddress s m).toNat + k)))) ∧
      (regionVerdict s.regions .read ((linearAddress s m).toNat + k) = .allow →
        Memory.byte? s.mem ((linearAddress s m).toNat + k) = none →
        exec i s = .fault (.pf s.absentCause .read (BitVec.ofNat 64 ((linearAddress s m).toNat + k)))) ∧
      (regionVerdict s.regions .read ((linearAddress s m).toNat + k) = .device →
        exec i s = .refused .deviceRegion))

/-- R38, R150: where the launch's own `ADMITS` speaks of the access of an operand that is aligned as it must be, its answer
is the outcome: the fault it names, the refusal, or completion where every byte has a value; the lowest
byte without one is a page fault there too ("never answer `ok` with invented bytes"; log 13; R148 item 7), also in an
operand that wraps, which such a line admits (R37, log 15). The refusal of a single access, `launchRefuses`, is the
model's choice (log 14, log 17): R38's `ADMITS` answers ok or a fault, and R38 and D17 have the launch refused. For a
misaligned VEX operand see log 19. -/
def Obligations.LaunchAnswerDecides : Prop :=
  ∀ (i : Instr) (s : State) (m : MemOperand), FormReady s i → i.rm = .mem m →
    misaligned i.alignRule (linearAddress s m) = false →
    (launchAnswer s.admitRules m.seg (linearAddress s m) i.memBytes .read = some .ss0 → exec i s = .fault .ss0) ∧
    (launchAnswer s.admitRules m.seg (linearAddress s m) i.memBytes .read = some .gp0 → exec i s = .fault .gp0) ∧
    (∀ c a, launchAnswer s.admitRules m.seg (linearAddress s m) i.memBytes .read = some (.pageFault c a) →
      exec i s = .fault (.pf c .read a)) ∧
    (launchAnswer s.admitRules m.seg (linearAddress s m) i.memBytes .read = some .refuse →
      exec i s = .refused .launchRefuses) ∧
    (launchAnswer s.admitRules m.seg (linearAddress s m) i.memBytes .read = some .ok →
      ((∀ j, j < i.memBytes → (Memory.byte? s.mem (byteAddress s.mode (linearAddress s m) j)).isSome = true) →
        ∃ t, exec i s = .next t) ∧
      (∀ k, k < i.memBytes →
        (∀ j, j < i.memBytes →
          byteAddress s.mode (linearAddress s m) j < byteAddress s.mode (linearAddress s m) k →
          (Memory.byte? s.mem (byteAddress s.mode (linearAddress s m) j)).isSome = true) →
        Memory.byte? s.mem (byteAddress s.mode (linearAddress s m) k) = none →
        exec i s = .fault (.pf s.absentCause .read (BitVec.ofNat 64 (byteAddress s.mode (linearAddress s m) k)))))

/-- R4, R38: `ADMITS` can be any total function of segment, address, size (the machine asks for at most 32 bytes) and kind
that the launch supplies: some data of the launch gives exactly its answers, `ok` never standing for a byte without a
value. -/
def Obligations.EveryAdmitsCanBeLaunched : Prop :=
  ∀ (s : State) (f : Seg → Word64 → Nat → AccessKind → AdmitAnswer), ∃ rules : List AdmitRule,
    ∀ (g : Seg) (lin : Word64) (n : Nat) (k : AccessKind), n ≤ 32 →
      admits { s with admitRules := rules } g lin n k = answerVerdict s lin n k (f g lin n k)

/-- R149: a register form raises only #UD and #NM; a memory form raises besides only #SS(0) through SS or where the
launch's own `ADMITS` answers it, #GP(0), and #PF for a read. -/
def Obligations.OnlyTypeFourExceptionsAreRaised : Prop :=
  ∀ (i : Instr) (s : State) (f : Fault), exec i s = .fault f →
    f = .ud ∨ f = .nm ∨
      ∃ m, i.rm = .mem m ∧
        ((f = .ss0 ∧ (m.seg = .ss ∨
          launchAnswer s.admitRules m.seg (linearAddress s m) i.memBytes .read = some .ss0)) ∨
        f = .gp0 ∨ ∃ c a, f = .pf c .read a)

/-- R146, R149: vectors and error codes; bit 1 (W/R) of a page fault's code is 0, bit 4 (I/D) is 1 exactly for a fetch,
and bits 0, 2, 3 and 5 are P, U/S, RSVD and PK of the cause; the address is carried. That the code is 32 bits wide and no
other bit is set is the model's choice (log 32). -/
def Obligations.VectorsAndErrorCodes : Prop :=
  Fault.vector .ud = 6 ∧ Fault.vector .nm = 7 ∧ Fault.vector .ss0 = 12 ∧ Fault.vector .gp0 = 13 ∧
  Fault.errorCode .ud = none ∧ Fault.errorCode .nm = none ∧ Fault.errorCode .ss0 = some 0#32 ∧
  Fault.errorCode .gp0 = some 0#32 ∧
  ∀ (c : PageCause) (k : AccessKind) (a : Word64), Fault.vector (.pf c k a) = 14 ∧ Fault.address (.pf c k a) = some a ∧
    ∃ w, Fault.errorCode (.pf c k a) = some w ∧ w.getLsbD 0 = c.present ∧ w.getLsbD 1 = false ∧
      w.getLsbD 2 = c.user ∧ w.getLsbD 3 = c.rsvd ∧ w.getLsbD 4 = (k == .fetch) ∧ w.getLsbD 5 = c.pkey ∧
      ∀ j, 6 ≤ j → w.getLsbD j = false

/-- R148 item 1, R42: a fetch that is not admitted ends the step before anything is decoded or run, as `ADMITS` answers
for the bytes the decoder needs (`fetchLength`, log 9). Where the launch's own `ADMITS` is silent and the byte at `pc`
decides, that is #GP(0) where it is not canonical (`mode64`) or outside CS or CS is not executable (`mode32`); when every
byte asked for passes that check, #PF where a region says so at `pc` or nothing is allocated there (the cause and the
fault being the choice of log 13), and a refusal where `pc` is in a device region (R34, log 17). An instruction that
passes the top of the address space is refused (R14, log 16). The address fetched is `pc` itself (log 10). -/
def Obligations.FetchFaultComesFirst : Prop :=
  ∀ (s : State), s.pc ≠ s.endPc → s.mode ≠ .realAddress →
    (∀ f, admits s .cs s.pc (fetchLength s) .fetch = .fault f → step s = .fault f) ∧
    (∀ r, admits s .cs s.pc (fetchLength s) .fetch = .refuse r → step s = .refused r) ∧
    (s.pc.toNat < 2 ^ Config.addressBits s.mode →
      launchAnswer s.admitRules .cs s.pc (fetchLength s) .fetch = none →
      (segmentAdmits s .cs .fetch s.pc.toNat = false → step s = .fault .gp0) ∧
      ((∀ j, j < fetchLength s → segmentAdmits s .cs .fetch (s.pc.toNat + j) = true) →
        (∀ c, regionVerdict s.regions .fetch s.pc.toNat = .pageFault c → step s = .fault (.pf c .fetch s.pc)) ∧
        (regionVerdict s.regions .fetch s.pc.toNat = .device → step s = .refused .deviceRegion) ∧
        (regionVerdict s.regions .fetch s.pc.toNat = .allow → Memory.byte? s.mem s.pc.toNat = none →
          step s = .fault (.pf s.absentCause .fetch s.pc)))) ∧
    (s.pc.toNat + (fetchBytes s).length = 2 ^ Config.addressBits s.mode → (fetchBytes s).length < 15 →
      decode s.mode s.imm8Policy (fetchBytes s) = .truncated →
      admits s .cs s.pc (fetchBytes s).length .fetch = .ok → step s = .refused .fetchWraps)

/-- R148 item 1, R42: an instruction whose fetch is not admitted faults (or is refused) as `ADMITS` answers, however its
bytes would decode and whatever its operands: the whole instruction stands at `pc`, or its first `k` bytes do and byte
`k` has no value. That the access asked about ends at byte `k` there is the model's choice (log 9). -/
def Obligations.InstructionCutOffByAFetchFault : Prop :=
  ∀ (s : State) (i : Instr) (st : EncodingStyle) (k n : Nat),
    s.pc ≠ s.endPc → i.wf s.mode s.imm8Policy = true →
    (∀ j, j < k → Memory.byte? s.mem (s.pc.toNat + j) = (encodeStyled s.mode st i)[j]?) →
    (k = (encodeStyled s.mode st i).length ∧ n = k) ∨
      (k < (encodeStyled s.mode st i).length ∧ n = k + 1 ∧ Memory.byte? s.mem (s.pc.toNat + k) = none) →
    s.pc.toNat + n ≤ 2 ^ Config.addressBits s.mode →
    (∀ f, admits s .cs s.pc n .fetch = .fault f → step s = .fault f) ∧
    (∀ r, admits s .cs s.pc n .fetch = .refuse r → step s = .refused r)

/-- R64, R145: bytes that make no instruction within 15 bytes raise #GP(0); no admitted encoding does so. R145 says that
the case "cannot arise from the admitted encodings" and R72 lists it among the refusals; the model reaches it only
because it looks past a repeat prefix (log 8), where R71's algorithm refuses at once. -/
def Obligations.OverlongInstructionRaisesGp : Prop :=
  (∀ (s : State), s.pc ≠ s.endPc → s.mode ≠ .realAddress → (fetchBytes s).length = 15 →
    decode s.mode s.imm8Policy (fetchBytes s) = .truncated → admits s .cs s.pc 15 .fetch = .ok →
    step s = .fault .gp0) ∧
  (∀ (m : Mode) (pol : Imm8Policy) (st : EncodingStyle) (i : Instr), i.wf m pol = true →
    (encodeStyled m st i).length ≤ 13)

/-- 00_scope.md R3 and D5: in real-address mode every step away from END and every form is refused by name. -/
def Obligations.RealAddressModeIsRefused : Prop :=
  ∀ (s : State), s.mode = .realAddress →
    (s.pc ≠ s.endPc → step s = .refused .modeOutOfScope) ∧ ∀ i, exec i s = .refused .modeOutOfScope

/-! ### The step, invariants and runs -/

/-- R107, R184, R148 item 2: when the bytes at `pc` can be fetched and do not pass the top of the address space, the step
is what they decode to, whatever TS is: exec of the instruction at the state whose `pc` is past it; the refusal by the
decoder's name; #UD. The bytes of a refusal and of #UD are those up to the one that settles it (log 9): the decoder has no
answer on any fewer of them. -/
def Obligations.StepRunsTheDecodedInstruction : Prop :=
  ∀ (s : State) (bs : List Byte), s.pc ≠ s.endPc → s.mode ≠ .realAddress →
    s.pc.toNat + bs.length ≤ 2 ^ Config.addressBits s.mode → admits s .cs s.pc bs.length .fetch = .ok →
    (∀ j, j < bs.length → Memory.byte? s.mem (s.pc.toNat + j) = bs[j]?) →
    (∀ d, decode s.mode s.imm8Policy bs = .ok d → bs.length = d.len →
      step s = exec d.instr { s with pc := nextPc s.mode s.pc d.len }) ∧
    (bs.length ≤ 15 → (∀ k, k < bs.length → decode s.mode s.imm8Policy (bs.take k) = .truncated) →
      (∀ r, decode s.mode s.imm8Policy bs = .refused r → step s = .refused (.undecodable r)) ∧
      (decode s.mode s.imm8Policy bs = .ud → step s = .fault .ud))

/-- R184 with the model's choice of log 11: at END the step fetches nothing and the state stays; away from END a step
never leaves the state as it is. -/
def Obligations.StepStaysExactlyAtEnd : Prop :=
  (∀ (s : State), s.pc = s.endPc → step s = .next s) ∧
  (∀ (s : State), s.pc ≠ s.endPc → step s ≠ .next s)

/-- R113, R14: the only effect of a completed instruction on `pc` is the sequential advance by its encoded length, 5 to
13 bytes, modulo 2^64 or 2^32. -/
def Obligations.StepAdvancesPcByTheLength : Prop :=
  ∀ (s t : State), s.pc ≠ s.endPc → step s = .next t →
    ∃ d, decode s.mode s.imm8Policy (fetchBytes s) = .ok d ∧ 5 ≤ d.len ∧ d.len ≤ 13 ∧
      t.pc.toNat = (s.pc.toNat + d.len) % 2 ^ Config.addressBits s.mode

/-- The invariant (canonical memory, a 32-bit `pc` in `mode32`: R182, R14) is kept by every step from every state that
has it. -/
def Obligations.StepKeepsTheStateWellFormed : Prop :=
  ∀ (s t : State), s.Inv → step s = .next t → t.Inv

/-- The state after reset has the invariant. Its memory is in canonical form because it is empty, the model's choice (log 4,
DESIGN CHOICE). The bound on `pc` is one of `mode32` only: reset is in real-address mode, so nothing is said of `pc`. -/
def Obligations.ResetIsWellFormed : Prop := State.reset.Inv

/-- The values of R21's orientation table and of R4's defaults after reset, and its consequence: real-address mode, both
features disabled, so that the first step is refused. Two clauses say more than the table and are the model's choice: that
memory is empty, and that bits 63:32 of what the table gives in 32 bits are 0 (log 4). The rest of reset is the model's
choice and not stated (log 4, 5, 6). -/
def Obligations.ResetLeavesTheTabledValues : Prop :=
  (∀ r, State.reset.xmmReg r = 0#128) ∧ State.reset.mxcsr = 0x1F80#32 ∧ State.reset.cr0 = 0x60000010#64 ∧
  State.reset.cr4 = 0#64 ∧ State.reset.xcr0 = 1#64 ∧ State.reset.pc = 0xFFF0#64 ∧
  State.reset.segs.cs.selector = 0xF000#16 ∧ State.reset.segs.cs.base = 0xFFFF0000#64 ∧
  State.reset.rflags = 2#64 ∧ (∀ g : GReg, g ≠ 2 → State.reset.gpr.get g = 0#64) ∧
  State.reset.imm8Policy = .ignore ∧ State.reset.laWidth = .la48 ∧ State.reset.mem = [] ∧
  State.reset.sseEnabled = false ∧ State.reset.avxEnabled = false ∧ step State.reset = .refused .modeOutOfScope

/-- R34, R22, R184: over a run of any number of steps only the vector registers and `pc` change: memory, general
registers, flags, control registers, segments and parameters are those of the launch. -/
def Obligations.RunsChangeOnlyVectorsAndPc : Prop :=
  ∀ (k : Nat) (s t : State), RunsTo k s t → SameButVectorsPc s t

/-- R113, R64: `k` steps none of which is at END move `pc` on by 5k to 13k bytes, modulo the address space. -/
def Obligations.RunsAdvanceFiveToThirteenBytesAStep : Prop :=
  ∀ (k : Nat) (s t : State), s.Inv → s.mode ≠ .realAddress → RunsTo k s t →
    (∀ j u, j < k → RunsTo j s u → u.final = false) →
    ∃ n, 5 * k ≤ n ∧ n ≤ 13 * k ∧ t.pc.toNat = (s.pc.toNat + n) % 2 ^ Config.addressBits s.mode

/-- R184: a run of a program of `k` instructions ends within `k` steps: if it has not met a fault or a refusal before, it
is final after `k` steps and not earlier. `END` lies below the top of the address space (log 34). -/
def Obligations.ProgramsEndWithinTheirInstructions : Prop :=
  ∀ (s : State) (p : List (List Byte)), s.mode ≠ .realAddress →
    s.endPc.toNat < 2 ^ Config.addressBits s.mode → ProgramAt s s.pc.toNat p →
    (∀ t, RunsTo p.length s t → t.final = true) ∧
    (∀ j t, j < p.length → RunsTo j s t → t.final = false)

/-- R184, R107: a program whose instructions can all be fetched, are enabled and have operands that pass their checks runs
to its end in as many steps as it has instructions, changing nothing but vector registers and `pc`. `END` lies below the
top of the address space (log 34); a misaligned VEX operand passes with alignment checking off (R147, log 19). -/
def Obligations.ReadyProgramsRunToTheirEnd : Prop :=
  ∀ (s : State) (p : List (List Byte)), s.mode ≠ .realAddress →
    s.endPc.toNat < 2 ^ Config.addressBits s.mode → ProgramAt s s.pc.toNat p → ReadyAt s s.pc.toNat p →
    ∃ t, RunsTo p.length s t ∧ t.final = true ∧ SameButVectorsPc s t

/-- The launch that withFetchWord stands for (log 3): from reset it meets the launch premises of R182, and the next step
runs exactly the instruction the decoder reads from the table word, at the state past its decoded length, where END
is. -/
def Obligations.LaunchedTableWordRunsNext : Prop :=
  ∀ (nbits w : Nat) (i : Instr), nbits ≤ 120 → decodeTableWord nbits w = some i →
    LaunchPremises (State.reset.withFetchWord nbits w) ∧
    ∃ d, decode .mode64 .ignore (tableBytes nbits w) = .ok d ∧ d.instr = i ∧
      ((State.reset.withFetchWord nbits w).advance d.len).final = true ∧
      step (State.reset.withFetchWord nbits w) = exec i ((State.reset.withFetchWord nbits w).advance d.len)
end

