-- ==== Sys2Proof/Laws/Decode.lean ====
section
/-! SUPPORT. The laws of the decoder's parts: each field reads back from the encoder's bytes, and each part reads its
own bytes whatever follows them. -/

namespace Sys2Proof

namespace DecodeResult

variable {α β : Type}

@[simp] theorem andThen_ok (a : α) (f : α → DecodeResult β) : (ok a).andThen f = f a := rfl
@[simp] theorem andThen_ud (f : α → DecodeResult β) : (ud : DecodeResult α).andThen f = ud := rfl
@[simp] theorem andThen_refused (r : DecodeRefusal) (f : α → DecodeResult β) :
    (refused r : DecodeResult α).andThen f = refused r := rfl
@[simp] theorem andThen_truncated (f : α → DecodeResult β) :
    (truncated : DecodeResult α).andThen f = truncated := rfl

/-- `andThen` answers a value exactly when both parts do. -/
theorem andThen_eq_ok_iff {x : DecodeResult α} {f : α → DecodeResult β} {b : β} :
    x.andThen f = ok b ↔ ∃ a, x = ok a ∧ f a = ok b := by
  cases x <;> simp

end DecodeResult

/-! ### Fields -/

@[simp] theorem regNum_hiBit_lo3 : ∀ r : Fin 16, regNum (hiBit r) (lo3 r) = r := by decide

@[simp] theorem vvvvNum_vvvvField : ∀ r : Fin 16, vvvvNum (vvvvField r) = r := by decide

@[simp] theorem scaleOf_scaleField (s : Scale) : scaleOf (scaleField s) = s := by cases s <;> rfl

theorem regNum_false_lo3 {r : Fin 16} (h : hiBit r = false) : regNum false (lo3 r) = r := by
  rw [← h, regNum_hiBit_lo3]

theorem modrm_mod : ∀ (a : BitVec 2) (b c : BitVec 3), BitVec.extractLsb' 6 2 (a ++ b ++ c : Byte) = a := by decide

theorem modrm_reg : ∀ (a : BitVec 2) (b c : BitVec 3), BitVec.extractLsb' 3 3 (a ++ b ++ c : Byte) = b := by decide

theorem modrm_rm : ∀ (a : BitVec 2) (b c : BitVec 3), BitVec.extractLsb' 0 3 (a ++ b ++ c : Byte) = c := by decide

theorem disp32_dispBytes (d : BitVec 32) :
    disp32 (d.extractLsb' 0 8) (d.extractLsb' 8 8) (d.extractLsb' 16 8) (d.extractLsb' 24 8) = d := by
  have key : ∀ i, i < 32 → (disp32 (d.extractLsb' 0 8) (d.extractLsb' 8 8) (d.extractLsb' 16 8)
      (d.extractLsb' 24 8)).getLsbD i = d.getLsbD i := by
    intro i hi
    refine (BitVec.getLsbD_append (x := (d.extractLsb' 24 8 ++ d.extractLsb' 16 8 ++ d.extractLsb' 8 8))).trans ?_
    simp only [BitVec.getLsbD_append, BitVec.getLsbD_extractLsb']
    split
    · simp [*]
    · split
      · rw [show 8 + (i - 8) = i by omega]; simp [*]
      · split
        · rw [show 16 + (i - 8 - 8) = i by omega]; simp [*]
        · rw [show 24 + (i - 8 - 8 - 8) = i by omega]; simp; omega
  exact BitVec.eq_of_getLsbD_eq key

/-! ### Displacement -/

/-- A displacement reads back from the bytes of a form that can hold it. -/
theorem parseDisp_dispEnc {n : DispSize} {d : BitVec 32} (rest : List Byte)
    (h0 : n = .d0 → d = 0#32) (h8 : n = .d8 → fitsDisp8 d = true) :
    parseDisp n (dispEnc n d ++ rest) = .ok (d, rest) := by
  cases n with
  | d0 => simp [parseDisp, dispEnc, h0 rfl]
  | d8 =>
    have := h8 rfl
    simp only [fitsDisp8, beq_iff_eq] at this
    simp [parseDisp, dispEnc, this]
  | d32 => simp [parseDisp, dispEnc, dispBytes, disp32_dispBytes]

/-- The displacement form chosen can hold the displacement. -/
theorem dispFits_dispChoice (st : EncodingStyle) (b : GReg) (d : BitVec 32) :
    dispFits (dispChoice st b d) b d = true := by
  unfold dispChoice
  repeat' split
  all_goals first
    | assumption
    | rfl

theorem dispChoice_d0 {st : EncodingStyle} {b : GReg} {d : BitVec 32} (h : dispChoice st b d = .d0) :
    d = 0#32 ∧ lo3 b ≠ 0x5#3 := by
  have := dispFits_dispChoice st b d
  rw [h] at this
  simpa [dispFits] using this

theorem dispChoice_d8 {st : EncodingStyle} {b : GReg} {d : BitVec 32} (h : dispChoice st b d = .d8) :
    fitsDisp8 d = true := by
  have := dispFits_dispChoice st b d
  rw [h] at this
  exact this

theorem modDisp_dispMod (n : DispSize) : modDisp (dispMod n) = n := by cases n <;> rfl

theorem dispMod_ne (n : DispSize) : dispMod n ≠ 0x3#2 := by cases n <;> decide

theorem dispMod_eq_zero {n : DispSize} : dispMod n = 0x0#2 ↔ n = .d0 := by cases n <;> decide

/-! ### The `r/m` operand -/

/-- The prefixes met and the prefixes an operand needs agree. -/
def Prefixes.fits (m : Mode) (p : Prefixes) : RM → Prop
  | .reg _ => True
  | .mem o => p.seg.getD (defaultSeg o.base) = o.seg ∧ asizeOf m p = o.asize

theorem sibByte_fields (o : MemOperand) (b3 : BitVec 3) :
    (sibByte o b3).extractLsb' 6 2 = scaleField o.scale ∧
    (sibByte o b3).extractLsb' 3 3 = (match o.index with | some i => lo3 i | none => 0x4#3) ∧
    (sibByte o b3).extractLsb' 0 3 = b3 :=
  ⟨modrm_mod _ _ _, modrm_reg _ _ _, modrm_rm _ _ _⟩

theorem sibIndex_sibByte {o : MemOperand} {r b : Bool} (b3 : BitVec 3) (h : o.index ≠ some 4) :
    sibIndex { r := r, x := o.index.any hiBit, b := b } (sibByte o b3) = o.index := by
  unfold sibIndex
  rw [(sibByte_fields o b3).2.1]
  match ho : o.index, h with
  | none, _ => simp; decide
  | some i, h =>
    simp only [Option.any_some, regNum_hiBit_lo3]
    rw [if_neg]
    rintro rfl
    exact h rfl

/-- An operand whose encoding has no SIB byte. -/
theorem usesSib_eq_false {m : Mode} {st : EncodingStyle} {o : MemOperand} (h : usesSib m st o = false)
    (hr : o.riprel = false) :
    o.index = none ∧ o.scale = .x1 ∧ (∀ b, o.base = some b → lo3 b ≠ 0x4#3) ∧ (o.base = none → m ≠ .mode64) := by
  obtain ⟨seg, base, index, scale, disp, riprel, asize⟩ := o
  subst hr
  cases base <;> cases index <;> simp_all [usesSib]

theorem memOperand_eta {m : Mode} {p : Prefixes} {o : MemOperand} (h : p.fits m (.mem o)) :
    memOperand m p o.base o.index o.scale o.riprel o.disp = o := by
  obtain ⟨h1, h2⟩ := h
  simp only [memOperand, h1, h2]

/-- The `r/m` operand reads back from its encoding (R57, R58). -/
theorem parseRm_encodeRm {m : Mode} {st : EncodingStyle} {p : Prefixes} {o : RM} (r : Bool) (rest : List Byte)
    (hw : o.wf m = true) (hp : p.fits m o) :
    parseRm m p (rmExt m st r o) (encodeRm m st o).1 (encodeRm m st o).2.1 ((encodeRm m st o).2.2 ++ rest) =
      .ok (o, rest) := by
  cases o with
  | reg n => simp [parseRm, encodeRm, rmExt]
  | mem o =>
    have heta := memOperand_eta hp
    simp only [RM.wf, MemOperand.wf, Bool.and_eq_true, Bool.or_eq_true, bne_iff_ne, beq_iff_eq] at hw
    obtain ⟨⟨⟨⟨hb, hi⟩, h4⟩, hr⟩, ha⟩ := hw
    by_cases hs : usesSib m st o = true
    · have hrip : o.riprel = false := by
        simp only [usesSib, Bool.and_eq_true, Bool.not_eq_true'] at hs
        exact hs.1
      rw [hrip] at heta
      cases hbase : o.base with
      | some b =>
        have hd : parseDisp (dispChoice st b o.disp) (dispEnc (dispChoice st b o.disp) o.disp ++ rest) =
            .ok (o.disp, rest) :=
          parseDisp_dispEnc rest (fun h => (dispChoice_d0 h).1) (fun h => dispChoice_d8 h)
        have hsib : sibNoBase (dispMod (dispChoice st b o.disp)) (sibByte o (lo3 b)) = false := by
          unfold sibNoBase
          rw [(sibByte_fields _ _).2.2]
          by_cases h : dispMod (dispChoice st b o.disp) = 0x0#2
          · simp [(dispChoice_d0 (dispMod_eq_zero.1 h)).2]
          · simp [h]
        simp only [encodeRm, hbase, hs, if_true, parseRm, dispMod_ne, if_false, List.cons_append, hsib, modDisp_dispMod,
          hd, DecodeResult.andThen_ok, rmExt, sibBase, (sibByte_fields _ _).2.2, (sibByte_fields _ _).1,
          scaleOf_scaleField, regNum_hiBit_lo3, Bool.false_eq_true, sibIndex_sibByte (lo3 b) h4]
        rw [← hbase, heta]
      | none =>
        have hd : parseDisp .d32 (dispBytes o.disp ++ rest) = .ok (o.disp, rest) :=
          parseDisp_dispEnc (n := .d32) rest (fun h => by cases h) (fun h => by cases h)
        have hsib : sibNoBase 0x0#2 (sibByte o 0x5#3) = true := by
          unfold sibNoBase
          rw [(sibByte_fields _ _).2.2]
          rfl
        simp only [encodeRm, hbase, hs, if_true, parseRm, show (0x0#2 = 0x3#2) = False by decide, if_false,
          List.cons_append, hsib, hd, DecodeResult.andThen_ok, rmExt, sibBase, (sibByte_fields _ _).1,
          scaleOf_scaleField, sibIndex_sibByte 0x5#3 h4]
        rw [← hbase, heta]
    · have hs : usesSib m st o = false := by simpa using hs
      cases hbase : o.base with
      | some b =>
        have hrip : o.riprel = false := by
          rcases hr with h | h
          · simpa using h
          · rw [hbase] at h
            exact absurd h.1.1.2 (by simp)
        obtain ⟨h1, h2, h3, _⟩ := usesSib_eq_false hs hrip
        have hd : parseDisp (dispChoice st b o.disp) (dispEnc (dispChoice st b o.disp) o.disp ++ rest) =
            .ok (o.disp, rest) :=
          parseDisp_dispEnc rest (fun h => (dispChoice_d0 h).1) (fun h => dispChoice_d8 h)
        have h5 : ¬(lo3 b = 0x5#3 ∧ dispMod (dispChoice st b o.disp) = 0x0#2) := by
          rintro ⟨h, h'⟩
          exact (dispChoice_d0 (dispMod_eq_zero.1 h')).2 h
        rw [hbase, h1, h2, hrip] at heta
        simp only [encodeRm, hbase, hs, if_false, parseRm, dispMod_ne, h3 b hbase, h5, modDisp_dispMod, hd,
          DecodeResult.andThen_ok, rmExt, regNum_hiBit_lo3, heta, Bool.false_eq_true]
      | none =>
        have hd : parseDisp .d32 (dispBytes o.disp ++ rest) = .ok (o.disp, rest) :=
          parseDisp_dispEnc (n := .d32) rest (fun h => by cases h) (fun h => by cases h)
        have hidx : o.index = none ∧ o.scale = .x1 ∧ o.riprel = (m == .mode64) := by
          by_cases hrip : o.riprel = true
          · rcases hr with h | h
            · simp [hrip] at h
            · exact ⟨h.1.2, h.2, by simp [hrip, h.1.1.1]⟩
          · have hrip : o.riprel = false := by simpa using hrip
            obtain ⟨h1, h2, _, h3⟩ := usesSib_eq_false hs hrip
            exact ⟨h1, h2, by simp [hrip, h3 hbase]⟩
        rw [hbase, hidx.1, hidx.2.1, hidx.2.2] at heta
        simp only [encodeRm, hbase, hs, parseRm, show (0x0#2 = 0x3#2) = False by decide, if_false,
          show (0x5#3 = 0x4#3) = False by decide, and_self, if_true, hd, DecodeResult.andThen_ok, heta,
          Bool.false_eq_true]

/-! ### Prefixes -/

@[simp] theorem legacyByte_segByte (g : Seg) : legacyByte? (segByte g) = some (.segment g) := by cases g <;> rfl

theorem legacyByte_66 : legacyByte? 0x66#8 = some .opSize := rfl

theorem legacyByte_67 : legacyByte? 0x67#8 = some .addrSize := rfl

/-- The prefixes an encoding writes, as the scan sees them. -/
def scanned (m : Mode) (st : EncodingStyle) (p66 : Bool) : RM → Prefixes
  | .reg _ => { p66 := p66, a67 := decide (m = .mode64 ∧ st.reg67 = true), seg := st.regSeg }
  | .mem o =>
    { p66 := p66, a67 := decide (m = .mode64 ∧ o.asize = .a32),
      seg := if o.seg = defaultSeg o.base ∧ !st.explicitSeg then none else some o.seg }

theorem scanned_fits {m : Mode} {st : EncodingStyle} {p66 : Bool} {o : RM} (hw : o.wf m = true) :
    (scanned m st p66 o).fits m o := by
  cases o with
  | reg r => trivial
  | mem o =>
    constructor
    · simp only [scanned]
      split
      · rename_i h
        exact h.1.symm
      · rfl
    · simp only [RM.wf, MemOperand.wf, Bool.and_eq_true, Bool.or_eq_true, beq_iff_eq] at hw
      rcases hw.2 with h | ⟨h, h'⟩
      · subst h
        cases ha : o.asize <;> simp [asizeOf, scanned, ha]
      · simp [asizeOf, h, h']

/-- The scan reads the prefixes of an encoding, in both orders, with or without the mandatory 66 (R55, R62). -/
theorem scanPrefixes_encoded {m : Mode} {st : EncodingStyle} {p66 : Bool} {o : RM} {b : Byte} (bs : List Byte)
    (hb : legacyByte? b = none) :
    scanPrefixes m Prefixes.none
      (orderPrefixes st (if p66 then [0x66#8] else []) (rmPrefixes m st o).1 (rmPrefixes m st o).2 ++ b :: bs) =
      .ok (scanned m st p66 o, b :: bs) := by
  cases o with
  | reg r =>
    by_cases h1 : m = .mode64 ∧ st.reg67 = true <;> cases hg : st.regSeg <;> cases ho : st.order <;> cases p66 <;>
      simp [orderPrefixes, rmPrefixes, scanPrefixes, scanned, Prefixes.none, legacyByte_66, legacyByte_67, ho, h1, hg,
        hb]
  | mem o =>
    by_cases h1 : m = .mode64 ∧ o.asize = .a32 <;>
    by_cases h2 : o.seg = defaultSeg o.base ∧ st.explicitSeg = false <;>
    cases ho : st.order <;> cases p66 <;>
      simp [orderPrefixes, rmPrefixes, scanPrefixes, scanned, Prefixes.none, legacyByte_66, legacyByte_67, ho, h1, h2,
        hb]

/-! ### REX, VEX and the opcode -/

theorem rexByte_fields : ∀ (w r x b : Bool),
    isRex (rexByte w ⟨r, x, b⟩) = true ∧ Ext.ofRex (rexByte w ⟨r, x, b⟩) = ⟨r, x, b⟩ ∧
      legacyByte? (rexByte w ⟨r, x, b⟩) = none := by decide

theorem vexLast_fields : ∀ (top : Bool) (a : Fin 16) (l : Bool),
    (vexLast top a l).extractLsb' 0 2 = 0x1#2 ∧ vvvvNum ((vexLast top a l).extractLsb' 3 4) = a ∧
      (vexLast top a l).getLsbD 2 = l ∧ (vexLast top a l).getLsbD 7 = top := by decide

theorem vexSecond_fields : ∀ (r x b : Bool),
    let v : Byte := BitVec.ofBool (!r) ++ BitVec.ofBool (!x) ++ BitVec.ofBool (!b) ++ 0x01#5
    v.extractLsb' 0 5 = 0x01#5 ∧ v.getLsbD 7 = !r ∧ v.getLsbD 6 = !x ∧ v.getLsbD 5 = !b ∧
      (r = false → x = false → v.extractLsb' 6 2 = 0x3#2) := by decide

theorem vexLast_follows : ∀ (a : Fin 16) (l : Bool), a.val < 8 →
    (vexLast true a l).extractLsb' 6 2 = 0x3#2 := by decide

/-- The legacy opcode reads back, with or without a REX prefix (R55, R56). -/
theorem parseOpcode_rex {m : Mode} {st : EncodingStyle} {p : Prefixes} {e : Ext} (bs : List Byte)
    (hp : p.p66 = true) (hm : m = .mode64 ∨ e = Ext.zero) :
    parseOpcode m p (rexBytes m st e ++ 0x0F#8 :: 0xC6#8 :: bs) = .ok ((.legacy, e), bs) := by
  obtain ⟨r, x, b⟩ := e
  unfold rexBytes
  split
  · rename_i h
    obtain ⟨h1, h2, _⟩ := rexByte_fields (st.wide && st.w) r x b
    simp [parseOpcode, h.1, h1, h2, parseLegacyOpcode, hp, show isVexLead 0x0F#8 = false from rfl]
  · rename_i h
    have he : (⟨r, x, b⟩ : Ext) = Ext.zero := by
      rcases hm with hm | hm
      · by_contra hne
        exact h ⟨hm, .inl hne⟩
      · exact hm
    simp [parseOpcode, show isRex 0x0F#8 = false from rfl, show isVexLead 0x0F#8 = false from rfl,
      parseLegacyOpcode, hp, he]

/-- The VEX form a length bit names. -/
def vexForm (l : Bool) (src1 : VReg) : Form := if l then .vex256 src1 else .vex128 src1

/-- The VEX prefix and opcode read back, in the two-byte and the three-byte form (R60 to R62, R65). -/
theorem parseOpcode_vex {m : Mode} {st : EncodingStyle} {p : Prefixes} {e : Ext} {src1 : VReg} (l : Bool)
    (bs : List Byte) (hp : p.p66 = false) (hm : m = .mode64 ∨ (m = .mode32 ∧ e = Ext.zero ∧ src1.val < 8)) :
    parseOpcode m p (vexBytes st e src1 l ++ 0xC6#8 :: bs) = .ok ((vexForm l src1, e), bs) := by
  obtain ⟨r, x, b⟩ := e
  have hcanon : ¬(m = .mode32 ∧ ((⟨r, x, b⟩ : Ext) ≠ Ext.zero ∨ 8 ≤ src1.val)) := by
    rintro ⟨h, h'⟩
    rcases hm with hm | ⟨_, h1, h2⟩
    · rw [hm] at h; cases h
    · rcases h' with h' | h'
      · exact h' h1
      · omega
  have hop : ∀ (top : Bool), parseVexOpcode m 0x01#5 ⟨r, x, b⟩ (vexLast top src1 l) (0xC6#8 :: bs) =
      .ok ((vexForm l src1, ⟨r, x, b⟩), bs) := by
    intro top
    obtain ⟨h1, h2, h3, _⟩ := vexLast_fields top src1 l
    simp only [parseVexOpcode, h1, h2, h3, and_self, if_true, if_neg hcanon, vexForm]
  unfold vexBytes
  split
  · rename_i h
    have hx : x = false := by simpa using h.1
    have hb : b = false := by simpa using h.2.1
    subst hx hb
    obtain ⟨_, _, _, h4⟩ := vexLast_fields (!r) src1 l
    have hf : vexFollows m (vexLast (!r) src1 l) = true := by
      rcases hm with rfl | ⟨rfl, h1, h2⟩
      · rfl
      · cases h1
        exact beq_iff_eq.2 (vexLast_follows src1 l h2)
    simp only [List.cons_append, List.nil_append, parseOpcode, show isRex 0xC5#8 = false from rfl,
      show isVexLead 0xC5#8 = true from rfl, and_false, if_false, if_true, hf, hp, h4, Bool.not_not, hop,
      Bool.false_eq_true]
  · obtain ⟨h1, h2, h3, h4, h5⟩ := vexSecond_fields r x b
    have hf : vexFollows m (BitVec.ofBool (!r) ++ BitVec.ofBool (!x) ++ BitVec.ofBool (!b) ++ 0x01#5 : Byte) = true := by
      rcases hm with rfl | ⟨rfl, he, _⟩
      · rfl
      · cases he
        rfl
    simp only [List.cons_append, List.nil_append, parseOpcode, show isRex 0xC4#8 = false from rfl,
      show isVexLead 0xC4#8 = true from rfl, and_false, if_false, if_true, hf, hp, h1, h2, h3, h4, Bool.not_not, hop,
      Bool.false_eq_true, show (0xC4#8 = 0xC5#8) = False by decide]

/-! ### The body of an instruction -/

/-- ModRM to immediate read back (R57 to R59, R54). -/
theorem parseBody_encodeBody {m : Mode} {pol : Imm8Policy} {st : EncodingStyle} {p : Prefixes} {f : Form}
    {dst : VReg} {o : RM} {imm8 : Byte} (rest : List Byte) (hw : o.wf m = true) (hp : p.fits m o)
    (hi : pol.admits (f.reservedZero imm8) = true) :
    parseBody m pol p f (rmExt m st (hiBit dst) o) (encodeBody m st dst o imm8 ++ rest) =
      .ok (formInstr f dst o imm8, rest) := by
  simp only [encodeBody, List.cons_append, List.append_assoc, parseBody, modrm_mod, modrm_reg, modrm_rm]
  rw [parseRm_encodeRm (hiBit dst) _ hw hp]
  have hr : (rmExt m st (hiBit dst) o).r = hiBit dst := by cases o <;> rfl
  simp [parseImm, hi, hr]

end Sys2Proof
end

