-- ==== Sys2Proof/Laws/Memory.lean ====
section
/-! SUPPORT. The laws of memory: read after store, the canonical form is kept, and an admitted access is allocated. -/

namespace Sys2Proof.Machine

theorem Memory.byte?_store_same (m : Memory) (a : Nat) (b : Byte) : Memory.byte? (Memory.store m a b) a = some b := by
  induction m with
  | nil => simp [Memory.store, Memory.byte?]
  | cons c t ih =>
    simp only [Memory.store]
    split
    · simp [Memory.byte?]
    · split
      · simp [Memory.byte?]
      · rename_i _ h
        simp only [Memory.byte?, ih]
        exact if_neg fun e => h e.symm

theorem Memory.byte?_store_other (m : Memory) {a k : Nat} (b : Byte) (h : k ≠ a) :
    Memory.byte? (Memory.store m a b) k = Memory.byte? m k := by
  induction m with
  | nil => simp [Memory.store, Memory.byte?, Ne.symm h]
  | cons c t ih =>
    simp only [Memory.store]
    split
    · simp [Memory.byte?, Ne.symm h]
    · split
      · rename_i _ e
        simp [Memory.byte?, Ne.symm h, ← e]
      · simp [Memory.byte?, ih]

theorem Memory.mem_store {m : Memory} {a : Nat} {b : Byte} {c : Host.Cell} (h : c ∈ Memory.store m a b) :
    c = (a, b) ∨ c ∈ m := by
  induction m with
  | nil => simpa [Memory.store] using h
  | cons d t ih =>
    simp only [Memory.store] at h
    split at h
    · simpa using h
    · split at h
      · rcases List.mem_cons.1 h with h | h
        · exact .inl h
        · exact .inr (List.mem_cons_of_mem _ h)
      · rcases List.mem_cons.1 h with h | h
        · exact .inr (by simp [h])
        · exact (ih h).imp_right (List.mem_cons_of_mem _)

/-- A store keeps the canonical form. -/
theorem Memory.store_wf {m : Memory} {a : Nat} (b : Byte) (ha : a < 2 ^ 64) (h : Memory.wf m) :
    Memory.wf (Memory.store m a b) := by
  refine ⟨?_, fun c hc => ?_⟩
  · induction m with
    | nil => simp [Memory.store]
    | cons d t ih =>
      obtain ⟨hd, ht⟩ := List.pairwise_cons.1 h.1
      have hb : ∀ c ∈ d :: t, c.1 < 2 ^ 64 := h.2
      simp only [Memory.store]
      split
      · rename_i hlt
        refine List.pairwise_cons.2 ⟨fun c hc => ?_, h.1⟩
        rcases List.mem_cons.1 hc with rfl | hc
        · exact hlt
        · exact Nat.lt_trans hlt (hd c hc)
      · split
        · rename_i _ e
          exact List.pairwise_cons.2 ⟨fun c hc => e ▸ hd c hc, ht⟩
        · rename_i h1 h2
          refine List.pairwise_cons.2 ⟨fun c hc => ?_, ih ⟨ht, fun c hc => hb c (List.mem_cons_of_mem _ hc)⟩⟩
          rcases Memory.mem_store hc with rfl | hc
          · show d.1 < a
            omega
          · exact hd c hc
  · rcases Memory.mem_store hc with rfl | hc
    · exact ha
    · exact h.2 c hc

/-- Storing bytes keeps the canonical form. -/
theorem Memory.storeBytes_wf {m : Memory} (a : Nat) (bs : List Byte) (h : Memory.wf m) :
    Memory.wf (Memory.storeBytes m a bs) := by
  induction bs generalizing m a with
  | nil => exact h
  | cons b t ih => exact ih (a + 1) (Memory.store_wf b (Nat.mod_lt _ (by decide)) h)

/-- Reading back stored bytes, where they do not wrap. -/
theorem Memory.byte?_storeBytes (m : Memory) (a : Nat) (bs : List Byte) (h : a + bs.length ≤ 2 ^ 64) (k : Nat) :
    Memory.byte? (Memory.storeBytes m a bs) k =
      if a ≤ k ∧ k < a + bs.length then bs[k - a]? else Memory.byte? m k := by
  induction bs generalizing m a with
  | nil =>
    rw [if_neg (by simp)]
    rfl
  | cons b t ih =>
    simp only [List.length_cons] at h ⊢
    have ha : a % 2 ^ 64 = a := Nat.mod_eq_of_lt (by omega)
    rw [Memory.storeBytes, ha, ih _ _ (by omega)]
    by_cases h1 : a + 1 ≤ k ∧ k < a + 1 + t.length
    · rw [if_pos h1, if_pos (by omega), show k - a = (k - (a + 1)) + 1 by omega, List.getElem?_cons_succ]
    · rw [if_neg h1]
      by_cases h2 : k = a
      · subst h2
        rw [if_pos (by omega), Memory.byte?_store_same, Nat.sub_self]
        rfl
      · rw [if_neg (by omega), Memory.byte?_store_other _ _ h2]

theorem Memory.reset_wf : Memory.wf State.reset.mem := ⟨List.Pairwise.nil, by simp [State.reset]⟩

/-- Launching and placing an instruction keep the canonical form. -/
theorem State.placeInstr_launched_wf {s : State} (bs : List Byte) (h : Memory.wf s.mem) :
    Memory.wf (s.launched.placeInstr bs).mem := by
  have hl : Memory.wf s.launched.mem := by
    by_cases hm : s.mode = .realAddress
    · rw [State.launched, if_pos hm]
      generalize launchData = data
      exact Memory.storeBytes_wf 0 data h
    · rw [State.launched, if_neg hm]
      exact h
  exact Memory.storeBytes_wf s.launched.pc.toNat bs hl

/-! ### What `ADMITS` says of memory -/

theorem allocated_ok_iff {s : State} {k : AccessKind} {a : Nat} :
    allocated s k a = .ok ↔ (Memory.byte? s.mem a).isSome = true := by
  unfold allocated
  split <;> simp_all

theorem byteVerdict_ok_allocated {s : State} {k : AccessKind} {a : Nat} (h : byteVerdict s k a = .ok) :
    (Memory.byte? s.mem a).isSome = true := by
  unfold byteVerdict at h
  split at h
  · cases h
  · cases h
  · exact allocated_ok_iff.1 h

theorem firstVerdict_ok_iff {f : Nat → Verdict} {as : List Nat} :
    firstVerdict f as = .ok ↔ ∀ a ∈ as, f a = .ok := by
  induction as with
  | nil => simp [firstVerdict]
  | cons a t ih =>
    simp only [firstVerdict, List.mem_cons, forall_eq_or_imp]
    split <;> simp_all

/-- The first byte that is not admitted decides. -/
theorem firstVerdict_first {f : Nat → Verdict} {as bs : List Nat} {a : Nat} (h : ∀ b ∈ as, f b = .ok)
    (ha : f a ≠ .ok) : firstVerdict f (as ++ a :: bs) = f a := by
  induction as with
  | nil =>
    simp only [List.nil_append, firstVerdict]
    split <;> simp_all
  | cons b t ih =>
    simp only [List.cons_append, firstVerdict, h b (by simp)]
    exact ih fun c hc => h c (by simp [hc])

/-- Of rising addresses the lowest that is not admitted decides. -/
theorem firstVerdict_rising {f : Nat → Verdict} {as : List Nat} {a : Nat} (hs : as.Pairwise (· < ·)) (ha : a ∈ as)
    (h : ∀ b ∈ as, b < a → f b = .ok) (hf : f a ≠ .ok) : firstVerdict f as = f a := by
  obtain ⟨l, r, rfl⟩ := List.append_of_mem ha
  refine firstVerdict_first (fun b hb => h b (by simp [hb]) ?_) hf
  exact (List.pairwise_append.1 hs).2.2 b hb a (by simp)

theorem mem_risingBytes {m : Mode} {lin : Word64} {n a : Nat} :
    a ∈ risingBytes m lin n ↔ a ∈ accessBytes m lin n := by
  simp only [risingBytes, List.mem_append, List.mem_filter, decide_eq_true_eq, ← and_or_left, and_iff_left_iff_imp]
  intro _
  omega

theorem mem_accessBytes {m : Mode} {lin : Word64} {n a : Nat} :
    a ∈ accessBytes m lin n ↔ ∃ k, k < n ∧ byteAddress m lin k = a := by
  simp [accessBytes]

/-- Where an access is not longer than the address space, its addresses are in rising order. -/
theorem risingBytes_rising {m : Mode} {lin : Word64} {n : Nat} (hn : n ≤ 2 ^ Config.addressBits m) :
    (risingBytes m lin n).Pairwise (· < ·) := by
  have hM : 0 < 2 ^ Config.addressBits m := Nat.two_pow_pos _
  have addr : ∀ k, k < n → byteAddress m lin k =
      if byteAddress m lin 0 + k < 2 ^ Config.addressBits m then byteAddress m lin 0 + k
      else byteAddress m lin 0 + k - 2 ^ Config.addressBits m := by
    intro k hk
    have h0 : byteAddress m lin 0 < 2 ^ Config.addressBits m := Nat.mod_lt _ hM
    have : byteAddress m lin k = (byteAddress m lin 0 + k) % 2 ^ Config.addressBits m := by
      simp [byteAddress, Nat.mod_add_mod]
    rw [this]
    split
    · exact Nat.mod_eq_of_lt ‹_›
    · rw [Nat.mod_eq_sub_mod (by omega), Nat.mod_eq_of_lt (by omega)]
  have part : ∀ p : Nat → Bool, (∀ i j, i < j → j < n → p (byteAddress m lin i) → p (byteAddress m lin j) →
      byteAddress m lin i < byteAddress m lin j) → ((accessBytes m lin n).filter p).Pairwise (· < ·) := by
    intro p hp
    rw [List.pairwise_filter, accessBytes, List.pairwise_map]
    exact List.pairwise_lt_range.imp_of_mem fun {i j} _ hj hij hi hj' => hp i j hij (List.mem_range.1 hj) hi hj'
  refine List.pairwise_append.2 ⟨part _ ?_, part _ ?_, ?_⟩
  · intro i j hij hj hi hj'
    have h1 := addr i (by omega)
    have h2 := addr j hj
    simp only [decide_eq_true_eq] at hi hj'
    split at h1 <;> split at h2 <;> omega
  · intro i j hij hj hi hj'
    have h1 := addr i (by omega)
    have h2 := addr j hj
    simp only [decide_eq_true_eq] at hi hj'
    split at h1 <;> split at h2 <;> omega
  · intro a ha b hb
    have h1 := (List.mem_filter.1 ha).2
    have h2 := (List.mem_filter.1 hb).2
    simp only [decide_eq_true_eq] at h1 h2
    omega

theorem lowestVerdict_ok_iff {s : State} {f : Nat → Verdict} {lin : Word64} {n : Nat} :
    lowestVerdict s f lin n = .ok ↔ ∀ a ∈ accessBytes s.mode lin n, f a = .ok := by
  simp [lowestVerdict, firstVerdict_ok_iff, mem_risingBytes]

/-- The lowest byte that is not admitted decides (R148 item 7). -/
theorem lowestVerdict_lowest {s : State} {f : Nat → Verdict} {lin : Word64} {n k : Nat}
    (hn : n ≤ 2 ^ Config.addressBits s.mode) (hk : k < n)
    (h : ∀ j, j < n → byteAddress s.mode lin j < byteAddress s.mode lin k → f (byteAddress s.mode lin j) = .ok)
    (hf : f (byteAddress s.mode lin k) ≠ .ok) : lowestVerdict s f lin n = f (byteAddress s.mode lin k) := by
  refine firstVerdict_rising (risingBytes_rising hn) (mem_risingBytes.2 (mem_accessBytes.2 ⟨k, hk, rfl⟩)) ?_ hf
  intro b hb hlt
  obtain ⟨j, hj, rfl⟩ := mem_accessBytes.1 (mem_risingBytes.1 hb)
  exact h j hj hlt

theorem admits_of_answer {s : State} {g : Seg} {lin : Word64} {n : Nat} {k : AccessKind} {a : AdmitAnswer}
    (h : launchAnswer s.admitRules g lin n k = some a) : admits s g lin n k = answerVerdict s lin n k a := by
  simp [admits, h]

theorem admits_of_no_answer {s : State} {g : Seg} {lin : Word64} {n : Nat} {k : AccessKind}
    (h : launchAnswer s.admitRules g lin n k = none) : admits s g lin n k = mirrorAdmits s g lin n k := by
  simp [admits, h]

theorem answerVerdict_ok_iff {s : State} {lin : Word64} {n : Nat} {k : AccessKind} {x : AdmitAnswer} :
    answerVerdict s lin n k x = .ok ↔
      x = .ok ∧ ∀ a ∈ accessBytes s.mode lin n, (Memory.byte? s.mem a).isSome = true := by
  cases x <;> simp [answerVerdict, lowestVerdict_ok_iff, allocated_ok_iff]

theorem mirrorAdmits_ok_iff {s : State} {g : Seg} {lin : Word64} {n : Nat} {k : AccessKind} :
    mirrorAdmits s g lin n k = .ok ↔ accessWraps s.mode lin n = false ∧
      ∀ a ∈ accessBytes s.mode lin n, segmentAdmits s g k a = true ∧ byteVerdict s k a = .ok := by
  unfold mirrorAdmits
  split
  · rename_i h
    rw [List.all_eq_true] at h
    split
    · simp_all
    · rename_i hw
      rw [lowestVerdict_ok_iff]
      exact ⟨fun h' => ⟨by simpa using hw, fun a ha => ⟨h a ha, h' a ha⟩⟩, fun h' a ha => (h'.2 a ha).2⟩
  · rename_i h
    simp only [reduceCtorEq, false_iff]
    intro h'
    exact h (List.all_eq_true.2 fun a ha => (h'.2 a ha).1)

/-- An access that `ADMITS` answers `ok` to touches allocated bytes only: no byte of a read is invented (R38). -/
theorem admits_ok_allocated {s : State} {g : Seg} {lin : Word64} {n : Nat} {k : AccessKind}
    (h : admits s g lin n k = .ok) {a : Nat} (ha : a ∈ accessBytes s.mode lin n) :
    (Memory.byte? s.mem a).isSome = true := by
  cases hx : launchAnswer s.admitRules g lin n k with
  | some x =>
    rw [admits_of_answer hx] at h
    exact (answerVerdict_ok_iff.1 h).2 a ha
  | none =>
    rw [admits_of_no_answer hx] at h
    exact byteVerdict_ok_allocated ((mirrorAdmits_ok_iff.1 h).2 a ha).2

@[simp] theorem bytesAt_length (s : State) (lin : Word64) (n : Nat) : (bytesAt s lin n).length = n := by
  simp [bytesAt, accessBytes]

end Sys2Proof.Machine
end

