-- ==== Sys2Proof/Laws/Outcome.lean ====
section
/-! SUPPORT. The laws of `andThen`, `raise` and the enabling checks. -/

namespace Sys2Proof.Machine

variable {α β : Type}

@[simp] theorem andThen_next (a : α) (f : α → Result β) : andThen (.next a) f = f a := rfl
@[simp] theorem andThen_fault (r : Fault) (f : α → Result β) : andThen (.fault r) f = .fault r := rfl
@[simp] theorem andThen_refused (r : Refusal) (f : α → Result β) : andThen (.refused r) f = .refused r := rfl
@[simp] theorem raise_eq (r : Fault) : (raise r : Result α) = .fault r := rfl

/-- `andThen` answers a next value exactly when both parts do. -/
theorem andThen_eq_next_iff {x : Result α} {f : α → Result β} {b : β} :
    andThen x f = .next b ↔ ∃ a, x = .next a ∧ f a = .next b := by
  cases x <;> simp

/-- `andThen` faults when the first part does, or when the second does after it. -/
theorem andThen_eq_fault_iff {x : Result α} {f : α → Result β} {r : Fault} :
    andThen x f = .fault r ↔ x = .fault r ∨ ∃ a, x = .next a ∧ f a = .fault r := by
  cases x <;> simp

theorem andThen_eq_refused_iff {x : Result α} {f : α → Result β} {r : Refusal} :
    andThen x f = .refused r ↔ x = .refused r ∨ ∃ a, x = .next a ∧ f a = .refused r := by
  cases x <;> simp

/-- The enabling checks pass exactly when the mode is in scope, the feature is enabled and TS is clear. -/
theorem checkEnabled_eq_next_iff {e : Bool} {s : State} {u : Unit} :
    checkEnabled e s = .next u ↔ s.mode ≠ .realAddress ∧ e = true ∧ s.ts = false := by
  unfold checkEnabled
  cases u
  split <;> rename_i h
  · simp [h]
  · cases e <;> cases s.ts <;> simp [h]

/-- The enabling checks raise #UD, or #NM when the feature is enabled (60_exceptions.md R148). -/
theorem checkEnabled_eq_fault_iff {e : Bool} {s : State} {f : Fault} :
    checkEnabled e s = .fault f ↔
      s.mode ≠ .realAddress ∧ ((e = false ∧ f = .ud) ∨ (e = true ∧ s.ts = true ∧ f = .nm)) := by
  unfold checkEnabled
  split <;> rename_i h
  · simp [h]
  · cases e <;> cases s.ts <;> simp [h, eq_comm]

theorem checkEnabled_eq_refused_iff {e : Bool} {s : State} {r : Refusal} :
    checkEnabled e s = .refused r ↔ s.mode = .realAddress ∧ r = .modeOutOfScope := by
  unfold checkEnabled
  split <;> rename_i h
  · simp [h, eq_comm]
  · cases e <;> cases s.ts <;> simp [h]

end Sys2Proof.Machine
end

