-- ==== Sys2Proof/Laws/Operands.lean ====
section
/-! SUPPORT. What reading an operand can answer, and what it depends on. -/

namespace Sys2Proof.Machine

/-- A memory read answers bytes exactly when `ADMITS` says ok, and then those of the access. -/
theorem memRead_eq_next_iff {s : State} {g : Seg} {lin : Word64} {n : Nat} {bs : List Byte} :
    memRead s g lin n = .next bs ↔ admits s g lin n .read = .ok ∧ bs = bytesAt s lin n := by
  unfold memRead
  split <;> simp_all [eq_comm]

/-- Reading a memory operand answers bytes exactly when it is aligned as the form asks and admitted. -/
theorem readMem_eq_next_iff {al : AlignRule} {n : Nat} {m : MemOperand} {s : State} {bs : List Byte} :
    readMem al n m s = .next bs ↔
      misaligned al (linearAddress s m) = false ∧ admits s m.seg (linearAddress s m) n .read = .ok ∧
        bs = bytesAt s (linearAddress s m) n := by
  unfold readMem
  split <;> rename_i h
  · simp [h]
  · simp [h, memRead_eq_next_iff]

@[simp] theorem source128_reg (al : AlignRule) (r : VReg) (s : State) : source128 al (.reg r) s = .next (s.xmmReg r) :=
  rfl

@[simp] theorem source256_reg (r : VReg) (s : State) : source256 (.reg r) s = .next (s.ymmReg r) := rfl

/-- An admitted, suitably aligned memory operand gives its 16 bytes. -/
theorem source128_mem {al : AlignRule} {m : MemOperand} {s : State}
    (ha : misaligned al (linearAddress s m) = false)
    (hm : admits s m.seg (linearAddress s m) 16 .read = .ok) :
    source128 al (.mem m) s = .next (leBytes 128 (bytesAt s (linearAddress s m) 16)) := by
  show andThen (readMem al 16 m s) _ = _
  rw [readMem_eq_next_iff.2 ⟨ha, hm, rfl⟩]
  rfl

/-- An admitted memory operand of the 256-bit form gives its 32 bytes. -/
theorem source256_mem {m : MemOperand} {s : State} (hm : admits s m.seg (linearAddress s m) 32 .read = .ok) :
    source256 (.mem m) s = .next (leBytes 256 (bytesAt s (linearAddress s m) 32)) := by
  show andThen (readMem .anyAddress 32 m s) _ = _
  rw [readMem_eq_next_iff.2 ⟨rfl, hm, rfl⟩]
  rfl

/-- The 128-bit second source is there exactly when it is a register, or memory that is aligned and admitted. -/
theorem source128_eq_next_iff {al : AlignRule} {o : RM} {s : State} {b : Xmm} :
    source128 al o s = .next b ↔
      (∃ r, o = .reg r ∧ b = s.xmmReg r) ∨
      (∃ m, o = .mem m ∧ misaligned al (linearAddress s m) = false ∧
        admits s m.seg (linearAddress s m) 16 .read = .ok ∧
        b = leBytes 128 (bytesAt s (linearAddress s m) 16)) := by
  cases o with
  | reg r =>
    constructor
    · intro h
      exact .inl ⟨r, rfl, (Host.Outcome.next.inj h).symm⟩
    · rintro (⟨_, h, rfl⟩ | ⟨_, h, _⟩)
      · cases h
        rfl
      · cases h
  | mem m =>
    constructor
    · intro h
      obtain ⟨bs, h', h3⟩ := andThen_eq_next_iff.1 h
      obtain ⟨h1, h2, rfl⟩ := readMem_eq_next_iff.1 h'
      exact .inr ⟨m, rfl, h1, h2, (Host.Outcome.next.inj h3).symm⟩
    · rintro (⟨r, h, _⟩ | ⟨m', h, h1, h2, rfl⟩)
      · cases h
      · cases h
        exact source128_mem h1 h2

/-- The 256-bit second source is there exactly when it is a register or admitted memory. -/
theorem source256_eq_next_iff {o : RM} {s : State} {b : Ymm} :
    source256 o s = .next b ↔
      (∃ r, o = .reg r ∧ b = s.ymmReg r) ∨
      (∃ m, o = .mem m ∧ admits s m.seg (linearAddress s m) 32 .read = .ok ∧
        b = leBytes 256 (bytesAt s (linearAddress s m) 32)) := by
  cases o with
  | reg r =>
    constructor
    · intro h
      exact .inl ⟨r, rfl, (Host.Outcome.next.inj h).symm⟩
    · rintro (⟨_, h, rfl⟩ | ⟨_, h, _⟩)
      · cases h
        rfl
      · cases h
  | mem m =>
    constructor
    · intro h
      obtain ⟨bs, h', h3⟩ := andThen_eq_next_iff.1 h
      obtain ⟨_, h2, rfl⟩ := readMem_eq_next_iff.1 h'
      exact .inr ⟨m, rfl, h2, (Host.Outcome.next.inj h3).symm⟩
    · rintro (⟨r, h, _⟩ | ⟨m', h, h2, rfl⟩)
      · cases h
      · cases h
        exact source256_mem h2

/-! ### Operands do not look at the vector registers -/

variable (s : State) (v : Vector Ymm 16)

theorem linearAddress_ymm (m : MemOperand) : linearAddress { s with ymm := v } m = linearAddress s m := rfl

theorem admits_ymm (g : Seg) (lin : Word64) (n : Nat) (k : AccessKind) :
    admits { s with ymm := v } g lin n k = admits s g lin n k := rfl

theorem memRead_ymm (g : Seg) (lin : Word64) (n : Nat) : memRead { s with ymm := v } g lin n = memRead s g lin n := by
  simp only [memRead, admits_ymm]
  rfl

theorem readMem_ymm (al : AlignRule) (n : Nat) (m : MemOperand) :
    readMem al n m { s with ymm := v } = readMem al n m s := by
  simp only [readMem, memRead_ymm, linearAddress_ymm]

theorem checkEnabled_ymm (e : Bool) : checkEnabled e { s with ymm := v } = checkEnabled e s := rfl

end Sys2Proof.Machine
end

