-- ==== Sys2Proof/Laws/State.lean ====
section
/-! SUPPORT. One lemma per field per update of State, and the register file's read-after-write laws. -/

namespace Sys2Proof.Machine

variable (s : State) (i j : VReg) (v : Ymm) (x : Xmm) (n : Nat)

@[simp] theorem State.writeYmm_gpr : (s.writeYmm i v).gpr = s.gpr := rfl
@[simp] theorem State.writeYmm_pc : (s.writeYmm i v).pc = s.pc := rfl
@[simp] theorem State.writeYmm_rflags : (s.writeYmm i v).rflags = s.rflags := rfl
@[simp] theorem State.writeYmm_mxcsr : (s.writeYmm i v).mxcsr = s.mxcsr := rfl
@[simp] theorem State.writeYmm_cr0 : (s.writeYmm i v).cr0 = s.cr0 := rfl
@[simp] theorem State.writeYmm_cr2 : (s.writeYmm i v).cr2 = s.cr2 := rfl
@[simp] theorem State.writeYmm_cr4 : (s.writeYmm i v).cr4 = s.cr4 := rfl
@[simp] theorem State.writeYmm_xcr0 : (s.writeYmm i v).xcr0 = s.xcr0 := rfl
@[simp] theorem State.writeYmm_cpuid : (s.writeYmm i v).cpuid = s.cpuid := rfl
@[simp] theorem State.writeYmm_segs : (s.writeYmm i v).segs = s.segs := rfl
@[simp] theorem State.writeYmm_mode : (s.writeYmm i v).mode = s.mode := rfl
@[simp] theorem State.writeYmm_laWidth : (s.writeYmm i v).laWidth = s.laWidth := rfl
@[simp] theorem State.writeYmm_imm8Policy : (s.writeYmm i v).imm8Policy = s.imm8Policy := rfl
@[simp] theorem State.writeYmm_endPc : (s.writeYmm i v).endPc = s.endPc := rfl
@[simp] theorem State.writeYmm_admitRules : (s.writeYmm i v).admitRules = s.admitRules := rfl
@[simp] theorem State.writeYmm_regions : (s.writeYmm i v).regions = s.regions := rfl
@[simp] theorem State.writeYmm_absentCause : (s.writeYmm i v).absentCause = s.absentCause := rfl
@[simp] theorem State.writeYmm_mem : (s.writeYmm i v).mem = s.mem := rfl

@[simp] theorem State.advance_ymm : (s.advance n).ymm = s.ymm := rfl
@[simp] theorem State.advance_gpr : (s.advance n).gpr = s.gpr := rfl
@[simp] theorem State.advance_pc : (s.advance n).pc = nextPc s.mode s.pc n := rfl
@[simp] theorem State.advance_rflags : (s.advance n).rflags = s.rflags := rfl
@[simp] theorem State.advance_mxcsr : (s.advance n).mxcsr = s.mxcsr := rfl
@[simp] theorem State.advance_cr0 : (s.advance n).cr0 = s.cr0 := rfl
@[simp] theorem State.advance_cr2 : (s.advance n).cr2 = s.cr2 := rfl
@[simp] theorem State.advance_cr4 : (s.advance n).cr4 = s.cr4 := rfl
@[simp] theorem State.advance_xcr0 : (s.advance n).xcr0 = s.xcr0 := rfl
@[simp] theorem State.advance_cpuid : (s.advance n).cpuid = s.cpuid := rfl
@[simp] theorem State.advance_segs : (s.advance n).segs = s.segs := rfl
@[simp] theorem State.advance_mode : (s.advance n).mode = s.mode := rfl
@[simp] theorem State.advance_laWidth : (s.advance n).laWidth = s.laWidth := rfl
@[simp] theorem State.advance_imm8Policy : (s.advance n).imm8Policy = s.imm8Policy := rfl
@[simp] theorem State.advance_endPc : (s.advance n).endPc = s.endPc := rfl
@[simp] theorem State.advance_admitRules : (s.advance n).admitRules = s.admitRules := rfl
@[simp] theorem State.advance_regions : (s.advance n).regions = s.regions := rfl
@[simp] theorem State.advance_absentCause : (s.advance n).absentCause = s.absentCause := rfl
@[simp] theorem State.advance_mem : (s.advance n).mem = s.mem := rfl

/-! ### Lanes of a concatenation (00_scope.md R5) -/

variable (hi lo : Xmm) (h l : BitVec 64)

@[simp] theorem lowLane_append : lowLane (hi ++ lo) = lo := by
  exact BitVec.extractLsb'_append_eq_right

@[simp] theorem highLane_append : highLane (hi ++ lo) = hi := by
  exact BitVec.extractLsb'_append_eq_left

theorem highLane_append_lowLane : (highLane v ++ lowLane v : Ymm) = v := by
  ext k hk
  simp only [highLane, lowLane, BitVec.getElem_append, BitVec.getElem_extractLsb']
  split
  · rename_i h'
    rw [Nat.zero_add, BitVec.getLsbD_eq_getElem (by omega)]
  · rename_i h'
    rw [show 128 + (k - 128) = k by omega, BitVec.getLsbD_eq_getElem (by omega)]

@[simp] theorem sel64_append_false : sel64 (h ++ l) false = l := by
  exact BitVec.extractLsb'_append_eq_right

@[simp] theorem sel64_append_true : sel64 (h ++ l) true = h := by
  exact BitVec.extractLsb'_append_eq_left

/-- Four quadwords are two lanes of two. -/
theorem quadwords_eq_lanes (a b c d : BitVec 64) :
    (a ++ b ++ c ++ d : BitVec 256) = ((a ++ b : BitVec 128) ++ (c ++ d : BitVec 128) : BitVec 256) := by
  simpa using BitVec.append_assoc (x₁ := (a ++ b)) (x₂ := c) (x₃ := d)

/-! ### Read after write of the register file (R6, R11) -/

@[simp] theorem State.ymmReg_writeYmm_same : (s.writeYmm i v).ymmReg i = v := by
  simp [State.ymmReg, State.writeYmm, Vector.get_eq_getElem]

theorem State.ymmReg_writeYmm_other (hne : j ≠ i) : (s.writeYmm i v).ymmReg j = s.ymmReg j := by
  simp only [State.ymmReg, State.writeYmm, Vector.get_eq_getElem]
  exact Vector.getElem_set_ne i.isLt j.isLt (fun e => hne (Fin.ext e.symm))

@[simp] theorem State.ymmReg_advance : (s.advance n).ymmReg i = s.ymmReg i := rfl

@[simp] theorem State.xmmReg_advance : (s.advance n).xmmReg i = s.xmmReg i := rfl

@[simp] theorem State.ymmReg_writeXmm_same : (s.writeXmm i x).ymmReg i = highLane (s.ymmReg i) ++ x := by
  simp [State.writeXmm]

theorem State.ymmReg_writeXmm_other (hne : j ≠ i) : (s.writeXmm i x).ymmReg j = s.ymmReg j := by
  simp [State.writeXmm, State.ymmReg_writeYmm_other _ _ _ _ hne]

@[simp] theorem State.ymmReg_writeXmmZero_same : (s.writeXmmZero i x).ymmReg i = 0#128 ++ x := by
  simp [State.writeXmmZero]

theorem State.ymmReg_writeXmmZero_other (hne : j ≠ i) : (s.writeXmmZero i x).ymmReg j = s.ymmReg j := by
  simp [State.writeXmmZero, State.ymmReg_writeYmm_other _ _ _ _ hne]

/-- A write of a vector register changes the register file and nothing else. -/
theorem State.writeYmm_only_ymm : s.writeYmm i v = { s with ymm := (s.writeYmm i v).ymm } := rfl

/-- Writing back what a register holds changes nothing. -/
theorem State.writeYmm_ymmReg : s.writeYmm i (s.ymmReg i) = s := by
  have : s.ymm.set i (s.ymm.get i) = s.ymm := by simp [Vector.get_eq_getElem]
  simp [State.writeYmm, State.ymmReg, this]

/-- Of two writes to one register the last stands. -/
theorem State.writeYmm_writeYmm (w : Ymm) : (s.writeYmm i v).writeYmm i w = s.writeYmm i w := by
  simp [State.writeYmm]

end Sys2Proof.Machine
end

