-- ==== Sys2Proof/Laws/Exec.lean ====
section
/-! SUPPORT. What exec can answer, once for each instruction, and the inversion lemma every frame follows from. -/

namespace Sys2Proof.Machine

/-- R102, where the form is ready and its second source is there. -/
theorem execShufpd_eq {dst : VReg} {src : RM} {imm8 : Byte} {s : State} {b : Xmm}
    (hr : FormReady s (.shufpd dst src imm8)) (hb : source128 .aligned16 src s = .next b) :
    execShufpd dst src imm8 s =
      .next (s.writeXmm dst (shuf128 (s.xmmReg dst) b (imm8.getLsbD 0) (imm8.getLsbD 1))) := by
  unfold execShufpd
  rw [show checkEnabled s.sseEnabled s = .next () from checkEnabled_eq_next_iff.2 hr, andThen_next, hb, andThen_next]

/-- R103, where the form is ready and its second source is there. -/
theorem execVshufpd128_eq {dst src1 : VReg} {src2 : RM} {imm8 : Byte} {s : State} {b : Xmm}
    (hr : FormReady s (.vshufpd128 dst src1 src2 imm8)) (hb : source128 .anyAddress src2 s = .next b) :
    execVshufpd128 dst src1 src2 imm8 s =
      .next (s.writeXmmZero dst (shuf128 (s.xmmReg src1) b (imm8.getLsbD 0) (imm8.getLsbD 1))) := by
  unfold execVshufpd128
  rw [show checkEnabled s.avxEnabled s = .next () from checkEnabled_eq_next_iff.2 hr, andThen_next, hb, andThen_next]

/-- R104, where the form is ready and its second source is there. -/
theorem execVshufpd256_eq {dst src1 : VReg} {src2 : RM} {imm8 : Byte} {s : State} {b : Ymm}
    (hr : FormReady s (.vshufpd256 dst src1 src2 imm8)) (hb : source256 src2 s = .next b) :
    execVshufpd256 dst src1 src2 imm8 s =
      .next (s.writeYmm dst (shuf256 (s.ymmReg src1) b (imm8.getLsbD 0) (imm8.getLsbD 1) (imm8.getLsbD 2)
        (imm8.getLsbD 3))) := by
  unfold execVshufpd256
  rw [show checkEnabled s.avxEnabled s = .next () from checkEnabled_eq_next_iff.2 hr, andThen_next, hb, andThen_next]

/-- All that exec does when it answers a next state: the form was ready and one value was written to the destination,
a value that keeps the high lane in the legacy form and zeroes it in the VEX.128 form. -/
theorem exec_next_cases {i : Instr} {s t : State} (h : exec i s = .next t) :
    FormReady s i ∧ ∃ v, t = s.writeYmm i.dst v ∧
      ((∃ d o k, i = .shufpd d o k) → highLane v = highLane (s.ymmReg i.dst)) ∧
      ((∃ d a o k, i = .vshufpd128 d a o k) → highLane v = 0#128) := by
  cases i with
  | shufpd d o k =>
    obtain ⟨u, h1, h⟩ := andThen_eq_next_iff.1 (show execShufpd d o k s = _ from h)
    obtain ⟨b, _, h⟩ := andThen_eq_next_iff.1 h
    cases h
    refine ⟨checkEnabled_eq_next_iff.1 h1, _, rfl, fun _ => by simp [Instr.dst], ?_⟩
    rintro ⟨_, _, _, _, h⟩; cases h
  | vshufpd128 d a o k =>
    obtain ⟨u, h1, h⟩ := andThen_eq_next_iff.1 (show execVshufpd128 d a o k s = _ from h)
    obtain ⟨b, _, h⟩ := andThen_eq_next_iff.1 h
    cases h
    refine ⟨checkEnabled_eq_next_iff.1 h1, _, rfl, ?_, fun _ => by simp⟩
    rintro ⟨_, _, _, h⟩; cases h
  | vshufpd256 d a o k =>
    obtain ⟨u, h1, h⟩ := andThen_eq_next_iff.1 (show execVshufpd256 d a o k s = _ from h)
    obtain ⟨b, _, h⟩ := andThen_eq_next_iff.1 h
    cases h
    refine ⟨checkEnabled_eq_next_iff.1 h1, _, rfl, ?_, ?_⟩
    · rintro ⟨_, _, _, h⟩; cases h
    · rintro ⟨_, _, _, _, h⟩; cases h

end Sys2Proof.Machine
end

