-- ==== Sys2Proof/Laws/PerInstr.lean ====
section
/-! SUPPORT. Two facts about every instruction as syntax, one lemma per constructor. -/

namespace Sys2Proof.Laws

namespace RefuseIsStricter

/-- An instruction that is well-formed under the policy `refuse` is so under `ignore` (30_encoding.md R73). -/
def Statement (i : Instr) : Prop := ∀ m, i.wf m .refuse = true → i.wf m .ignore = true

theorem shufpd (dst : VReg) (src : RM) (imm8 : Byte) : Statement (.shufpd dst src imm8) := by
  intro m h
  simp only [Instr.wf, Bool.and_eq_true] at h ⊢
  exact ⟨h.1, rfl⟩

theorem vshufpd128 (dst src1 : VReg) (src2 : RM) (imm8 : Byte) : Statement (.vshufpd128 dst src1 src2 imm8) := by
  intro m h
  simp only [Instr.wf, Bool.and_eq_true] at h ⊢
  exact ⟨h.1, rfl⟩

theorem vshufpd256 (dst src1 : VReg) (src2 : RM) (imm8 : Byte) : Statement (.vshufpd256 dst src1 src2 imm8) := by
  intro m h
  simp only [Instr.wf, Bool.and_eq_true] at h ⊢
  exact ⟨h.1, rfl⟩

end RefuseIsStricter

namespace InScopeOnly

/-- No instruction is well-formed in real-address mode (00_scope.md R3). -/
def Statement (i : Instr) : Prop := ∀ pol, i.wf .realAddress pol = false

theorem shufpd (dst : VReg) (src : RM) (imm8 : Byte) : Statement (.shufpd dst src imm8) := fun _ => rfl

theorem vshufpd128 (dst src1 : VReg) (src2 : RM) (imm8 : Byte) : Statement (.vshufpd128 dst src1 src2 imm8) :=
  fun _ => rfl

theorem vshufpd256 (dst src1 : VReg) (src2 : RM) (imm8 : Byte) : Statement (.vshufpd256 dst src1 src2 imm8) :=
  fun _ => rfl

end InScopeOnly

end Sys2Proof.Laws
end

