-- ==== Sys2Proof/Laws/Step.lean ====
section
/-! SUPPORT. What a step can do: stay at END, or run one decoded instruction. -/

namespace Sys2Proof.Machine

/-- At END a step stays (R184). -/
theorem step_at_end {s : State} (h : s.pc = s.endPc) : step s = .next s := by
  simp [step, h]

/-- Away from END a step is the decoded instruction run at the state past it (R107). -/
theorem step_running {s : State} (h : s.pc ≠ s.endPc) :
    step s = andThen (fetchDecode s) fun d => exec d.instr (s.advance d.len) := by
  simp [step, h]

/-- All that a step does when it answers a next state. -/
theorem step_next_cases {s t : State} (h : step s = .next t) :
    (s.pc = s.endPc ∧ t = s) ∨
    (s.pc ≠ s.endPc ∧ ∃ d, fetchDecode s = .next d ∧ exec d.instr (s.advance d.len) = .next t) := by
  by_cases he : s.pc = s.endPc
  · rw [step_at_end he] at h
    cases h
    exact .inl ⟨he, rfl⟩
  · rw [step_running he] at h
    exact .inr ⟨he, andThen_eq_next_iff.1 h⟩

theorem runsTo_zero {s t : State} : RunsTo 0 s t ↔ s = t :=
  ⟨fun h => Host.Outcome.next.inj h, fun h => congrArg Host.Outcome.next h⟩

/-- A run of `k + 1` steps is one step and a run of `k`. -/
theorem runsTo_succ {k : Nat} {s t : State} : RunsTo (k + 1) s t ↔ ∃ u, step s = .next u ∧ RunsTo k u t := by
  unfold RunsTo
  simp only [Host.Core.run]
  cases h : step s with
  | next u =>
    rw [show core.step s = .next u from h]
    exact ⟨fun ht => ⟨u, rfl, ht⟩, fun ⟨_, e, ht⟩ => (Host.Outcome.next.inj e) ▸ ht⟩
  | fault f =>
    rw [show core.step s = .fault f from h]
    constructor
    · intro ht
      cases ht
    · rintro ⟨_, e, _⟩
      cases e
  | refused r =>
    rw [show core.step s = .refused r from h]
    constructor
    · intro ht
      cases ht
    · rintro ⟨_, e, _⟩
      cases e

/-- Fetching answers an instruction exactly when the mode is in scope, the fetch is admitted and the bytes decode. -/
theorem fetchDecode_eq_next_iff {s : State} {d : Decoded} :
    fetchDecode s = .next d ↔
      s.mode ≠ .realAddress ∧ admits s .cs s.pc (fetchLength s) .fetch = .ok ∧
        decode s.mode s.imm8Policy (fetchBytes s) = .ok d := by
  unfold fetchDecode
  split <;> rename_i h
  · simp [h]
  · split <;> rename_i h'
    · cases hd : decode s.mode s.imm8Policy (fetchBytes s) <;> simp [decodedResult, fetchStop, h, h']
      split <;> simp
    · simp [h']
    · simp [h']

/-- A fetch that is not admitted ends the step before anything is decoded (R148 item 1). -/
theorem fetchDecode_not_admitted {s : State} (hm : s.mode ≠ .realAddress) :
    (∀ f, admits s .cs s.pc (fetchLength s) .fetch = .fault f → fetchDecode s = .fault f) ∧
    (∀ r, admits s .cs s.pc (fetchLength s) .fetch = .refuse r → fetchDecode s = .refused r) := by
  constructor <;> intro _ h <;> simp [fetchDecode, hm, h]

/-- The bytes looked at begin with any bytes that stand at `pc` below the top of the address space. -/
theorem codeFrom_begins {s : State} {bs : List Byte} {k : Nat}
    (htop : s.pc.toNat + (k + bs.length) ≤ 2 ^ Config.addressBits s.mode)
    (h : ∀ j, j < bs.length → Memory.byte? s.mem (s.pc.toNat + (k + j)) = bs[j]?)
    (fuel : Nat) (hf : bs.length ≤ fuel) : ∃ more, codeFrom s k fuel = bs ++ more := by
  induction bs generalizing k fuel with
  | nil => exact ⟨_, rfl⟩
  | cons b t ih =>
    obtain ⟨f, rfl⟩ : ∃ f, fuel = f + 1 := ⟨fuel - 1, by simp at hf; omega⟩
    simp only [List.length_cons] at htop hf
    have h0 : Memory.byte? s.mem (s.pc.toNat + k) = some b := by simpa using h 0 (by simp)
    obtain ⟨more, hm⟩ := ih (k := k + 1) (by omega) (fun j hj => by
      rw [show k + 1 + j = k + (j + 1) by omega]
      simpa using h (j + 1) (by simpa using hj)) f (by omega)
    exact ⟨more, by simp [codeFrom, show ¬2 ^ Config.addressBits s.mode ≤ s.pc.toNat + k by omega, h0, hm]⟩

/-- At most `fuel` bytes are looked at. -/
theorem codeFrom_length_le (s : State) (k fuel : Nat) : (codeFrom s k fuel).length ≤ fuel := by
  induction fuel generalizing k with
  | zero => simp [codeFrom]
  | succ f ih =>
    simp only [codeFrom]
    split
    · simp
    · split
      · simpa using ih (k + 1)
      · simp

end Sys2Proof.Machine
end

