-- ==== Sys2Proof/Tests/Slice0.lean ====
section
/-! SUPPORT. The smoke tests of WellFormed, decode tests from bytes written out by the spec's layouts, one-step tests
whose results are the spec's own vectors (95_test_vectors.md), and for each statement with hypotheses a witness that
meets them. -/

namespace Sys2Proof.Machine.Tests

open Sys2Proof Sys2Proof.Machine

/-! ### WellFormed refuses an ill-formed term for each of its checks -/

/-- An operand `[reg 0]` of `mode64`. -/
def opd : MemOperand :=
  { seg := .ds, base := some 0, index := none, scale := .x1, disp := 0#32, riprel := false, asize := .a64 }

theorem test_wf_opd : opd.wf .mode64 = true := by decide

theorem test_wf_destination : (Instr.shufpd 8 (.reg 0) 0#8).wf .mode32 .ignore = false := by decide

theorem test_wf_first_source : (Instr.vshufpd128 0 8 (.reg 0) 0#8).wf .mode32 .ignore = false ∧
    (Instr.vshufpd256 0 8 (.reg 0) 0#8).wf .mode32 .ignore = false := by decide

theorem test_wf_second_source : (Instr.vshufpd256 0 0 (.reg 8) 0#8).wf .mode32 .ignore = false := by decide

theorem test_wf_real_mode : (Instr.shufpd 0 (.reg 0) 0#8).wf .realAddress .ignore = false := by decide

theorem test_wf_base : MemOperand.wf .mode32 { opd with base := some 8, asize := .a32 } = false := by decide

theorem test_wf_index : MemOperand.wf .mode32 { opd with index := some 9, asize := .a32 } = false := by decide

theorem test_wf_index_4 : MemOperand.wf .mode64 { opd with index := some 4 } = false := by decide

theorem test_wf_riprel :
    MemOperand.wf .mode32 { opd with base := none, riprel := true, asize := .a32 } = false ∧
    MemOperand.wf .mode64 { opd with riprel := true } = false ∧
    MemOperand.wf .mode64 { opd with base := none, index := some 1, riprel := true } = false ∧
    MemOperand.wf .mode64 { opd with base := none, scale := .x2, riprel := true } = false := by decide

theorem test_wf_asize : MemOperand.wf .mode32 opd = false := by decide

theorem test_wf_reserved_bits :
    (Instr.shufpd 0 (.reg 0) 4#8).wf .mode64 .refuse = false ∧
    (Instr.vshufpd128 0 0 (.reg 0) 4#8).wf .mode64 .refuse = false ∧
    (Instr.vshufpd256 0 0 (.reg 0) 4#8).wf .mode64 .refuse = true ∧
    (Instr.vshufpd256 0 0 (.reg 0) 16#8).wf .mode64 .refuse = false := by decide

/-! ### Decoding bytes written out from the layouts of R55 to R62 (95_test_vectors.md) -/

/-- V1, V10 to V12: ModRM `11 001 010`; REX.R, REX.B and both. -/
theorem test_decode_legacy_registers :
    decode .mode64 .ignore [0x66#8, 0x0F#8, 0xC6#8, 0xCA#8, 0x00#8] = .ok ⟨.shufpd 1 (.reg 2) 0#8, 5⟩ ∧
    decode .mode64 .ignore [0x66#8, 0x44#8, 0x0F#8, 0xC6#8, 0xCA#8, 0x03#8] = .ok ⟨.shufpd 9 (.reg 2) 3#8, 6⟩ ∧
    decode .mode64 .ignore [0x66#8, 0x41#8, 0x0F#8, 0xC6#8, 0xCA#8, 0x03#8] = .ok ⟨.shufpd 1 (.reg 10) 3#8, 6⟩ ∧
    decode .mode64 .ignore [0x66#8, 0x45#8, 0x0F#8, 0xC6#8, 0xFF#8, 0x01#8] = .ok ⟨.shufpd 15 (.reg 15) 1#8, 6⟩ ∧
    decode .mode32 .ignore [0x66#8, 0x44#8, 0x0F#8, 0xC6#8, 0xCA#8, 0x03#8] = .refused .notShufpd := by decide

/-- V23, V24, V26, V29, V30, V32, V33: displacement bytes, SIB, default segments, address size. -/
theorem test_decode_legacy_memory :
    decode .mode64 .ignore [0x66#8, 0x0F#8, 0xC6#8, 0x5B#8, 0x10#8, 0x00#8] =
      .ok ⟨.shufpd 3 (.mem { opd with base := some 3, disp := 16#32 }) 0#8, 6⟩ ∧
    decode .mode64 .ignore [0x66#8, 0x0F#8, 0xC6#8, 0x4D#8, 0xF0#8, 0x01#8] =
      .ok ⟨.shufpd 1 (.mem { opd with seg := .ss, base := some 5, disp := 0xFFFFFFF0#32 }) 1#8, 6⟩ ∧
    decode .mode64 .ignore [0x66#8, 0x0F#8, 0xC6#8, 0x0C#8, 0x24#8, 0x01#8] =
      .ok ⟨.shufpd 1 (.mem { opd with seg := .ss, base := some 4 }) 1#8, 6⟩ ∧
    decode .mode64 .ignore [0x66#8, 0x0F#8, 0xC6#8, 0x04#8, 0x25#8, 0x00#8, 0x10#8, 0x00#8, 0x00#8, 0x01#8] =
      .ok ⟨.shufpd 0 (.mem { opd with base := none, disp := 0x1000#32 }) 1#8, 10⟩ ∧
    decode .mode64 .ignore [0x66#8, 0x67#8, 0x0F#8, 0xC6#8, 0x08#8, 0x02#8] =
      .ok ⟨.shufpd 1 (.mem { opd with asize := .a32 }) 2#8, 6⟩ ∧
    decode .mode32 .ignore [0x66#8, 0x67#8, 0x0F#8, 0xC6#8, 0x08#8, 0x02#8] = .refused .addressSize16 ∧
    decode .mode64 .ignore [0x66#8, 0x43#8, 0x0F#8, 0xC6#8, 0x0C#8, 0xE8#8, 0x02#8] =
      .ok ⟨.shufpd 1 (.mem { opd with base := some 8, index := some 13, scale := .x8 }) 2#8, 7⟩ ∧
    decode .mode64 .ignore [0x66#8, 0x41#8, 0x0F#8, 0xC6#8, 0x04#8, 0x24#8, 0x01#8] =
      .ok ⟨.shufpd 0 (.mem { opd with base := some 12 }) 1#8, 7⟩ := by decide

/-- V27, V28: mod 00, r/m 101 in the two modes. -/
theorem test_decode_riprel :
    decode .mode64 .ignore [0x66#8, 0x0F#8, 0xC6#8, 0x05#8, 0x17#8, 0x00#8, 0x00#8, 0x00#8, 0x01#8] =
      .ok ⟨.shufpd 0 (.mem { opd with base := none, disp := 0x17#32, riprel := true }) 1#8, 9⟩ ∧
    decode .mode32 .ignore [0x66#8, 0x0F#8, 0xC6#8, 0x05#8, 0x00#8, 0x10#8, 0x00#8, 0x00#8, 0x01#8] =
      .ok ⟨.shufpd 0 (.mem { opd with base := none, disp := 0x1000#32, asize := .a32 }) 1#8, 9⟩ := by decide

/-- V34, V39, V40, V47, V48: the two VEX prefixes, W ignored, a segment override, VEX.B. -/
theorem test_decode_vex128 :
    decode .mode64 .ignore [0xC5#8, 0xE9#8, 0xC6#8, 0xCB#8, 0x01#8] = .ok ⟨.vshufpd128 1 2 (.reg 3) 1#8, 5⟩ ∧
    decode .mode32 .ignore [0xC4#8, 0xE1#8, 0x69#8, 0xC6#8, 0xCB#8, 0x01#8] =
      .ok ⟨.vshufpd128 1 2 (.reg 3) 1#8, 6⟩ ∧
    decode .mode64 .ignore [0xC4#8, 0xE1#8, 0xE9#8, 0xC6#8, 0xCB#8, 0x01#8] =
      .ok ⟨.vshufpd128 1 2 (.reg 3) 1#8, 6⟩ ∧
    decode .mode64 .ignore [0x64#8, 0xC5#8, 0xF1#8, 0xC6#8, 0x07#8, 0x02#8] =
      .ok ⟨.vshufpd128 0 1 (.mem { opd with seg := .fs, base := some 7 }) 2#8, 6⟩ ∧
    decode .mode64 .ignore [0xC4#8, 0xC1#8, 0x31#8, 0xC6#8, 0x45#8, 0x00#8, 0x01#8] =
      .ok ⟨.vshufpd128 0 9 (.mem { opd with base := some 13 }) 1#8, 7⟩ ∧
    decode .mode32 .ignore [0xC4#8, 0xC1#8, 0x31#8, 0xC6#8, 0x45#8, 0x00#8, 0x01#8] =
      .refused .nonCanonicalVex := by decide

/-- The choices a style can make, from the layouts: `64 67 66`, REX with W, X and B; a SIB byte and a disp8 of 0 where
none is needed; 67 and GS before a register operand. -/
theorem test_encoding_styles :
    encodeStyled .mode64 (.mk .cba true true true true .d0 false true none false)
      (.shufpd 1 (.mem { opd with seg := .fs, base := none, disp := 0x10#32, riprel := true, asize := .a32 }) 2#8) =
      [0x64#8, 0x67#8, 0x66#8, 0x4B#8, 0x0F#8, 0xC6#8, 0x0D#8, 0x10#8, 0x00#8, 0x00#8, 0x00#8, 0x02#8] ∧
    encodeStyled .mode64 { EncodingStyle.short with sib := true, disp := .d8 } (.shufpd 1 (.mem opd) 2#8) =
      [0x66#8, 0x0F#8, 0xC6#8, 0x4C#8, 0x20#8, 0x00#8, 0x02#8] ∧
    encodeStyled .mode64 { EncodingStyle.short with order := .bac, reg67 := true, regSeg := some .gs }
      (.shufpd 1 (.reg 2) 0#8) =
      [0x67#8, 0x66#8, 0x65#8, 0x0F#8, 0xC6#8, 0xCA#8, 0x00#8] := by decide

/-- V49, V51, V53, V50: VEX.256 in both prefix forms; bit 2 is a select bit; bits 7:4 are reserved. -/
theorem test_decode_vex256 :
    decode .mode64 .refuse [0xC5#8, 0xED#8, 0xC6#8, 0xCB#8, 0x05#8] = .ok ⟨.vshufpd256 1 2 (.reg 3) 5#8, 5⟩ ∧
    decode .mode64 .refuse [0xC5#8, 0xED#8, 0xC6#8, 0xCB#8, 0xF5#8] = .refused .reservedImm8Bits ∧
    decode .mode64 .ignore [0xC4#8, 0x41#8, 0x35#8, 0xC6#8, 0xC2#8, 0x0F#8] =
      .ok ⟨.vshufpd256 8 9 (.reg 10) 15#8, 6⟩ ∧
    decode .mode32 .ignore [0xC4#8, 0x41#8, 0x35#8, 0xC6#8, 0xC2#8, 0x0F#8] = .refused .notShufpd := by decide

/-- R71: in mode64 `66` before C5 is #UD without the next byte; in mode32 that byte is needed. -/
theorem test_decode_66_before_vex :
    decode .mode64 .ignore [0x66#8, 0xC5#8] = .ud ∧ decode .mode32 .ignore [0x66#8, 0xC5#8] = .truncated := by decide

/-- V58 to V66, V16: #UD and the refusals. -/
theorem test_decode_stops :
    decode .mode64 .ignore [0xF0#8, 0x66#8, 0x0F#8, 0xC6#8, 0xCA#8, 0x01#8] = .ud ∧
    decode .mode64 .ignore [0x66#8, 0xC5#8, 0xE9#8, 0xC6#8, 0xCB#8, 0x01#8] = .ud ∧
    decode .mode64 .ignore [0x48#8, 0xC5#8, 0xE9#8, 0xC6#8, 0xCB#8, 0x01#8] = .ud ∧
    decode .mode32 .ignore [0x48#8, 0xC5#8, 0xE9#8, 0xC6#8, 0xCB#8, 0x01#8] = .refused .notShufpd ∧
    decode .mode64 .ignore [0x0F#8, 0xC6#8, 0xCA#8, 0x01#8] = .refused .notShufpd ∧
    decode .mode64 .ignore [0xF2#8, 0x0F#8, 0xC6#8, 0xCA#8, 0x01#8] = .refused .repeatPrefix ∧
    decode .mode64 .ignore [0xF3#8, 0x66#8, 0x0F#8, 0xC6#8, 0xCA#8, 0x01#8] = .refused .repeatPrefix ∧
    decode .mode64 .ignore [0x66#8, 0x66#8, 0x0F#8, 0xC6#8, 0xCA#8, 0x01#8] = .refused .repeatedPrefix ∧
    decode .mode64 .ignore [0xC5#8, 0xE8#8, 0xC6#8, 0xCB#8, 0x01#8] = .refused .notVshufpd ∧
    decode .mode64 .ignore [0xC4#8, 0xE2#8, 0x69#8, 0xC6#8, 0xCB#8, 0x01#8] = .refused .notVshufpd ∧
    decode .mode64 .ignore [0x62#8, 0xF1#8, 0xED#8, 0x08#8, 0xC6#8, 0xCB#8, 0x01#8] = .refused .notShufpd ∧
    decode .mode64 .refuse [0x66#8, 0x0F#8, 0xC6#8, 0xCA#8, 0xFD#8] = .refused .reservedImm8Bits := by decide

/-- The five rows of spec/opcode_table.json with every other bit 0. -/
theorem test_table_words :
    decodeTableWord 24 0x660FC6 = some (.shufpd 0 (.mem opd) 0#8) ∧
    decodeTableWord 24 0xC501C6 = some (.vshufpd128 8 15 (.mem opd) 0#8) ∧
    decodeTableWord 32 0xC40101C6 = some (.vshufpd128 8 15 (.mem { opd with base := some 8 }) 0#8) ∧
    decodeTableWord 24 0xC505C6 = some (.vshufpd256 8 15 (.mem opd) 0#8) ∧
    decodeTableWord 32 0xC40105C6 = some (.vshufpd256 8 15 (.mem { opd with base := some 8 }) 0#8) := by decide

/-! ### One step (the launch of 95_test_vectors.md) -/

/-- `X3:X2:X1:X0`. -/
def x256 : Ymm := 0x1111111111111111#64 ++ 0x2222222222222222#64 ++ 0xAAAAAAAAAAAAAAAA#64 ++ 0xBBBBBBBBBBBBBBBB#64

/-- `Y3:Y2:Y1:Y0`. -/
def y256 : Ymm := 0x3333333333333333#64 ++ 0x4444444444444444#64 ++ 0xCCCCCCCCCCCCCCCC#64 ++ 0xDDDDDDDDDDDDDDDD#64

/-- Four quadwords as a 256-bit value. -/
def quads (q3 q2 q1 q0 : BitVec 64) : Ymm := q3 ++ q2 ++ q1 ++ q0

/-- Consecutive cells from an address. -/
def cells (a : Nat) (bs : List Byte) : Memory := bs.zipIdx.map fun (b, k) => (a + k, b)

/-- Region A and region B of 95_test_vectors.md, and the code at 400000H. -/
def launchMem (code : List Byte) : Memory :=
  cells 0x1000 ((List.range 48).map fun k => BitVec.ofNat 8 (0x10 + k)) ++
  cells 0x2000 ((List.range 32).map fun k => BitVec.ofNat 8 (0x80 + k)) ++ cells 0x400000 code

/-- The launch: registers 0 to 2 hold `X3:X2:X1:X0`, register 3 `Y3:Y2:Y1:Y0`; RAX = 1000H, RBX = 0FF0H, RSP = 1000H,
RBP = 1020H, RSI = 2000H, RDI = 1001H. -/
def launch (code : List Byte) : State :=
  { State.reset.initialise with
    ymm := (((State.reset.ymm.set 0 x256).set 1 x256).set 2 x256).set 3 y256
    gpr := (((((State.reset.gpr.set 0 0x1000#64).set 3 0xFF0#64).set 4 0x1000#64).set 5 0x1020#64).set 6
      0x2000#64).set 7 0x1001#64
    pc := 0x400000#64
    endPc := 0x400020#64
    mem := launchMem code }

/-- A flat segment of `mode32`. -/
def flat : Segment := { selector := 8#16, base := 0#64, limit := 0xFFFFFFFF#32, readable := true, executable := true }

/-- The launch in `mode32`. -/
def launch32 (code : List Byte) : State :=
  { launch code with mode := .mode32, segs := { es := flat, cs := flat, ss := flat, ds := flat, fs := flat, gs := flat } }

/-- The outcome is a next state with a property. -/
def nextIs (o : Result State) (p : State → Bool) : Bool :=
  match o with
  | .next t => p t
  | .fault _ => false
  | .refused _ => false

/-- The outcome is this fault. -/
def faultIs (o : Result State) (f : Fault) : Bool :=
  match o with
  | .next _ => false
  | .fault g => g == f
  | .refused _ => false

theorem exists_next {o : Result State} (h : nextIs o (fun _ => true) = true) : ∃ t, o = .next t := by
  cases o with
  | next t => exact ⟨t, rfl⟩
  | fault f => cases h
  | refused r => cases h

theorem eq_fault {o : Result State} {f : Fault} (h : faultIs o f = true) : o = .fault f := by
  cases o with
  | next t => cases h
  | fault g => rw [beq_iff_eq.1 h]
  | refused r => cases h

/-- V6: source and destination the same register; the sequential misreading would give `X1:X1`. -/
theorem test_shufpd_swap :
    nextIs (step (launch [0x66#8, 0x0F#8, 0xC6#8, 0xC0#8, 0x01#8])) (fun t =>
      t.pc == 0x400005#64 && t.ymmReg 0 ==
        quads 0x1111111111111111#64 0x2222222222222222#64 0xBBBBBBBBBBBBBBBB#64 0xAAAAAAAAAAAAAAAA#64) = true := by
  decide

/-- V24: `[rbp - 16]` through SS; the upper bits stay. -/
theorem test_shufpd_memory :
    nextIs (step (launch [0x66#8, 0x0F#8, 0xC6#8, 0x4D#8, 0xF0#8, 0x01#8])) (fun t =>
      t.pc == 0x400006#64 && t.ymmReg 1 ==
        quads 0x1111111111111111#64 0x2222222222222222#64 0x2726252423222120#64 0xAAAAAAAAAAAAAAAA#64 &&
        t.ymmReg 2 == x256) = true := by decide

/-- V41: the destination is the second source. -/
theorem test_vshufpd128_aliased :
    nextIs (step (launch [0xC5#8, 0xE9#8, 0xC6#8, 0xDB#8, 0x01#8])) (fun t =>
      t.pc == 0x400005#64 && t.ymmReg 3 == quads 0#64 0#64 0xDDDDDDDDDDDDDDDD#64 0xAAAAAAAAAAAAAAAA#64) = true := by
  decide

/-- V45: a memory operand at 1001H, which no VEX form minds. -/
theorem test_vshufpd128_unaligned_memory :
    nextIs (step (launch [0xC5#8, 0xF1#8, 0xC6#8, 0x07#8, 0x02#8])) (fun t =>
      t.ymmReg 0 == quads 0#64 0#64 0x201F1E1D1C1B1A19#64 0xBBBBBBBBBBBBBBBB#64) = true := by decide

/-- V44 and V47: `[fs:rdi]` in mode64 and `[edi]` through DS in mode32, the other bases leading elsewhere. -/
theorem test_segment_bases :
    nextIs (step { launch [0x64#8, 0xC5#8, 0xF1#8, 0xC6#8, 0x07#8, 0x02#8] with
        gpr := State.reset.gpr.set 7 0x100#64
        segs := { (launch []).segs with fs := { flat with base := 0xF00#64 }, gs := { flat with base := 0xE00#64 } } })
      (fun t => t.ymmReg 0 == quads 0#64 0#64 0x1F1E1D1C1B1A1918#64 0xBBBBBBBBBBBBBBBB#64) = true ∧
    nextIs (step { launch32 [0xC5#8, 0xF1#8, 0xC6#8, 0x07#8, 0x02#8] with
        gpr := State.reset.gpr.set 7 0x100#64
        segs := { (launch32 []).segs with ds := { flat with base := 0xF00#64 }, ss := { flat with base := 0xE00#64 } } })
      (fun t => t.ymmReg 0 == quads 0#64 0#64 0x1F1E1D1C1B1A1918#64 0xBBBBBBBBBBBBBBBB#64) = true := by
  decide

/-- A 16-byte read at FFFFFFF8H of mode32: refused where the launch is silent (D17); where the launch admits it, both ends
absent, the lowest address is the one reported (R148 item 7), and with both ends allocated it goes on at 0 (R37). -/
theorem test_operand_wraps :
    mirrorAdmits (launch32 []) .ds 0xFFFFFFF8#64 16 .read = .refuse .accessWraps ∧
    answerVerdict (launch32 []) 0xFFFFFFF8#64 16 .read .ok = .fault (.pf (launch []).absentCause .read 0#64) ∧
    answerVerdict { launch32 [] with mem := cells 0 (List.replicate 8 0x55#8) } 0xFFFFFFF8#64 16 .read .ok =
      .fault (.pf (launch []).absentCause .read 0xFFFFFFF8#64) ∧
    answerVerdict { launch32 [] with
      mem := cells 0 (List.replicate 8 0x55#8) ++ cells 0xFFFFFFF8 (List.replicate 8 0xAA#8) } 0xFFFFFFF8#64 16 .read
      .ok = .ok := by decide

/-- V53, row 0B of V49: three-byte VEX, registers 8 to 10, bits 0, 1 and 3 set. -/
theorem test_vshufpd256_high_registers :
    nextIs (step { launch [0xC4#8, 0x41#8, 0x35#8, 0xC6#8, 0xC2#8, 0x0B#8] with
        ymm := (State.reset.ymm.set 9 x256).set 10 y256 }) (fun t =>
      t.pc == 0x400006#64 && t.ymmReg 8 ==
        quads 0x3333333333333333#64 0x2222222222222222#64 0xCCCCCCCCCCCCCCCC#64 0xAAAAAAAAAAAAAAAA#64) = true := by
  decide

/-- V54: 32 bytes at 2000H. -/
theorem test_vshufpd256_memory :
    nextIs (step (launch [0xC5#8, 0xF5#8, 0xC6#8, 0x06#8, 0x05#8])) (fun t =>
      t.ymmReg 0 ==
        quads 0x9796959493929190#64 0x1111111111111111#64 0x8786858483828180#64 0xAAAAAAAAAAAAAAAA#64) = true := by
  decide

/-- V21: `[rax]` at 1008H is not 16-byte aligned. -/
theorem test_shufpd_misaligned :
    faultIs (step { launch [0x66#8, 0x0F#8, 0xC6#8, 0x08#8, 0x02#8] with
      gpr := State.reset.gpr.set 0 0x1008#64 }) .gp0 = true := by decide

/-- V46: bytes 1028H to 1037H, of which 1030H is the first not allocated, although imm8 selects the low half. -/
theorem test_vshufpd128_absent_byte :
    faultIs (step { launch [0xC5#8, 0xF1#8, 0xC6#8, 0x07#8, 0x00#8] with
      gpr := State.reset.gpr.set 7 0x1028#64 })
      (.pf { present := false, user := false, rsvd := false, pkey := false } .read 0x1030#64) = true := by decide

/-! ### Witnesses: each statement's hypotheses, met together -/

/-- `[r13 + 8 r12 - 80000000H]` through a segment. -/
def opd13 (g : Seg) : MemOperand :=
  { seg := g, base := some 13, index := some 12, scale := .x8, disp := 0x80000000#32, riprel := false, asize := .a64 }

theorem witness_decode_of_encode :
    (Instr.vshufpd256 15 15 (.mem (opd13 .gs)) 0x0F#8).wf .mode64 .refuse = true ∧
    (Instr.shufpd 7 (.mem { opd with base := none, asize := .a32 }) 3#8).wf .mode32 .refuse = true ∧
    (Instr.vshufpd128 7 7 (.reg 7) 0xFF#8).wf .mode32 .ignore = true := by decide

theorem witness_two_vex_forms :
    (Instr.vshufpd128 15 15 (.mem opd) 3#8).wf .mode64 .refuse = true ∧
    (rmExt .mode64 EncodingStyle.short false (Instr.vshufpd128 15 15 (.mem opd) 3#8).rm).x = false ∧
    (rmExt .mode64 EncodingStyle.short false (Instr.vshufpd128 15 15 (.mem opd) 3#8).rm).b = false := by decide

theorem witness_decode_ignores_following :
    decode .mode64 .ignore [0xF0#8] ≠ .truncated ∧ decode .mode32 .ignore [0xC5#8, 0x00#8] ≠ .truncated ∧
    decode .mode64 .ignore [0xC5#8, 0xE9#8, 0xC6#8, 0xCB#8, 0x01#8] ≠ .truncated := by decide

/-- Lengths 5 and 13, the two ends of the range. -/
theorem witness_decoded_lengths :
    decode .mode64 .ignore [0x66#8, 0x0F#8, 0xC6#8, 0xCA#8, 0x00#8] = .ok ⟨.shufpd 1 (.reg 2) 0#8, 5⟩ ∧
    decode .mode64 .ignore [0x66#8, 0x67#8, 0x64#8, 0x40#8, 0x0F#8, 0xC6#8, 0x84#8, 0x08#8, 0x00#8, 0x00#8, 0x00#8,
      0x80#8, 0x01#8] =
      .ok ⟨.shufpd 0 (.mem { opd with seg := .fs, index := some 1, disp := 0x80000000#32, asize := .a32 }) 1#8, 13⟩ := by
  decide

/-- The clauses on #UD: 66 before VEX, in mode32 by the byte after it; the two ends of the REX range; prefixes after F3. -/
theorem witness_lock_and_vex :
    (isVexLead 0xC5#8 = true ∧ isVexLead 0xC4#8 = true ∧ vexFollows .mode32 0xC0#8 = true ∧
      vexFollows .mode32 0xFF#8 = true) ∧
    (isRex 0x40#8 = true ∧ isRex 0x4F#8 = true) ∧
    (∀ q ∈ [0x66#8, 0xF2#8, 0x64#8], (legacyByte? q).isSome = true ∧ q ≠ 0xF0#8) := by decide

/-- Strings of prefixes scanned without an answer: none, and one of each kind in two orders. -/
theorem witness_prefixes : PrefixesOnce [] ∧ PrefixesOnce [0x66#8] ∧ PrefixesOnce [0x67#8, 0x64#8, 0x66#8] ∧
    PrefixesOnce [0x26#8, 0x67#8] := by
  unfold PrefixesOnce
  decide

/-- A byte for each clause of the named refusals: SHUFPS, EVEX and (in mode32) a REX value; NOP; REX before 67; pp = 00;
mmmmm = 00010; another opcode under VEX; B' = 0 and vvvv'[3] = 0; LDS in mode32. -/
theorem witness_other_bytes :
    (noPrefixByte .mode64 0x0F#8 = true ∧ noPrefixByte .mode64 0x62#8 = true ∧ noPrefixByte .mode64 0x90#8 = true ∧
      noPrefixByte .mode32 0x48#8 = true ∧ noPrefixByte .mode64 0x48#8 = false) ∧
    (isRex 0x48#8 = true ∧ isVexLead 0x67#8 = false) ∧
    (vexFollows .mode32 0xE8#8 = true ∧ BitVec.extractLsb' 0 2 0xE8#8 ≠ 0x1#2 ∧
      BitVec.extractLsb' 0 5 0xE2#8 ≠ 0x01#5 ∧ (0xC5#8 : Byte) ≠ 0xC6#8) ∧
    (vexFollows .mode32 0xC1#8 = true ∧ BitVec.extractLsb' 0 5 0xC1#8 = 0x01#5 ∧
      BitVec.getLsbD 0xC1#8 5 = false ∧ BitVec.extractLsb' 0 2 0x69#8 = 0x1#2) ∧
    (vexFollows .mode32 0xE1#8 = true ∧ BitVec.extractLsb' 0 5 0xE1#8 = 0x01#5 ∧
      BitVec.getLsbD 0x29#8 6 = false ∧ BitVec.extractLsb' 0 2 0x29#8 = 0x1#2) ∧
    vexFollows .mode32 0x81#8 = false := by decide

theorem witness_reserved_bits :
    decode .mode64 .refuse [0xC5#8, 0xED#8, 0xC6#8, 0xCB#8, 0x0F#8] = .ok ⟨.vshufpd256 1 2 (.reg 3) 15#8, 5⟩ ∧
    decode .mode64 .ignore [0xC5#8, 0xE9#8, 0xC6#8, 0xCB#8, 0x04#8] = .ok ⟨.vshufpd128 1 2 (.reg 3) 4#8, 5⟩ ∧
    (4#8 &&& ~~~(Instr.vshufpd128 1 2 (.reg 3) 4#8).selectMask ≠ 0#8) := by decide

/-- A launch whose `ADMITS` answers for the reads at 1000H through DS. -/
def answering (a : AdmitAnswer) : State :=
  { launch [] with admitRules := [⟨some .ds, some .read, some 16, 0x1000, 0x103F, a⟩] }

/-- The launch is ready for all three forms, in both modes. -/
theorem witness_form_ready (i : Instr) : FormReady (launch []) i ∧ FormReady (launch32 []) i := by
  have h : ∀ s : State, s.mode ≠ .realAddress → s.sseEnabled = true → s.avxEnabled = true → s.ts = false →
      FormReady s i := by
    intro s h1 h2 h3 h4
    cases i
    · exact ⟨h1, h2, h4⟩
    · exact ⟨h1, h3, h4⟩
    · exact ⟨h1, h3, h4⟩
  exact ⟨h _ (by decide) (by decide) (by decide) (by decide), h _ (by decide) (by decide) (by decide) (by decide)⟩

/-- Aligned and admitted for 16 bytes at the first address of region A, and for 16 bytes at its last aligned one. -/
theorem witness_memory_16 :
    ((linearAddress (launch []) opd).toNat % 16 = 0 ∧
      admits (launch []) .ds (linearAddress (launch []) opd) 16 .read = .ok) ∧
    ((linearAddress (launch []) { opd with disp := 0x20#32 }).toNat % 16 = 0 ∧
      admits (launch []) .ds (linearAddress (launch []) { opd with disp := 0x20#32 }) 16 .read = .ok) := by decide

/-- Not aligned and admitted for 16 bytes, for the VEX form. -/
theorem witness_memory_16_unaligned :
    linearAddress (launch []) { opd with base := some 7 } = 0x1001#64 ∧
    admits (launch []) .ds (linearAddress (launch []) { opd with base := some 7 }) 16 .read = .ok := by decide

/-- Region B is admitted for the 256-bit form and for the VEX.128 form; a launch can answer differently by size. -/
theorem witness_memory_16_and_32 :
    OperandReady (launch []) (.vshufpd256 1 2 (.mem { opd with base := some 6 }) 1#8) ∧
    OperandReady (launch []) (.vshufpd128 1 2 (.mem { opd with base := some 6 }) 1#8) ∧
    admits (answering .gp0) .ds 0x1000#64 32 .read = .ok ∧
    admits (answering .gp0) .ds 0x1000#64 16 .read = .fault .gp0 := by
  refine ⟨?_, ?_, by decide, by decide⟩ <;> (show _ ∧ _; decide)

theorem witness_memory_32 :
    admits (launch []) .ds (linearAddress (launch []) { opd with base := some 6 }) 32 .read = .ok := by decide

theorem witness_operand_ready :
    OperandReady (launch []) (.shufpd 1 (.mem opd) 1#8) ∧
    OperandReady (launch []) (.vshufpd256 1 2 (.mem { opd with base := some 6 }) 1#8) ∧
    OperandReady (launch []) (.vshufpd128 1 2 (.reg 3) 1#8) := by
  refine ⟨?_, ?_, trivial⟩
  · show _ ∧ _
    decide
  · show _ ∧ _
    decide

/-- Each of the three forms answers a next state at the launch; with the registers' values these are the premises of
the outcome tables (with the sources below), the figure, the lanes and the frame of exec. -/
theorem witness_exec_next :
    (∃ t, exec (.shufpd 1 (.reg 3) 1#8) (launch []) = .next t) ∧
    (∃ t, exec (.shufpd 1 (.mem opd) 1#8) (launch []) = .next t) ∧
    (∃ t, exec (.vshufpd128 0 1 (.reg 3) 2#8) (launch []) = .next t) ∧
    (∃ t, exec (.vshufpd256 0 1 (.reg 3) 5#8) (launch []) = .next t) ∧
    (launch []).ymmReg 1 = quads 0x1111111111111111#64 0x2222222222222222#64 0xAAAAAAAAAAAAAAAA#64 0xBBBBBBBBBBBBBBBB#64 ∧
    (launch []).ymmReg 3 = quads 0x3333333333333333#64 0x4444444444444444#64 0xCCCCCCCCCCCCCCCC#64 0xDDDDDDDDDDDDDDDD#64 :=
  ⟨exists_next (by decide), exists_next (by decide), exists_next (by decide), exists_next (by decide), by decide,
    by decide⟩

/-- The outcome is this value. -/
def valueIs {α : Type} [DecidableEq α] (o : Result α) (v : α) : Bool :=
  match o with
  | .next a => decide (a = v)
  | .fault _ => false
  | .refused _ => false

theorem eq_value {α : Type} [DecidableEq α] {o : Result α} {v : α} (h : valueIs o v = true) : o = .next v := by
  cases o with
  | next a => rw [of_decide_eq_true h]
  | fault f => cases h
  | refused r => cases h

/-- The second sources of the outcome tables: region A by both rules, and the 32 bytes of region B. -/
theorem witness_second_sources :
    source128 .aligned16 (.mem opd) (launch []) =
      .next (0x1F1E1D1C1B1A1918#64 ++ 0x1716151413121110#64 : BitVec 128) ∧
    source128 .anyAddress (.mem opd) (launch []) =
      .next (0x1F1E1D1C1B1A1918#64 ++ 0x1716151413121110#64 : BitVec 128) ∧
    source256 (.mem { opd with base := some 6 }) (launch []) =
      .next (0x9F9E9D9C9B9A9998#64 ++ 0x9796959493929190#64 ++ 0x8F8E8D8C8B8A8988#64 ++ 0x8786858483828180#64 :
        BitVec 256) :=
  ⟨eq_value (by decide), eq_value (by decide), eq_value (by decide)⟩

/-- A register whose low half is two quadwords. -/
theorem witness_same_register :
    (launch []).xmmReg 0 = (0xAAAAAAAAAAAAAAAA#64 ++ 0xBBBBBBBBBBBBBBBB#64 : BitVec 128) := by decide

/-- Destination 0, sources 1 and 3: a VEX form whose destination is no source. -/
theorem witness_destination_not_a_source : (0 : VReg) ≠ 1 ∧ RM.reg 3 ≠ RM.reg 0 := by decide

/-- Two register files that agree in bits 127:0 and differ above, and both executions complete. -/
theorem witness_high_lanes :
    (∀ r : VReg, lowLane (((launch []).ymm.set 3 (quads 0#64 0#64 0xCCCCCCCCCCCCCCCC#64 0xDDDDDDDDDDDDDDDD#64)).get r) =
      (launch []).xmmReg r) ∧
    (∃ t, exec (.shufpd 1 (.reg 3) 1#8) (launch []) = .next t) ∧
    (∃ u, exec (.shufpd 1 (.reg 3) 1#8) { launch [] with
      ymm := (launch []).ymm.set 3 (quads 0#64 0#64 0xCCCCCCCCCCCCCCCC#64 0xDDDDDDDDDDDDDDDD#64) } = .next u) :=
  ⟨by decide, exists_next (by decide), exists_next (by decide)⟩

/-- A step away from END that completes, in both modes. -/
theorem witness_step_next :
    ((launch [0xC5#8, 0xF9#8, 0xC6#8, 0xC0#8, 0x02#8]).pc ≠ (launch [0xC5#8, 0xF9#8, 0xC6#8, 0xC0#8, 0x02#8]).endPc ∧
      ∃ t, step (launch [0xC5#8, 0xF9#8, 0xC6#8, 0xC0#8, 0x02#8]) = .next t) ∧
    (∃ t, step (launch32 [0xC5#8, 0xF9#8, 0xC6#8, 0xC0#8, 0x02#8]) = .next t) :=
  ⟨⟨by decide, exists_next (by decide)⟩, exists_next (by decide)⟩

/-- Addresses at the ends of the canonical halves, and an override among ES and DS in mode64. -/
theorem witness_linear_address :
    canonical .la48 0x7FFFFFFFFFFF = true ∧ canonical .la48 0x800000000000 = false ∧
    canonical .la48 0xFFFF7FFFFFFFFFFF = false ∧ canonical .la48 0xFFFF800000000000 = true ∧
    byteAddress .mode64 0x7FFFFFFFFFF8#64 8 = 0x800000000000 ∧
    canonical .la57 0xFFFFFFFFFFFFFF = true ∧ canonical .la57 0x100000000000000 = false ∧
    (launch []).mode = .mode64 ∧ Seg.es ≠ .fs ∧ Seg.es ≠ .gs ∧ Seg.ds ≠ .fs ∧ Seg.ds ≠ .gs := by decide

/-- A read that completes: region A from its first byte. -/
theorem witness_memory_read : memRead (launch []) .ds 0x1000#64 16 = .next (bytesAt (launch []) 0x1000#64 16) :=
  memRead_eq_next_iff.2 ⟨by decide, rfl⟩

/-- A memory form that completes. -/
theorem witness_whole_operand :
    (Instr.vshufpd256 0 1 (.mem { opd with base := some 6 }) 5#8).rm = .mem { opd with base := some 6 } ∧
    ∃ t, exec (.vshufpd256 0 1 (.mem { opd with base := some 6 }) 5#8) (launch []) = .next t :=
  ⟨rfl, exists_next (by decide)⟩

/-- V67, V68: a state in scope with each form disabled, and one with each enabled. -/
theorem witness_disabled_feature :
    ({ launch [] with cr4 := 0#64 } : State).mode ≠ .realAddress ∧
    exec (.shufpd 1 (.reg 2) 1#8) { launch [] with cr4 := 0#64 } = .fault .ud ∧
    exec (.vshufpd128 1 2 (.reg 3) 1#8) { launch [] with xcr0 := 3#64 } = .fault .ud ∧
    ∃ t, exec (.vshufpd256 1 2 (.reg 3) 1#8) (launch []) = .next t :=
  ⟨by decide, eq_fault (by decide), eq_fault (by decide), exists_next (by decide)⟩

/-- V69, V70: TS set, a feature enabled and disabled, and bytes that are #UD at `pc`. -/
theorem witness_task_switched :
    ({ launch [0xF0#8] with cr0 := 0x8#64 } : State).mode ≠ .realAddress ∧
    ({ launch [0xF0#8] with cr0 := 0x8#64 } : State).cr0.getLsbD 3 = true ∧
    formEnabled { launch [0xF0#8] with cr0 := 0x8#64 } (.shufpd 1 (.reg 2) 1#8) = true ∧
    formEnabled { launch [0xF0#8] with cr0 := 0x8#64, xcr0 := 1#64 } (.vshufpd128 1 2 (.reg 3) 1#8) = false ∧
    ({ launch [0xF0#8] with cr0 := 0x8#64 } : State).pc ≠ ({ launch [0xF0#8] with cr0 := 0x8#64 } : State).endPc ∧
    fetchLength { launch [0xF0#8] with cr0 := 0x8#64 } = 1 ∧
    admits { launch [0xF0#8] with cr0 := 0x8#64 } .cs 0x400000#64 1 .fetch = .ok ∧
    decode .mode64 .ignore (fetchBytes { launch [0xF0#8] with cr0 := 0x8#64 }) = .ud := by decide

/-- A linear address one past an aligned one. -/
theorem witness_misaligned : (linearAddress (launch []) { opd with base := some 7 }).toNat % 16 = 1 := by decide

/-- The first non-canonical byte of an operand that starts below the hole, through SS and DS; in mode32 a byte past
the limit and a segment that may not be read. The launch's own `ADMITS` is silent. -/
theorem witness_segment_violation :
    launchAnswer (launch []).admitRules .ds 0x7FFFFFFFFFF8#64 16 .read = none ∧
    (misaligned .anyAddress 0x7FFFFFFFFFF8#64 = false ∧
      linearAddress { launch [] with gpr := State.reset.gpr.set 0 0x7FFFFFFFFFF8#64 } opd = 0x7FFFFFFFFFF8#64 ∧
      canonical .la48 (byteAddress .mode64 0x7FFFFFFFFFF8#64 7) = true ∧
      canonical .la48 (byteAddress .mode64 0x7FFFFFFFFFF8#64 8) = false) ∧
    segOffset { flat with limit := 0x100F#32 } (byteAddress .mode32 0x1000#64 15) = 0x100F ∧
    ({ flat with limit := 0x100E#32 } : Segment).limit.toNat <
      segOffset { flat with limit := 0x100E#32 } (byteAddress .mode32 0x1000#64 15) ∧
    ({ flat with readable := false } : Segment).readable = false := by decide

/-- The device region and the read-protected region of the next witness. -/
def regionsAt (a : Nat) (v : RegionVerdict) : List Region := [{ base := a, size := 1, onRead := v, onFetch := v }]

/-- The last byte of an operand decides: a region's page fault, a device, an absent byte; all earlier bytes are ok. An
operand that passes the top of mode64's address space by one byte. -/
theorem witness_first_unadmitted :
    (∀ j, j < 16 → segmentAdmits (launch []) .ds .read (byteAddress .mode64 0x1000#64 j) = true) ∧
    (∀ j, j < 15 → byteVerdict { launch [] with regions := regionsAt 0x100F .device } .read (0x1000 + j) = .ok) ∧
    regionVerdict (regionsAt 0x100F .device) .read 0x100F = .device ∧
    regionVerdict (regionsAt 0x100F (.pageFault ⟨true, true, false, false⟩)) .read 0x100F =
      .pageFault ⟨true, true, false, false⟩ ∧
    (∀ j, j < 15 → byteVerdict (launch []) .read (0x1021 + j) = .ok) ∧
    regionVerdict (launch []).regions .read 0x1030 = .allow ∧
    Memory.byte? (launch []).mem 0x1030 = none ∧
    ((∀ j, j < 16 → segmentAdmits (launch []) .ds .read (byteAddress .mode64 0xFFFFFFFFFFFFFFF1#64 j) = true) ∧
      linearAddress { launch [] with gpr := State.reset.gpr.set 0 0xFFFFFFFFFFFFFFF1#64 } opd = 0xFFFFFFFFFFFFFFF1#64 ∧
      misaligned .anyAddress 0xFFFFFFFFFFFFFFF1#64 = false ∧
      launchAnswer (launch []).admitRules .ds 0xFFFFFFFFFFFFFFF1#64 16 .read = none ∧
      (0xFFFFFFFFFFFFFFF1#64).toNat + 16 > 2 ^ Config.addressBits .mode64 ∧
      (0xFFFFFFFFFFFFFFF0#64).toNat + 16 ≤ 2 ^ Config.addressBits .mode64) := by decide

/-- A register form and a memory form that fault. -/
theorem witness_exec_fault :
    exec (.shufpd 1 (.reg 2) 1#8) { launch [] with cr0 := 0x8#64 } = .fault .nm ∧
    exec (.shufpd 1 (.mem { opd with base := some 7 }) 1#8) (launch []) = .fault .gp0 :=
  ⟨eq_fault (by decide), eq_fault (by decide)⟩

/-- A line for 16-byte reads, met and not met: by segment, size, kind and address; the five answers, the last one where
the operand runs past the allocated bytes. -/
theorem witness_launch_answers :
    launchAnswer (answering .ok).admitRules .ds 0x1000#64 16 .read = some .ok ∧
    launchAnswer (answering .ok).admitRules .ss 0x1000#64 16 .read = none ∧
    launchAnswer (answering .ok).admitRules .ds 0x1000#64 32 .read = none ∧
    launchAnswer (answering .ok).admitRules .ds 0x1000#64 16 .fetch = none ∧
    launchAnswer (answering .ok).admitRules .ds 0xFFF#64 16 .read = none ∧
    exec (.shufpd 1 (.mem opd) 1#8) (answering .ss0) = .fault .ss0 ∧
    exec (.shufpd 1 (.mem opd) 1#8) (answering .gp0) = .fault .gp0 ∧
    exec (.shufpd 1 (.mem opd) 1#8) (answering (.pageFault ⟨true, true, false, true⟩ 0x1008#64)) =
      .fault (.pf ⟨true, true, false, true⟩ .read 0x1008#64) ∧
    launchAnswer (answering .refuse).admitRules .ds 0x1000#64 16 .read = some .refuse ∧
    (∃ t, exec (.shufpd 1 (.mem opd) 1#8) (answering .ok) = .next t) ∧
    launchAnswer (answering .ok).admitRules .ds 0x1030#64 16 .read = some .ok ∧
    Memory.byte? (answering .ok).mem 0x1030 = none :=
  ⟨by decide, by decide, by decide, by decide, by decide, eq_fault (by decide), eq_fault (by decide),
    eq_fault (by decide), by decide, exists_next (by decide), by decide, by decide⟩

/-- A region of mode64 at `pc` that no step may fetch from, and the code of one instruction in it. -/
def guarded (v : RegionVerdict) : State :=
  { launch [0xC5#8, 0xF9#8, 0xC6#8, 0xC0#8, 0x02#8] with regions := regionsAt 0x400000 v }

/-- The byte at `pc`: not canonical; outside CS in mode32; page-protected; a device; absent (V73). -/
theorem witness_fetch_fault :
    segmentAdmits { launch [] with pc := 0x800000000000#64 } .cs .fetch 0x800000000000 = false ∧
    segmentAdmits { launch32 [] with segs := { (launch32 []).segs with cs := { flat with executable := false } } } .cs
      .fetch 0x400000 = false ∧
    fetchLength (guarded .device) = 5 ∧
    (∀ j, j < 5 → segmentAdmits (guarded .device) .cs .fetch (0x400000 + j) = true) ∧
    regionVerdict (guarded (.pageFault ⟨true, false, false, false⟩)).regions .fetch 0x400000 =
      .pageFault ⟨true, false, false, false⟩ ∧
    regionVerdict (guarded .device).regions .fetch 0x400000 = .device ∧
    admits (guarded .device) .cs 0x400000#64 5 .fetch = .refuse .deviceRegion ∧
    regionVerdict (launch []).regions .fetch 0x400000 = .allow ∧ Memory.byte? (launch []).mem 0x400000 = none ∧
    fetchLength (launch []) = 1 ∧ launchAnswer (launch []).admitRules .cs 0x400000#64 1 .fetch = none ∧
    (launch []).pc ≠ (launch []).endPc ∧ (launch []).mode ≠ .realAddress ∧
    (launch []).pc.toNat < 2 ^ Config.addressBits (launch []).mode := by decide

/-- The first two bytes of an instruction at the top of mode64's address space. -/
def straddling : State :=
  { launch [] with pc := 0xFFFFFFFFFFFFFFFE#64, mem := cells 0xFFFFFFFFFFFFFFFE [0x66#8, 0x0F#8] }

theorem witness_fetch_wraps :
    straddling.pc.toNat + (fetchBytes straddling).length = 2 ^ Config.addressBits straddling.mode ∧
    decode .mode64 .ignore (fetchBytes straddling) = .truncated ∧
    admits straddling .cs straddling.pc (fetchBytes straddling).length .fetch = .ok ∧
    straddling.pc ≠ straddling.endPc := by decide

/-- Four bytes of `66 0F C6 CA 01` at `pc`, the fifth absent; all five, the first protected. -/
theorem witness_cut_off :
    (Instr.shufpd 1 (.reg 2) 1#8).wf .mode64 .ignore = true ∧
    encodeStyled .mode64 EncodingStyle.short (.shufpd 1 (.reg 2) 1#8) = [0x66#8, 0x0F#8, 0xC6#8, 0xCA#8, 0x01#8] ∧
    (∀ j, j < 4 → Memory.byte? (launch [0x66#8, 0x0F#8, 0xC6#8, 0xCA#8]).mem (0x400000 + j) =
        [0x66#8, 0x0F#8, 0xC6#8, 0xCA#8, 0x01#8][j]?) ∧
    Memory.byte? (launch [0x66#8, 0x0F#8, 0xC6#8, 0xCA#8]).mem 0x400004 = none ∧
    admits (launch [0x66#8, 0x0F#8, 0xC6#8, 0xCA#8]) .cs 0x400000#64 5 .fetch =
      .fault (.pf (launch []).absentCause .fetch 0x400004#64) ∧
    encodeStyled .mode64 EncodingStyle.short (.vshufpd128 0 0 (.reg 0) 2#8) =
      [0xC5#8, 0xF9#8, 0xC6#8, 0xC0#8, 0x02#8] ∧
    (∀ j, j < 5 → Memory.byte? (guarded .device).mem (0x400000 + j) =
        [0xC5#8, 0xF9#8, 0xC6#8, 0xC0#8, 0x02#8][j]?) ∧
    admits (guarded (.pageFault ⟨true, false, false, false⟩)) .cs 0x400000#64 5 .fetch =
      .fault (.pf ⟨true, false, false, false⟩ .fetch 0x400000#64) := by decide

/-- Fifteen repeat prefixes. -/
theorem witness_overlong :
    (fetchBytes (launch (List.replicate 15 0xF2#8))).length = 15 ∧
    decode .mode64 .ignore (fetchBytes (launch (List.replicate 15 0xF2#8))) = .truncated ∧
    admits (launch (List.replicate 15 0xF2#8)) .cs 0x400000#64 15 .fetch = .ok ∧
    (launch (List.replicate 15 0xF2#8)).pc ≠ (launch (List.replicate 15 0xF2#8)).endPc := by decide

theorem witness_real_mode : State.reset.mode = .realAddress ∧ State.reset.pc ≠ State.reset.endPc := by decide

/-- An instruction that ends at the top of the address space of mode32, and one at 400000H. -/
theorem witness_step_runs :
    ((launch [0xC5#8, 0xF9#8, 0xC6#8, 0xC0#8, 0x02#8]).pc ≠ (launch [0xC5#8, 0xF9#8, 0xC6#8, 0xC0#8, 0x02#8]).endPc ∧
      decode .mode64 .ignore [0xC5#8, 0xF9#8, 0xC6#8, 0xC0#8, 0x02#8] = .ok ⟨.vshufpd128 0 0 (.reg 0) 2#8, 5⟩ ∧
      admits (launch [0xC5#8, 0xF9#8, 0xC6#8, 0xC0#8, 0x02#8]) .cs 0x400000#64 5 .fetch = .ok ∧
      ∀ j, j < 5 → Memory.byte? (launch [0xC5#8, 0xF9#8, 0xC6#8, 0xC0#8, 0x02#8]).mem (0x400000 + j) =
        [0xC5#8, 0xF9#8, 0xC6#8, 0xC0#8, 0x02#8][j]?) ∧
    (admits { launch32 [] with pc := 0xFFFFFFFB#64, mem := cells 0xFFFFFFFB [0xC5#8, 0xF9#8, 0xC6#8, 0xC0#8, 0x02#8] }
        .cs 0xFFFFFFFB#64 5 .fetch = .ok ∧ (0xFFFFFFFB#64).toNat + 5 ≤ 2 ^ Config.addressBits .mode32) := by decide

/-- Bytes that settle a refusal and #UD, TS clear and set: the fewest on which the decoder answers. -/
theorem witness_step_stops :
    decode .mode64 .ignore [0x66#8, 0x66#8] = .refused .repeatedPrefix ∧
    (∀ k, k < 2 → decode .mode64 .ignore ([0x66#8, 0x66#8].take k) = .truncated) ∧
    (∀ j, j < 2 → Memory.byte? (launch [0x66#8, 0x66#8]).mem (0x400000 + j) = [0x66#8, 0x66#8][j]?) ∧
    admits (launch [0x66#8, 0x66#8]) .cs 0x400000#64 2 .fetch = .ok ∧
    decode .mode64 .ignore [0x48#8, 0xC5#8] = .ud ∧
    (∀ k, k < 2 → decode .mode64 .ignore ([0x48#8, 0xC5#8].take k) = .truncated) ∧
    admits (launch [0x48#8, 0xC5#8]) .cs 0x400000#64 2 .fetch = .ok ∧
    admits { launch [0x48#8, 0xC5#8] with cr0 := 0x8#64 } .cs 0x400000#64 2 .fetch = .ok ∧
    faultIs (step (launch [0x48#8, 0xC5#8])) .ud = true := by decide

theorem witness_at_end : ({ launch [] with endPc := 0x400000#64 } : State).pc = ({ launch [] with endPc := 0x400000#64 } : State).endPc := by
  decide

/-- States with the invariant, in both modes. -/
theorem witness_inv : (launch [0xC5#8]).Inv ∧ (launch32 [0xC5#8]).Inv :=
  ⟨⟨by decide, by decide⟩, ⟨by decide, by decide⟩⟩

/-- P1: a run of two steps none of which is at END. -/
theorem witness_run :
    (∃ t, RunsTo 2 (launch [0x66#8, 0x0F#8, 0xC6#8, 0xC0#8, 0x01#8, 0x66#8, 0x0F#8, 0xC6#8, 0xC0#8, 0x01#8]) t) :=
  exists_next (o := Host.Core.run Sys2Proof.core 2
    (launch [0x66#8, 0x0F#8, 0xC6#8, 0xC0#8, 0x01#8, 0x66#8, 0x0F#8, 0xC6#8, 0xC0#8, 0x01#8])) (by decide)

/-- The bytes of two swaps of register 0. -/
def twoSwaps : List (List Byte) :=
  [[0x66#8, 0x0F#8, 0xC6#8, 0xC0#8, 0x01#8], [0x66#8, 0x0F#8, 0xC6#8, 0xC0#8, 0x01#8]]

/-- P1 as a whole program: END right after its two instructions. -/
def swapLaunch : State := { launch twoSwaps.flatten with endPc := 0x40000A#64 }

/-- A program that is ready for all its steps, from its address on. -/
theorem witness_program :
    swapLaunch.mode ≠ .realAddress ∧ swapLaunch.endPc.toNat < 2 ^ Config.addressBits swapLaunch.mode ∧
    ProgramAt swapLaunch swapLaunch.pc.toNat twoSwaps ∧ ReadyAt swapLaunch swapLaunch.pc.toNat twoSwaps := by
  have hd : decode swapLaunch.mode swapLaunch.imm8Policy [0x66#8, 0x0F#8, 0xC6#8, 0xC0#8, 0x01#8] =
      .ok ⟨.shufpd 0 (.reg 0) 1#8, 5⟩ := by decide
  have hr : ∀ (a : Word64) (d : Decoded),
      decode swapLaunch.mode swapLaunch.imm8Policy [0x66#8, 0x0F#8, 0xC6#8, 0xC0#8, 0x01#8] = .ok d →
      FormReady swapLaunch d.instr ∧ OperandReady { swapLaunch with pc := nextPc swapLaunch.mode a d.len } d.instr := by
    intro a d h
    cases DecodeResult.ok.inj (hd.symm.trans h)
    exact ⟨⟨by decide, by decide, by decide⟩, trivial⟩
  exact ⟨by decide, by decide,
    ⟨⟨_, hd, rfl⟩, by decide, ⟨_, hd, rfl⟩, by decide, rfl⟩,
    ⟨by decide, hr _, by decide, hr _, trivial⟩⟩

/-- The launch of P1 meets the launch premises. -/
theorem witness_launch_premises : LaunchPremises swapLaunch where
  form := ⟨by decide, by decide⟩
  modeInScope := by decide
  endAfterPc := by decide
  programBytes := by
    have h : ∀ k, k < 10 → (Memory.byte? swapLaunch.mem (0x400000 + k)).isSome = true := by decide
    intro a ha hb
    have ha' : 0x400000 ≤ a := ha
    have hb' : a < 0x40000A := hb
    have := h (a - 0x400000) (by omega)
    rwa [show 0x400000 + (a - 0x400000) = a by omega] at this

theorem witness_launched_word : decodeTableWord 32 0xC40105C6 =
    some (.vshufpd256 8 15 (.mem { opd with base := some 8 }) 0#8) := by decide

/-- A table word from reset: END is the byte after the instruction, and OSXSAVE shows in CPUID (R181). -/
theorem test_launched_word :
    (State.reset.withFetchWord 24 0x660FC6).endPc = 0xFFF5#64 ∧
    (State.reset.withFetchWord 24 0x660FC6).cpuid.leaf1Ecx = 0x18000000#32 ∧
    nextIs (step (State.reset.withFetchWord 24 0x660FC6)) State.final = true := by decide

end Sys2Proof.Machine.Tests
end

section
/-! PROOFS. The scope of the spec (00_scope.md): real-address mode is refused before anything else is looked at (R3, D5),
and the launch's `ADMITS` can be any total function (R4), here tabulated one line per access. -/

namespace Sys2Proof.Machine

/-! ### Real-address mode -/

/-- Every form runs the enabling checks of R107 before anything else, so that their fault or refusal is its own. -/
theorem exec_eq_andThen_checkEnabled (i : Instr) (s : State) :
    ∃ body, exec i s = andThen (checkEnabled (formEnabled s i) s) body := by
  cases i with
  | shufpd => exact ⟨_, rfl⟩
  | vshufpd128 => exact ⟨_, rfl⟩
  | vshufpd256 => exact ⟨_, rfl⟩

theorem exec_realAddress {s : State} (h : s.mode = .realAddress) (i : Instr) :
    exec i s = .refused .modeOutOfScope := by
  obtain ⟨body, hbody⟩ := exec_eq_andThen_checkEnabled i s
  rw [hbody, checkEnabled_eq_refused_iff.2 ⟨h, rfl⟩, andThen_refused]

theorem fetchDecode_realAddress {s : State} (h : s.mode = .realAddress) :
    fetchDecode s = .refused .modeOutOfScope := by
  simp [fetchDecode, h]

theorem step_realAddress {s : State} (h : s.mode = .realAddress) (hpc : s.pc ≠ s.endPc) :
    step s = .refused .modeOutOfScope := by
  rw [step_running hpc, fetchDecode_realAddress h, andThen_refused]

/-- Settles O44: the fetch refuses the mode before it asks `ADMITS`, exec before it looks at the feature bits. -/
theorem realAddressModeIsRefused : Obligations.RealAddressModeIsRefused :=
  fun _ h => ⟨step_realAddress h, exec_realAddress h⟩

/-! ### Launch data for a given `ADMITS` -/

section Lines

variable {f : Seg → Word64 → Nat → AccessKind → AdmitAnswer} {g : Seg} {lin : Word64} {n : Nat} {k : AccessKind}

/-- A line speaks of an access that each of its conditions admits. -/
theorem AdmitRule.speaksOf_iff {r : AdmitRule} :
    r.speaksOf g lin n k = true ↔ r.seg.all (· == g) = true ∧ r.kind.all (· == k) = true ∧
      r.size.all (· == n) = true ∧ r.first ≤ lin.toNat ∧ lin.toNat ≤ r.last := by
  simp only [AdmitRule.speaksOf, Bool.and_eq_true, decide_eq_true_eq, and_assoc]

/-- The first line that speaks of an access answers for it. -/
theorem launchAnswer_cons (r : AdmitRule) (rs : List AdmitRule) :
    launchAnswer (r :: rs) g lin n k =
      if r.speaksOf g lin n k then some r.answer else launchAnswer rs g lin n k := by
  cases h : r.speaksOf g lin n k <;> simp [launchAnswer, h]

/-- A state given other lines answers as they do, and what the answer stands for is the state's own. -/
theorem admits_admitRules_of_answer {s : State} {rules : List AdmitRule} {a : AdmitAnswer}
    (h : launchAnswer rules g lin n k = some a) :
    admits { s with admitRules := rules } g lin n k = answerVerdict s lin n k a :=
  admits_of_answer (s := { s with admitRules := rules }) h

/-- The four arguments of `ADMITS(seg, lin, n, kind)` (R4). -/
structure Access where
  seg  : Seg
  lin  : Word64
  size : Nat
  kind : AccessKind

/-- The line of the launch's `ADMITS` that answers `f` for one access and speaks of no other. -/
def Access.rule (f : Seg → Word64 → Nat → AccessKind → AdmitAnswer) (x : Access) : AdmitRule :=
  { seg := some x.seg, kind := some x.kind, size := some x.size, first := x.lin.toNat, last := x.lin.toNat
    answer := f x.seg x.lin x.size x.kind }

theorem Access.rule_speaksOf_iff {x : Access} : (x.rule f).speaksOf g lin n k = true ↔ x = ⟨g, lin, n, k⟩ := by
  have hlin : x.lin = lin ↔ x.lin.toNat ≤ lin.toNat ∧ lin.toNat ≤ x.lin.toNat := by
    rw [← BitVec.toNat_inj, Nat.le_antisymm_iff]
  rw [AdmitRule.speaksOf_iff]
  simp only [Access.rule, Option.all_some, beq_iff_eq, ← hlin]
  constructor
  · rintro ⟨rfl, rfl, rfl, rfl⟩
    rfl
  · rintro rfl
    exact ⟨rfl, rfl, rfl, rfl⟩

/-- Lines made for a list of accesses answer as `f` does for each of them. -/
theorem launchAnswer_map_rule {xs : List Access} (hx : ⟨g, lin, n, k⟩ ∈ xs) :
    launchAnswer (xs.map (Access.rule f)) g lin n k = some (f g lin n k) := by
  induction xs with
  | nil => cases hx
  | cons x xs ih =>
    rw [List.map_cons, launchAnswer_cons]
    by_cases h : x = ⟨g, lin, n, k⟩
    · rw [if_pos (Access.rule_speaksOf_iff.2 h), h, Access.rule]
    · rw [if_neg (mt Access.rule_speaksOf_iff.1 h)]
      exact ih ((List.mem_cons.1 hx).resolve_left (Ne.symm h))

end Lines

/-- Every linear address; a list to reason about, too long to run. -/
noncomputable def allAddresses : List Word64 := (List.range (2 ^ 64)).map (BitVec.ofNat 64)

theorem mem_allAddresses (lin : Word64) : lin ∈ allAddresses :=
  List.mem_map.2 ⟨lin.toNat, List.mem_range.2 lin.isLt, by simp⟩

/-- Every access of at most `sizeMax` bytes. -/
noncomputable def accessesUpTo (sizeMax : Nat) : List Access :=
  [Seg.es, .cs, .ss, .ds, .fs, .gs].flatMap fun g =>
    allAddresses.flatMap fun lin =>
      (List.range (sizeMax + 1)).flatMap fun n =>
        [AccessKind.read, .fetch].map fun k => ⟨g, lin, n, k⟩

theorem mem_accessesUpTo {sizeMax n : Nat} (hn : n ≤ sizeMax) (g : Seg) (lin : Word64) (k : AccessKind) :
    ⟨g, lin, n, k⟩ ∈ accessesUpTo sizeMax := by
  have hg : g ∈ [Seg.es, .cs, .ss, .ds, .fs, .gs] := by cases g <;> decide
  have hk : k ∈ [AccessKind.read, .fetch] := by cases k <;> decide
  exact List.mem_flatMap.2 ⟨g, hg, List.mem_flatMap.2 ⟨lin, mem_allAddresses lin,
    List.mem_flatMap.2 ⟨n, List.mem_range.2 (Nat.lt_succ_of_le hn), List.mem_map.2 ⟨k, hk, rfl⟩⟩⟩⟩

/-- Settles O55: the launch lists `f`, one line per access of at most 32 bytes. -/
theorem everyAdmitsCanBeLaunched : Obligations.EveryAdmitsCanBeLaunched := by
  unfold Obligations.EveryAdmitsCanBeLaunched
  intro s f
  refine ⟨(accessesUpTo 32).map (Access.rule f), fun g lin n k hn => ?_⟩
  exact admits_admitRules_of_answer (launchAnswer_map_rule (mem_accessesUpTo hn g lin k))

end Sys2Proof.Machine
end

section
/-! PROOFS. The state (10_state.md): what a form, a step and a run leave as it was (R22), the state a form does not look
at (R11, R15, R16), the values after reset (R21), and the registers a decoded instruction can name (R12, R13). -/

namespace Sys2Proof

/-- The register that holds the first source: the destination itself in the legacy form (R102 to R104). -/
def Instr.firstSource : Instr → VReg
  | .shufpd d _ _ => d
  | .vshufpd128 _ a _ _ => a
  | .vshufpd256 _ a _ _ => a

end Sys2Proof

namespace Sys2Proof.Machine

/-! ### Frames (R22) -/

theorem State.writeYmm_onlyRegisterWritten (s : State) (i : VReg) (v : Ymm) :
    OnlyRegisterWritten s (s.writeYmm i v) i :=
  ⟨s.writeYmm_only_ymm i v, fun r hr => s.ymmReg_writeYmm_other i r v hr, fun _ => rfl⟩

theorem exec_onlyRegisterWritten {i : Instr} {s t : State} (h : exec i s = .next t) :
    OnlyRegisterWritten s t i.dst := by
  obtain ⟨_, v, rfl, _, _⟩ := exec_next_cases h
  exact s.writeYmm_onlyRegisterWritten i.dst v

/-- The legacy form keeps bits 255:128 of its destination (R11). -/
theorem exec_shufpd_highLane {d : VReg} {o : RM} {k : Byte} {s t : State} (h : exec (.shufpd d o k) s = .next t) :
    highLane (t.ymmReg d) = highLane (s.ymmReg d) := by
  obtain ⟨_, v, rfl, hkeep, _⟩ := exec_next_cases h
  simpa [Instr.dst] using hkeep ⟨d, o, k, rfl⟩

/-- Settles O27, from the one write that exec makes. -/
theorem execWritesOnlyTheDestination : Obligations.ExecWritesOnlyTheDestination := by
  unfold Obligations.ExecWritesOnlyTheDestination
  intro i s t h
  refine ⟨exec_onlyRegisterWritten h, ?_⟩
  rintro ⟨d, o, k, rfl⟩
  exact exec_shufpd_highLane h

theorem SameButVectors.pc_eq {s t : State} (h : SameButVectors s t) : t.pc = s.pc := by
  rw [show t = { s with ymm := t.ymm } from h]

/-- What differs from the advanced state in vector registers differs from the state in them and `pc`. -/
theorem SameButVectors.of_advance {s t : State} {n : Nat} (h : SameButVectors (s.advance n) t) :
    SameButVectorsPc s t := by
  unfold SameButVectorsPc
  rw [show t = { s.advance n with ymm := t.ymm } from h]
  rfl

/-- Settles O28: the frame of exec, moved from the advanced state to the state before the step. -/
theorem stepWritesOnlyDestinationAndPc : Obligations.StepWritesOnlyDestinationAndPc := by
  unfold Obligations.StepWritesOnlyDestinationAndPc
  intro s t hpc h
  rcases step_next_cases h with ⟨hend, _⟩ | ⟨_, d, hd, hexec⟩
  · exact absurd hend hpc
  · obtain ⟨hsame, hregs, hmem⟩ := exec_onlyRegisterWritten hexec
    exact ⟨d, hd, hsame.pc_eq, hsame.of_advance, hregs, hmem⟩

/-! ### Runs -/

theorem SameButVectorsPc.refl (s : State) : SameButVectorsPc s s := rfl

theorem SameButVectorsPc.trans {s t u : State} (hst : SameButVectorsPc s t) (htu : SameButVectorsPc t u) :
    SameButVectorsPc s u := by
  unfold SameButVectorsPc at *
  rw [htu, hst]

/-- At END or away from it, a step changes vector registers and `pc` only. -/
theorem step_sameButVectorsPc {s t : State} (h : step s = .next t) : SameButVectorsPc s t := by
  rcases step_next_cases h with ⟨_, rfl⟩ | ⟨_, d, _, hexec⟩
  · exact .refl t
  · obtain ⟨hsame, _, _⟩ := exec_onlyRegisterWritten hexec
    exact hsame.of_advance

/-- Settles O51, by induction on the number of steps. -/
theorem runsChangeOnlyVectorsAndPc : Obligations.RunsChangeOnlyVectorsAndPc := by
  unfold Obligations.RunsChangeOnlyVectorsAndPc
  intro k
  induction k with
  | zero =>
    intro s t h
    rw [runsTo_zero.1 h]
    exact .refl t
  | succ k ih =>
    intro s t h
    obtain ⟨u, hstep, hrun⟩ := runsTo_succ.1 h
    exact (step_sameButVectorsPc hstep).trans (ih u t hrun)

/-! ### High lanes (R11) -/

/-- R102 and R103 say the same of bits 127:0 of the destination. -/
theorem exec_next_xmmReg_dst {i : Instr} {s t : State} (hi : ∀ d a o k, i ≠ .vshufpd256 d a o k)
    (h : exec i s = .next t) :
    ∃ b, source128 i.alignRule i.rm s = .next b ∧
      t.xmmReg i.dst = shuf128 (s.xmmReg i.firstSource) b (i.imm.getLsbD 0) (i.imm.getLsbD 1) := by
  cases i with
  | shufpd d o k =>
    obtain ⟨_, _, h⟩ := andThen_eq_next_iff.1 (show execShufpd d o k s = _ from h)
    obtain ⟨b, hb, h⟩ := andThen_eq_next_iff.1 h
    cases h
    exact ⟨b, hb, by simp [State.xmmReg, Instr.dst, Instr.firstSource, Instr.imm]⟩
  | vshufpd128 d a o k =>
    obtain ⟨_, _, h⟩ := andThen_eq_next_iff.1 (show execVshufpd128 d a o k s = _ from h)
    obtain ⟨b, hb, h⟩ := andThen_eq_next_iff.1 h
    cases h
    exact ⟨b, hb, by simp [State.xmmReg, Instr.dst, Instr.firstSource, Instr.imm]⟩
  | vshufpd256 d a o k => exact absurd rfl (hi d a o k)

/-- A 128-bit second source depends on bits 127:0 of the vector registers only. -/
theorem source128_ymm_of_lowLanes {s : State} {v : Vector Ymm 16} (hv : ∀ r : VReg, lowLane (v.get r) = s.xmmReg r)
    (al : AlignRule) (o : RM) : source128 al o { s with ymm := v } = source128 al o s := by
  cases o with
  | reg r => exact congrArg Host.Outcome.next (hv r)
  | mem m => simp only [source128, readMem_ymm]

/-- Settles O25: the destination is a function of the first source's low lane and the second source. -/
theorem highLanesOfSourcesAreNotRead : Obligations.HighLanesOfSourcesAreNotRead := by
  unfold Obligations.HighLanesOfSourcesAreNotRead
  intro s v i t u hi hv ht hu
  obtain ⟨b, hb, ht⟩ := exec_next_xmmReg_dst hi ht
  obtain ⟨c, hc, hu⟩ := exec_next_xmmReg_dst hi hu
  have hbc : b = c := by
    rw [source128_ymm_of_lowLanes hv, hb] at hc
    exact Host.Outcome.next.inj hc
  have hfirst : State.xmmReg { s with ymm := v } i.firstSource = s.xmmReg i.firstSource := hv _
  rw [ht, hu, hbc, hfirst]

/-! ### EFLAGS, MXCSR and CR2 (R15, R16) -/

/-- The state with other values in the three registers no form looks at. -/
def State.withFlags (s : State) (f : Word64) (x : BitVec 32) (c : Word64) : State :=
  { s with rflags := f, mxcsr := x, cr2 := c }

section Flags

variable (s : State) (f : Word64) (x : BitVec 32) (c : Word64)

/-- Address, alignment, `ADMITS` and memory look at none of the three. -/
theorem readMem_withFlags (al : AlignRule) (n : Nat) (m : MemOperand) :
    readMem al n m (s.withFlags f x c) = readMem al n m s := rfl

theorem source128_withFlags (al : AlignRule) (o : RM) : source128 al o (s.withFlags f x c) = source128 al o s := by
  cases o with
  | reg r => rfl
  | mem m => simp only [source128, readMem_withFlags]

theorem source256_withFlags (o : RM) : source256 o (s.withFlags f x c) = source256 o s := by
  cases o with
  | reg r => rfl
  | mem m => simp only [source256, readMem_withFlags]

theorem checkEnabled_withFlags (e : Bool) : checkEnabled e (s.withFlags f x c) = checkEnabled e s := rfl

end Flags

theorem andThen_assoc {α β γ : Type} (x : Result α) (f : α → Result β) (g : β → Result γ) :
    andThen (andThen x f) g = andThen x fun a => andThen (f a) g := by
  cases x <;> rfl

/-- A form's checks and sources are the same with other flags, and its write leaves them. -/
theorem exec_withFlags (i : Instr) (s : State) (f : Word64) (x : BitVec 32) (c : Word64) :
    exec i (s.withFlags f x c) = andThen (exec i s) fun t => .next (t.withFlags f x c) := by
  cases i with
  | shufpd d o k =>
    simp only [exec, execShufpd, checkEnabled_withFlags, source128_withFlags, andThen_assoc, andThen_next]
    rfl
  | vshufpd128 d a o k =>
    simp only [exec, execVshufpd128, checkEnabled_withFlags, source128_withFlags, andThen_assoc, andThen_next]
    rfl
  | vshufpd256 d a o k =>
    simp only [exec, execVshufpd256, checkEnabled_withFlags, source256_withFlags, andThen_assoc, andThen_next]
    rfl

/-- Settles O29, part by part of the envelope of R107. -/
theorem flagsAndMxcsrAreNeitherReadNorWritten : Obligations.FlagsAndMxcsrAreNeitherReadNorWritten :=
  exec_withFlags

/-! ### Reset (R21) -/

theorem State.reset_xmmReg (r : VReg) : State.reset.xmmReg r = 0#128 := by
  have hymm : State.reset.ymmReg r = 0#256 := by simp [State.ymmReg, State.reset, Vector.get_eq_getElem]
  rw [State.xmmReg, hymm]
  decide

theorem State.reset_gpr {g : GReg} (hg : g ≠ 2) : State.reset.gpr.get g = 0#64 := by
  have hne : (2 : Nat) ≠ g.val := fun e => hg (Fin.ext e.symm)
  simp [State.reset, Vector.get_eq_getElem, Vector.getElem_set_ne _ _ hne]

/-- Settles O50: the fields as they stand, and R3 for the first step. -/
theorem resetLeavesTheTabledValues : Obligations.ResetLeavesTheTabledValues :=
  ⟨State.reset_xmmReg, rfl, rfl, rfl, rfl, rfl, rfl, rfl, rfl, fun _ => State.reset_gpr, rfl, rfl, rfl, rfl, rfl,
    step_realAddress rfl (by decide)⟩

end Sys2Proof.Machine

namespace Sys2Proof

/-! ### The registers and operands a decoded instruction names (R12, R13, R57 to R59, R65) -/

/-- An extension bit the mode can give a register number: in `mode32` only 0 (R56, R65). -/
def extBitFits (m : Mode) (hi : Bool) : Prop := m = .mode64 ∨ (m = .mode32 ∧ hi = false)

/-- The extension bits are ones the prefixes of the mode can give. -/
structure Ext.FitsMode (m : Mode) (e : Ext) : Prop where
  r : extBitFits m e.r
  x : extBitFits m e.x
  b : extBitFits m e.b

theorem Ext.fitsMode_mode64 (e : Ext) : e.FitsMode .mode64 := ⟨.inl rfl, .inl rfl, .inl rfl⟩

theorem Ext.zero_fitsMode {m : Mode} (hm : m ≠ .realAddress) : Ext.zero.FitsMode m := by
  cases m with
  | mode64 => exact Ext.fitsMode_mode64 _
  | mode32 => exact ⟨.inr ⟨rfl, rfl⟩, .inr ⟨rfl, rfl⟩, .inr ⟨rfl, rfl⟩⟩
  | realAddress => exact absurd rfl hm

/-- A VEX form's first source is a register the mode reaches (R65). -/
def Form.wf (m : Mode) : Form → Bool
  | .legacy => true
  | .vex128 a => VReg.wf m a
  | .vex256 a => VReg.wf m a

/-- A register number with an extension bit that can be set in `mode64` only is one the mode reaches. -/
theorem VReg.wf_regNum {m : Mode} {hi : Bool} (lo : BitVec 3) (h : extBitFits m hi) :
    VReg.wf m (regNum hi lo) = true := by
  rcases h with rfl | ⟨rfl, rfl⟩
  · simp [VReg.wf, Config.numVregs]
  · simpa [VReg.wf, Config.numVregs, regNum] using lo.isLt

theorem GReg.wf_regNum {m : Mode} {hi : Bool} (lo : BitVec 3) (h : extBitFits m hi) :
    GReg.wf m (regNum hi lo) = true := by
  rcases h with rfl | ⟨rfl, rfl⟩
  · rfl
  · simpa [GReg.wf, regNum] using lo.isLt

section Parse

variable {m : Mode} {e : Ext}

/-- `0F C6` after `66` is the legacy form, with the extension bits given. -/
theorem parseLegacyOpcode_fits {p : Prefixes} {f : Form} {e' : Ext} {bs rest : List Byte} (he : e.FitsMode m)
    (h : parseLegacyOpcode p e bs = .ok ((f, e'), rest)) : f.wf m = true ∧ e'.FitsMode m := by
  unfold parseLegacyOpcode at h
  repeat' split at h
  all_goals cases h
  exact ⟨rfl, he⟩

/-- What the check of R65 lets through: in `mode32` only a first source below 8 and no extension bit. -/
theorem vexCanonical_fits {a : VReg} (hm : m ≠ .realAddress)
    (hcanon : ¬(m = .mode32 ∧ (e ≠ Ext.zero ∨ 8 ≤ a.val))) : VReg.wf m a = true ∧ e.FitsMode m := by
  cases m with
  | mode64 => exact ⟨decide_eq_true a.isLt, Ext.fitsMode_mode64 e⟩
  | mode32 =>
    simp only [true_and, not_or, not_not, not_le] at hcanon
    obtain ⟨rfl, ha⟩ := hcanon
    exact ⟨decide_eq_true ha, Ext.zero_fitsMode hm⟩
  | realAddress => exact absurd rfl hm

theorem parseVexOpcode_fits {mmmmm : BitVec 5} {last : Byte} {f : Form} {e' : Ext} {bs rest : List Byte}
    (hm : m ≠ .realAddress) (h : parseVexOpcode m mmmmm e last bs = .ok ((f, e'), rest)) :
    f.wf m = true ∧ e'.FitsMode m := by
  unfold parseVexOpcode at h
  split at h
  · split at h
    · cases h
    · split at h
      · by_cases hcanon : m = .mode32 ∧ (e ≠ Ext.zero ∨ 8 ≤ (vvvvNum (last.extractLsb' 3 4)).val)
        · rw [if_pos hcanon] at h
          cases h
        · rw [if_neg hcanon] at h
          cases h
          cases last.getLsbD 2 <;> exact vexCanonical_fits hm hcanon
      · cases h
  · cases h

/-- The opcode stage answers a form and extension bits that the mode has: REX is a prefix of `mode64` only, and R65
bounds VEX. -/
theorem parseOpcode_fits {p : Prefixes} {f : Form} {bs rest : List Byte} (hm : m ≠ .realAddress)
    (h : parseOpcode m p bs = .ok ((f, e), rest)) : f.wf m = true ∧ e.FitsMode m := by
  unfold parseOpcode at h
  split at h
  · cases h
  · split at h
    · -- a REX prefix, which there is in `mode64` only (R56)
      rename_i hrex
      split at h
      · cases h
      · split at h
        · cases h
        · obtain ⟨rfl, _⟩ := hrex
          exact parseLegacyOpcode_fits (Ext.fitsMode_mode64 _) h
    · split at h
      · -- `C5` or `C4`: a VEX prefix where the next byte says so (R65)
        split at h
        · cases h
        · split at h
          · cases h
          · split at h
            · split at h
              · cases h
              · split at h
                · exact parseVexOpcode_fits hm h
                · split at h
                  · cases h
                  · exact parseVexOpcode_fits hm h
            · exact parseLegacyOpcode_fits (Ext.zero_fitsMode hm) h
      · exact parseLegacyOpcode_fits (Ext.zero_fitsMode hm) h

/-- A row of R57 or R58 owes its registers and, for a RIP-relative operand, that it has no others; `asizeOf` gives the
address size the mode has (R59). -/
theorem memOperand_wf {p : Prefixes} {base index : Option GReg} {scale : Scale} {riprel : Bool} (d : BitVec 32)
    (hm : m ≠ .realAddress) (hbase : base.all (GReg.wf m) = true) (hindex : index.all (GReg.wf m) = true)
    (hne : index ≠ some 4)
    (hrip : riprel = true → m = .mode64 ∧ base = none ∧ index = none ∧ scale = .x1) :
    (memOperand m p base index scale riprel d).wf m = true := by
  cases m <;> cases riprel <;> simp_all [memOperand, MemOperand.wf, asizeOf]

/-- Register 4 is never an index (R58). -/
theorem sibIndex_ne_4 (e : Ext) (sib : Byte) : sibIndex e sib ≠ some 4 := by
  unfold sibIndex
  split
  · simp
  · rename_i h
    exact fun he => h (Option.some.inj he)

theorem sibIndex_wf (sib : Byte) (he : e.FitsMode m) : (sibIndex e sib).all (GReg.wf m) = true := by
  unfold sibIndex
  split
  · rfl
  · exact GReg.wf_regNum _ he.x

theorem sibBase_wf (md : BitVec 2) (sib : Byte) (he : e.FitsMode m) :
    (sibBase md e sib).all (GReg.wf m) = true := by
  unfold sibBase
  split
  · rfl
  · exact GReg.wf_regNum _ he.b

/-- Every row of R57 and R58 names an operand of the mode. -/
theorem parseRm_wf {p : Prefixes} {md : BitVec 2} {rm : BitVec 3} {o : RM} {bs rest : List Byte}
    (hm : m ≠ .realAddress) (he : e.FitsMode m) (h : parseRm m p e md rm bs = .ok (o, rest)) : o.wf m = true := by
  have hbreg : GReg.wf m (regNum e.b rm) = true := GReg.wf_regNum rm he.b
  unfold parseRm at h
  split at h
  · cases h
    exact VReg.wf_regNum rm he.b
  · split at h
    · split at h
      · cases h
      · obtain ⟨⟨d, u⟩, _, h⟩ := DecodeResult.andThen_eq_ok_iff.1 h
        cases h
        exact memOperand_wf d hm (sibBase_wf md _ he) (sibIndex_wf _ he) (sibIndex_ne_4 e _) (by simp)
    · split at h
      · obtain ⟨⟨d, u⟩, _, h⟩ := DecodeResult.andThen_eq_ok_iff.1 h
        cases h
        exact memOperand_wf d hm rfl rfl (by simp) (by simp)
      · obtain ⟨⟨d, u⟩, _, h⟩ := DecodeResult.andThen_eq_ok_iff.1 h
        cases h
        exact memOperand_wf d hm hbreg rfl (by simp) (by simp)

/-- The immediate stage answers the form's term, with an imm8 the policy admits (R73). -/
theorem parseImm_eq_ok {pol : Imm8Policy} {f : Form} {dst : VReg} {o : RM} {i : Instr} {bs rest : List Byte}
    (h : parseImm pol f dst o bs = .ok (i, rest)) :
    ∃ imm8, pol.admits (f.reservedZero imm8) = true ∧ i = formInstr f dst o imm8 := by
  unfold parseImm at h
  split at h
  · cases h
  · split at h
    · cases h
      exact ⟨_, ‹_›, rfl⟩
    · cases h

/-- The checks of a term are those of its form's first source, its destination, its `r/m` operand and its immediate. -/
theorem formInstr_wf {pol : Imm8Policy} {f : Form} {dst : VReg} {o : RM} {imm8 : Byte} (hm : m ≠ .realAddress)
    (hf : f.wf m = true) (hdst : VReg.wf m dst = true) (ho : o.wf m = true)
    (hi : pol.admits (f.reservedZero imm8) = true) : (formInstr f dst o imm8).wf m pol = true := by
  have hm : (m != .realAddress) = true := bne_iff_ne.2 hm
  cases f <;> simp_all [formInstr, Instr.wf, Form.wf, Form.reservedZero]

theorem parseBody_wf {pol : Imm8Policy} {p : Prefixes} {f : Form} {i : Instr} {bs rest : List Byte}
    (hm : m ≠ .realAddress) (hf : f.wf m = true) (he : e.FitsMode m)
    (h : parseBody m pol p f e bs = .ok (i, rest)) : i.wf m pol = true := by
  unfold parseBody at h
  split at h
  · cases h
  · obtain ⟨⟨o, u⟩, hrm, himm⟩ := DecodeResult.andThen_eq_ok_iff.1 h
    obtain ⟨imm8, hadmits, rfl⟩ := parseImm_eq_ok himm
    exact formInstr_wf hm hf (VReg.wf_regNum _ he.r) (parseRm_wf hm he hrm) hadmits

end Parse

theorem parseInstr_wf {m : Mode} {pol : Imm8Policy} {i : Instr} {bs rest : List Byte}
    (h : parseInstr m pol bs = .ok (i, rest)) : i.wf m pol = true := by
  unfold parseInstr at h
  split at h
  · cases h
  · rename_i hm
    obtain ⟨⟨p, t⟩, _, h⟩ := DecodeResult.andThen_eq_ok_iff.1 h
    obtain ⟨⟨⟨f, e⟩, u⟩, hop, hbody⟩ := DecodeResult.andThen_eq_ok_iff.1 h
    obtain ⟨hf, he⟩ := parseOpcode_fits hm hop
    exact parseBody_wf hm hf he hbody

/-- Settles O5, stage by stage of R71: the prefixes give extension bits the mode has, so that ModRM, SIB and `vvvv` name
registers it reaches. -/
theorem decodedInstructionsAreWellFormed : Obligations.DecodedInstructionsAreWellFormed := by
  unfold Obligations.DecodedInstructionsAreWellFormed
  intro m pol bs d h
  obtain ⟨⟨i, rest⟩, hparse, h⟩ := DecodeResult.andThen_eq_ok_iff.1 h
  cases h
  exact parseInstr_wf hparse

end Sys2Proof
end

section
/-! PROOFS. Addresses and bytes of memory (20_memory.md R30, R36, R37): the effective address as exact integer
arithmetic, the linear address and its canonical form, and the value the bytes of an access make. -/

namespace Sys2Proof.Machine

/-! ### The effective address (R36) -/

/-- The number of bits of an effective address. -/
def asizeBits : ASize → Nat
  | .a64 => 64
  | .a32 => 32

/-- What a base or index register contributes, as an integer: its value modulo 2^asize, or 0 where there is none. -/
def exactReg (s : State) (a : ASize) : Option GReg → Int
  | some i => ((s.gpr.get i).toNat % 2 ^ asizeBits a : Nat)
  | none => 0

/-- The scale factor as an integer. -/
def exactScale : Scale → Int
  | .x1 => 1
  | .x2 => 2
  | .x4 => 4
  | .x8 => 8

/-- The effective address before it is reduced, as an integer (R36). -/
def exactAddress (s : State) (m : MemOperand) : Int :=
  if m.riprel then s.pc.toNat + m.disp.toInt
  else exactReg s m.asize m.base + exactReg s m.asize m.index * exactScale m.scale + m.disp.toInt

theorem toNat_setWidth_32_64 (v : Word64) : ((v.setWidth 32).setWidth 64).toNat = v.toNat % 2 ^ 32 := by
  rw [BitVec.toNat_setWidth, BitVec.toNat_setWidth]
  omega

theorem truncAddr_toNat (a : ASize) (v : Word64) : (truncAddr a v).toNat = v.toNat % 2 ^ asizeBits a := by
  cases a with
  | a64 => exact (Nat.mod_eq_of_lt v.isLt).symm
  | a32 => exact toNat_setWidth_32_64 v

theorem gprReg_toNat (s : State) (a : ASize) (i : GReg) :
    (s.gprReg a i).toNat = (s.gpr.get i).toNat % 2 ^ asizeBits a :=
  truncAddr_toNat a (s.gpr.get i)

theorem addrReg_eq_ofInt (s : State) (a : ASize) (r : Option GReg) :
    addrReg s a r = BitVec.ofInt 64 (exactReg s a r) := by
  cases r with
  | none => rfl
  | some i => rw [exactReg, BitVec.ofInt_natCast, ← gprReg_toNat, BitVec.ofNat_toNat, BitVec.setWidth_eq, addrReg]

theorem scaleFactor_eq_ofInt (c : Scale) : scaleFactor c = BitVec.ofInt 64 (exactScale c) := by
  cases c <;> rfl

/-- Reducing a 64-bit word to the address size reduces the integer it stands for: 2^asize divides 2^64. -/
theorem truncAddr_ofInt_toNat (a : ASize) (x : Int) :
    ((truncAddr a (BitVec.ofInt 64 x)).toNat : Int) = x % (2 ^ asizeBits a : Nat) := by
  rw [truncAddr_toNat, BitVec.toNat_ofInt]
  cases a <;> simp only [asizeBits] <;> omega

theorem effectiveAddress_eq_truncAddr (s : State) (m : MemOperand) :
    effectiveAddress s m = truncAddr m.asize (BitVec.ofInt 64 (exactAddress s m)) := by
  have hdisp : m.disp.signExtend 64 = BitVec.ofInt 64 m.disp.toInt := rfl
  have hpc : s.pc = BitVec.ofInt 64 s.pc.toNat := by simp
  unfold effectiveAddress exactAddress
  split
  · rw [BitVec.ofInt_add, ← hpc, hdisp]
  · rw [BitVec.ofInt_add, BitVec.ofInt_add, BitVec.ofInt_mul, hdisp, addrReg_eq_ofInt, addrReg_eq_ofInt,
      scaleFactor_eq_ofInt]

/-- Settles O30: the words of R36 are the images of exact integers, and the address size divides the word size. -/
theorem effectiveAddressIsModular : Obligations.EffectiveAddressIsModular := by
  unfold Obligations.EffectiveAddressIsModular
  intro s m
  have h := truncAddr_ofInt_toNat m.asize (exactAddress s m)
  rw [← effectiveAddress_eq_truncAddr] at h
  exact h

/-! ### The linear address and its canonical form (R37) -/

theorem truncLinear_toNat (m : Mode) (v : Word64) :
    (truncLinear m v).toNat = v.toNat % 2 ^ Config.addressBits m := by
  cases m with
  | mode64 => exact (Nat.mod_eq_of_lt v.isLt).symm
  | mode32 => exact toNat_setWidth_32_64 v
  | realAddress => exact toNat_setWidth_32_64 v

theorem addressSpace_dvd (m : Mode) : 2 ^ Config.addressBits m ∣ 2 ^ 64 :=
  Nat.pow_dvd_pow 2 (by cases m <;> decide)

theorem linearAddress_toNat (s : State) (m : MemOperand) :
    (linearAddress s m).toNat =
      ((segBase s m.seg).toNat + (effectiveAddress s m).toNat) % 2 ^ Config.addressBits s.mode := by
  rw [linearAddress, truncLinear_toNat, BitVec.toNat_add, Nat.mod_mod_of_dvd _ (addressSpace_dvd s.mode)]

theorem linearAddress_lt (s : State) (m : MemOperand) :
    (linearAddress s m).toNat < 2 ^ Config.addressBits s.mode := by
  rw [linearAddress_toNat]
  exact Nat.mod_lt _ (Nat.two_pow_pos _)

/-- In `mode64` only FS and GS have a base (R18). -/
theorem segBase_mode64_flat {s : State} {g : Seg} (hmode : s.mode = .mode64) (hfs : g ≠ .fs) (hgs : g ≠ .gs) :
    segBase s g = 0#64 := by
  cases g <;> simp_all [segBase]

/-- The linear address depends on the operand's segment through its base only. -/
theorem linearAddress_seg_congr {s : State} {g h : Seg} (m : MemOperand) (hbase : segBase s g = segBase s h) :
    linearAddress s { m with seg := g } = linearAddress s { m with seg := h } := by
  simp only [linearAddress, hbase]
  rfl

/-- The bits from `b` up of a number with `b + n + 1` bits are all 0 or all 1 exactly when they equal the highest. -/
theorem topBits_equal_iff {a b n : Nat} (ha : a < 2 ^ (b + (n + 1))) :
    (a / 2 ^ b = 0 ∨ a / 2 ^ b = 2 ^ (n + 1) - 1) ↔
      ∀ j, b ≤ j → j < b + (n + 1) → a.testBit j = a.testBit (b + n) := by
  have bit : ∀ j, b ≤ j → a.testBit j = (a / 2 ^ b).testBit (j - b) := fun j hj => by
    rw [Nat.testBit_div_two_pow, Nat.sub_add_cancel hj]
  constructor
  · rintro (h | h) j hj hlt
    · simp [bit j hj, bit (b + n) (by omega), h]
    · rw [bit j hj, bit (b + n) (by omega), h, Nat.testBit_two_pow_sub_one, Nat.testBit_two_pow_sub_one]
      exact decide_eq_decide.2 (by omega)
  · intro h
    have high : ∀ i, n + 1 ≤ i → (a / 2 ^ b).testBit i = false := fun i hi => by
      rw [Nat.testBit_div_two_pow]
      exact Nat.testBit_lt_two_pow (ha.trans_le (Nat.pow_le_pow_right (by decide) (by omega)))
    have low : ∀ i, i < n + 1 → (a / 2 ^ b).testBit i = a.testBit (b + n) := fun i hi => by
      rw [← h (i + b) (by omega) (by omega), Nat.testBit_div_two_pow]
    cases htop : a.testBit (b + n) with
    | false =>
      refine .inl (Nat.eq_of_testBit_eq fun i => ?_)
      by_cases hi : i < n + 1
      · rw [low i hi, htop, Nat.zero_testBit]
      · rw [high i (by omega), Nat.zero_testBit]
    | true =>
      refine .inr (Nat.eq_of_testBit_eq fun i => ?_)
      rw [Nat.testBit_two_pow_sub_one]
      by_cases hi : i < n + 1
      · rw [low i hi, htop, decide_eq_true hi]
      · rw [high i (by omega), decide_eq_false hi]

/-- A canonical address has bits 63:LA_WIDTH-1 all equal. -/
theorem canonical_iff {w : LaWidth} {a : Nat} (ha : a < 2 ^ 64) :
    canonical w a = true ↔ ∀ j, Config.laBits w - 1 ≤ j → j < 64 → a.testBit j = a.testBit 63 := by
  rw [canonical, Bool.or_eq_true, beq_iff_eq, beq_iff_eq]
  cases w with
  | la48 => exact topBits_equal_iff (b := 47) (n := 16) ha
  | la57 => exact topBits_equal_iff (b := 56) (n := 7) ha

theorem byteAddress_of_lt {m : Mode} {lin : Word64} {k : Nat} (h : lin.toNat + k < 2 ^ Config.addressBits m) :
    byteAddress m lin k = lin.toNat + k := Nat.mod_eq_of_lt h

/-! ### The segment's check of an access (R38) -/

section MirroredAccess

variable {s : State} {g : Seg} {lin : Word64} {n : Nat} {kind : AccessKind}

theorem segmentAdmits_all_iff :
    (accessBytes s.mode lin n).all (segmentAdmits s g kind) = true ↔
      ∀ j, j < n → segmentAdmits s g kind (byteAddress s.mode lin j) = true := by
  simp [accessBytes]

theorem segmentAdmits_mode64 (hmode : s.mode = .mode64) (a : Nat) :
    segmentAdmits s g kind a = canonical s.laWidth a := by
  simp [segmentAdmits, hmode]

/-- A byte that fails the segment's check is that segment's fault, before any page is looked at. -/
theorem mirrorAdmits_segmentFault {k : Nat} (hk : k < n)
    (h : segmentAdmits s g kind (byteAddress s.mode lin k) = false) :
    mirrorAdmits s g lin n kind = .fault (segmentFault g) := by
  have hall : ¬ (accessBytes s.mode lin n).all (segmentAdmits s g kind) = true := fun hall =>
    Bool.false_ne_true (h.symm.trans (segmentAdmits_all_iff.1 hall k hk))
  rw [mirrorAdmits, if_neg hall]

end MirroredAccess

/-- Settles O31, clause by clause: R37's sum, the bases of R18, the canonical form and what fails it. -/
theorem linearAddressAndCanonicalForm : Obligations.LinearAddressAndCanonicalForm := by
  unfold Obligations.LinearAddressAndCanonicalForm
  refine ⟨linearAddress_toNat, fun s hmode => ?_, fun s hmode => ?_, fun s m g h hmode hgfs hggs hhfs hhgs => ?_,
    fun s g lin n k hmode hk hcanon => ?_, fun w a ha => canonical_iff ha, fun _ _ _ => rfl⟩
  · simp [segBase, hmode]
  · simp [segBase, hmode, Segments.get]
  · have hg := segBase_mode64_flat hmode hgfs hggs
    exact ⟨hg, linearAddress_seg_congr m (hg.trans (segBase_mode64_flat hmode hhfs hhgs).symm)⟩
  · exact mirrorAdmits_segmentFault hk (by rw [segmentAdmits_mode64 hmode, hcanon])

/-! ### Little-endian values (R30) -/

/-- Bit `i` of the assembled value is bit `i % 8` of byte `i / 8`. -/
theorem getLsbD_leBytes (w : Nat) (bs : List Byte) (i : Nat) :
    (leBytes w bs).getLsbD i = (decide (i < w) && (bs[i / 8]?.getD 0#8).getLsbD (i % 8)) := by
  induction bs generalizing i with
  | nil => simp [leBytes]
  | cons b t ih =>
    rw [leBytes, BitVec.getLsbD_or, BitVec.getLsbD_shiftLeft, BitVec.getLsbD_setWidth, ih]
    by_cases hi : i < 8
    · simp [hi, Nat.div_eq_of_lt hi, Nat.mod_eq_of_lt hi]
    · have hdiv : i / 8 = (i - 8) / 8 + 1 := by omega
      have hmod : i % 8 = (i - 8) % 8 := by omega
      rw [hdiv, hmod, List.getElem?_cons_succ, BitVec.getLsbD_of_ge b i (by omega)]
      by_cases hw : i < w
      · simp [hi, hw, show i - 8 < w by omega]
      · simp [hi, hw]

/-- Bits `8k+7:8k` of the assembled value are byte `k`. -/
theorem extractLsb'_leBytes_byte {n k : Nat} (bs : List Byte) (hk : k < n) :
    (leBytes (8 * n) bs).extractLsb' (8 * k) 8 = bs[k]?.getD 0#8 := by
  refine BitVec.eq_of_getLsbD_eq fun i hi => ?_
  rw [BitVec.getLsbD_extractLsb', getLsbD_leBytes, show (8 * k + i) / 8 = k by omega,
    show (8 * k + i) % 8 = i by omega]
  simp [hi, show 8 * k + i < 8 * n by omega]

/-- Consecutive bytes of the assembled value assemble to the bits they stand in. -/
theorem extractLsb'_leBytes {n j l : Nat} (bs : List Byte) (h : j + l ≤ n) :
    (leBytes (8 * n) bs).extractLsb' (8 * j) (8 * l) = leBytes (8 * l) (bs.drop j) := by
  refine BitVec.eq_of_getLsbD_eq fun i hi => ?_
  rw [BitVec.getLsbD_extractLsb', getLsbD_leBytes, getLsbD_leBytes, List.getElem?_drop,
    show (8 * j + i) / 8 = j + i / 8 by omega, show (8 * j + i) % 8 = i % 8 by omega]
  simp [hi, show 8 * j + i < 8 * n by omega]

/-- Bytes past the width of the value do not count. -/
theorem leBytes_take (l : Nat) (bs : List Byte) : leBytes (8 * l) (bs.take l) = leBytes (8 * l) bs := by
  refine BitVec.eq_of_getLsbD_eq fun i hi => ?_
  rw [getLsbD_leBytes, getLsbD_leBytes, List.getElem?_take_of_lt (by omega)]

theorem getElem?_bytesAt (s : State) (lin : Word64) {n k : Nat} (hk : k < n) :
    (bytesAt s lin n)[k]? = some ((Memory.byte? s.mem (byteAddress s.mode lin k)).getD 0x00#8) := by
  simp [bytesAt, accessBytes, hk]

/-- Byte `k` from `lin + j` is byte `j + k` from `lin` (R37). -/
theorem byteAddress_add (m : Mode) (lin : Word64) (j k : Nat) :
    byteAddress m (lin + BitVec.ofNat 64 j) k = byteAddress m lin (j + k) := by
  have h : (lin.toNat + j) % 2 ^ 64 % 2 ^ Config.addressBits m = (lin.toNat + j) % 2 ^ Config.addressBits m :=
    Nat.mod_mod_of_dvd _ (addressSpace_dvd m)
  rw [byteAddress, byteAddress, BitVec.toNat_add, BitVec.toNat_ofNat, Nat.add_mod_mod, Nat.add_mod, h,
    ← Nat.add_mod, Nat.add_assoc]

/-- An access inside a wider one reads the bytes from its offset on. -/
theorem bytesAt_add (s : State) (lin : Word64) {n j l : Nat} (h : j + l ≤ n) :
    bytesAt s (lin + BitVec.ofNat 64 j) l = ((bytesAt s lin n).drop j).take l := by
  refine List.ext_getElem? fun k => ?_
  by_cases hk : k < l
  · rw [getElem?_bytesAt s _ hk, List.getElem?_take_of_lt hk, List.getElem?_drop, getElem?_bytesAt s _ (by omega),
      byteAddress_add]
  · rw [List.getElem?_eq_none (by simp; omega), List.getElem?_eq_none (by simp; omega)]

/-- Byte `k` of a completed read has a value, and is it. -/
theorem byte?_of_memRead {s : State} {g : Seg} {lin : Word64} {n k : Nat} {bs : List Byte}
    (h : memRead s g lin n = .next bs) (hk : k < n) :
    Memory.byte? s.mem (byteAddress s.mode lin k) = some (bs[k]?.getD 0#8) := by
  obtain ⟨hok, rfl⟩ := memRead_eq_next_iff.1 h
  obtain ⟨b, hb⟩ := Option.isSome_iff_exists.1 (admits_ok_allocated hok (mem_accessBytes.2 ⟨k, hk, rfl⟩))
  rw [getElem?_bytesAt s lin hk, hb]
  rfl

/-- What stands above the low byte of a concatenation. -/
theorem extractLsb'_append_above_byte {w : Nat} (hi : BitVec w) (lo : Byte) (k : Nat) :
    (hi ++ lo).extractLsb' (k + 8) 8 = hi.extractLsb' k 8 := by
  rw [BitVec.extractLsb'_append_eq_of_le (by omega), Nat.add_sub_cancel]

/-- The bytes of a displacement, the first as its least significant (R59). -/
theorem disp32_bytes (b0 b1 b2 b3 : Byte) :
    (disp32 b0 b1 b2 b3).extractLsb' 0 8 = b0 ∧ (disp32 b0 b1 b2 b3).extractLsb' 8 8 = b1 ∧
      (disp32 b0 b1 b2 b3).extractLsb' 16 8 = b2 ∧ (disp32 b0 b1 b2 b3).extractLsb' 24 8 = b3 := by
  refine ⟨BitVec.extractLsb'_append_eq_right, ?_, ?_, ?_⟩
  · exact (extractLsb'_append_above_byte _ b0 0).trans BitVec.extractLsb'_append_eq_right
  · exact (extractLsb'_append_above_byte _ b0 8).trans
      ((extractLsb'_append_above_byte _ b1 0).trans BitVec.extractLsb'_append_eq_right)
  · exact (extractLsb'_append_above_byte _ b0 16).trans
      ((extractLsb'_append_above_byte _ b1 8).trans
        ((extractLsb'_append_above_byte b3 b2 0).trans BitVec.extractLsb'_eq_self))

/-- Settles O32: the assembled value holds byte `k` in bits `8k+7:8k`. -/
theorem memoryIsLittleEndian : Obligations.MemoryIsLittleEndian := by
  unfold Obligations.MemoryIsLittleEndian
  refine ⟨fun s g lin n bs h k hk => ?_, fun s lin n j l h => ?_, disp32_bytes⟩
  · rw [byte?_of_memRead h hk, extractLsb'_leBytes_byte bs hk]
  · rw [bytesAt_add s lin h, leBytes_take, extractLsb'_leBytes _ h]

end Sys2Proof.Machine
end

section
/-! PROOFS. Memory operands (20_memory.md R32, R33, R38): a form is its enabling checks, the read of its operand and one
write, so that an operand's answer is the form's outcome. -/

namespace Sys2Proof.Machine

/-! ### The envelope of R107 -/

/-- What reading `n` bytes of an `r/m` operand from memory answers; a register operand reads none. -/
def rmBytes (al : AlignRule) (n : Nat) (o : RM) (s : State) : Result (List Byte) :=
  match o with
  | .reg _ => .next []
  | .mem m => readMem al n m s

/-- The bytes of memory a form reads. -/
def operandBytes (i : Instr) (s : State) : Result (List Byte) := rmBytes i.alignRule i.memBytes i.rm s

theorem operandBytes_mem {i : Instr} {m : MemOperand} (h : i.rm = .mem m) (s : State) :
    operandBytes i s = readMem i.alignRule i.memBytes m s := by
  rw [operandBytes, h, rmBytes]

theorem operandBytes_withImm (i : Instr) (k : Byte) (s : State) :
    operandBytes (i.withImm k) s = operandBytes i s := by
  cases i <;> rfl

theorem formEnabled_withImm (i : Instr) (k : Byte) (s : State) :
    formEnabled s (i.withImm k) = formEnabled s i := by
  cases i <;> rfl

/-- A 128-bit second source is made from the bytes of the operand. -/
theorem source128_eq_andThen (al : AlignRule) (o : RM) (s : State) :
    ∃ value : List Byte → Xmm, source128 al o s = andThen (rmBytes al 16 o s) fun bs => .next (value bs) := by
  cases o with
  | reg r => exact ⟨fun _ => s.xmmReg r, rfl⟩
  | mem m => exact ⟨leBytes 128, rfl⟩

/-- A 256-bit second source is made from the bytes of the operand. -/
theorem source256_eq_andThen (o : RM) (s : State) :
    ∃ value : List Byte → Ymm, source256 o s =
      andThen (rmBytes .anyAddress 32 o s) fun bs => .next (value bs) := by
  cases o with
  | reg r => exact ⟨fun _ => s.ymmReg r, rfl⟩
  | mem m => exact ⟨leBytes 256, rfl⟩

/-- Every form is its enabling checks, the read of its operand, and a next state (R107). -/
theorem exec_eq_checks_read_write (i : Instr) (s : State) :
    ∃ result : List Byte → State, exec i s =
      andThen (checkEnabled (formEnabled s i) s) fun _ =>
        andThen (operandBytes i s) fun bs => .next (result bs) := by
  cases i with
  | shufpd d o k =>
    obtain ⟨value, hvalue⟩ := source128_eq_andThen .aligned16 o s
    exact ⟨_, by simp only [exec, execShufpd, hvalue, andThen_assoc, andThen_next]; rfl⟩
  | vshufpd128 d a o k =>
    obtain ⟨value, hvalue⟩ := source128_eq_andThen .anyAddress o s
    exact ⟨_, by simp only [exec, execVshufpd128, hvalue, andThen_assoc, andThen_next]; rfl⟩
  | vshufpd256 d a o k =>
    obtain ⟨value, hvalue⟩ := source256_eq_andThen o s
    exact ⟨_, by simp only [exec, execVshufpd256, hvalue, andThen_assoc, andThen_next]; rfl⟩

theorem exec_eq_fault_iff {i : Instr} {s : State} {f : Fault} :
    exec i s = .fault f ↔
      checkEnabled (formEnabled s i) s = .fault f ∨ (FormReady s i ∧ operandBytes i s = .fault f) := by
  obtain ⟨result, h⟩ := exec_eq_checks_read_write i s
  simp [h, andThen_eq_fault_iff, checkEnabled_eq_next_iff, FormReady]

theorem exec_eq_refused_iff {i : Instr} {s : State} {r : Refusal} :
    exec i s = .refused r ↔
      checkEnabled (formEnabled s i) s = .refused r ∨ (FormReady s i ∧ operandBytes i s = .refused r) := by
  obtain ⟨result, h⟩ := exec_eq_checks_read_write i s
  simp [h, andThen_eq_refused_iff, checkEnabled_eq_next_iff, FormReady]

theorem exec_completes_iff {i : Instr} {s : State} :
    (∃ t, exec i s = .next t) ↔ FormReady s i ∧ ∃ bs, operandBytes i s = .next bs := by
  obtain ⟨result, h⟩ := exec_eq_checks_read_write i s
  simp [h, andThen_eq_next_iff, checkEnabled_eq_next_iff, FormReady]

/-! ### The operand's answer is the outcome -/

section Ready

variable {i : Instr} {s : State} {m : MemOperand}

theorem exec_misaligned (hr : FormReady s i) (hm : i.rm = .mem m)
    (ha : misaligned i.alignRule (linearAddress s m) = true) : exec i s = .fault .gp0 :=
  exec_eq_fault_iff.2 (.inr ⟨hr, by simp [operandBytes_mem hm, readMem, ha]⟩)

theorem operandBytes_aligned (hm : i.rm = .mem m) (ha : misaligned i.alignRule (linearAddress s m) = false) :
    operandBytes i s = memRead s m.seg (linearAddress s m) i.memBytes := by
  simp [operandBytes_mem hm, readMem, ha]

variable (hr : FormReady s i) (hm : i.rm = .mem m) (ha : misaligned i.alignRule (linearAddress s m) = false)

include hr hm ha

theorem exec_of_admits_fault {f : Fault}
    (h : admits s m.seg (linearAddress s m) i.memBytes .read = .fault f) : exec i s = .fault f :=
  exec_eq_fault_iff.2 (.inr ⟨hr, by simp [operandBytes_aligned hm ha, memRead, h]⟩)

theorem exec_of_admits_refuse {r : Refusal}
    (h : admits s m.seg (linearAddress s m) i.memBytes .read = .refuse r) : exec i s = .refused r :=
  exec_eq_refused_iff.2 (.inr ⟨hr, by simp [operandBytes_aligned hm ha, memRead, h]⟩)

theorem exec_completes_of_admits_ok
    (h : admits s m.seg (linearAddress s m) i.memBytes .read = .ok) : ∃ t, exec i s = .next t :=
  exec_completes_iff.2 ⟨hr, _, (operandBytes_aligned hm ha).trans (memRead_eq_next_iff.2 ⟨h, rfl⟩)⟩

end Ready

/-- Settles O36: 16-byte alignment is the rule of the legacy form, checked before `ADMITS` is asked. -/
theorem misalignedLegacyOperandRaisesGp : Obligations.MisalignedLegacyOperandRaisesGp := by
  unfold Obligations.MisalignedLegacyOperandRaisesGp
  intro s d m k hr ha
  exact exec_misaligned hr rfl (by simp [misaligned, Instr.alignRule, ha])

/-! ### The whole operand (R33) -/

/-- A memory form that completes was admitted all its bytes. -/
theorem admits_of_exec_next {i : Instr} {s t : State} {m : MemOperand} (hm : i.rm = .mem m)
    (h : exec i s = .next t) : admits s m.seg (linearAddress s m) i.memBytes .read = .ok := by
  obtain ⟨_, bs, hbs⟩ := exec_completes_iff.1 ⟨t, h⟩
  rw [operandBytes_mem hm] at hbs
  obtain ⟨_, hok, _⟩ := readMem_eq_next_iff.1 hbs
  exact hok

theorem formReady_withImm {i : Instr} {k : Byte} {s : State} : FormReady s (i.withImm k) ↔ FormReady s i := by
  simp only [FormReady, formEnabled_withImm]

/-- The state with another memory and another `ADMITS`. -/
def State.withPlatform (s : State) (m : Memory) (ar : List AdmitRule) (rs : List Region) (c : PageCause) : State :=
  { s with mem := m, admitRules := ar, regions := rs, absentCause := c }

theorem checkEnabled_withPlatform (e : Bool) (s : State) (m : Memory) (ar : List AdmitRule) (rs : List Region)
    (c : PageCause) : checkEnabled e (s.withPlatform m ar rs c) = checkEnabled e s := rfl

/-- With a register operand the checks and the sources are the same on another platform, and the write leaves it. -/
theorem exec_reg_withPlatform {i : Instr} {n : VReg} (hn : i.rm = .reg n) (s : State) (m : Memory)
    (ar : List AdmitRule) (rs : List Region) (c : PageCause) :
    exec i (s.withPlatform m ar rs c) = andThen (exec i s) fun t => .next (t.withPlatform m ar rs c) := by
  cases i with
  | shufpd d o k =>
    obtain rfl : o = .reg n := hn
    simp only [exec, execShufpd, checkEnabled_withPlatform, source128_reg, andThen_assoc, andThen_next]
    rfl
  | vshufpd128 d a o k =>
    obtain rfl : o = .reg n := hn
    simp only [exec, execVshufpd128, checkEnabled_withPlatform, source128_reg, andThen_assoc, andThen_next]
    rfl
  | vshufpd256 d a o k =>
    obtain rfl : o = .reg n := hn
    simp only [exec, execVshufpd256, checkEnabled_withPlatform, source256_reg, andThen_assoc, andThen_next]
    rfl

/-- Settles O33: what a form reads is fixed before imm8 is looked at, and an admitted read is allocated. -/
theorem wholeOperandIsReadWhateverImm8 : Obligations.WholeOperandIsReadWhateverImm8 := by
  unfold Obligations.WholeOperandIsReadWhateverImm8
  refine ⟨?_, ?_, ?_, ?_⟩
  · intro i s t m hm h k hk
    exact admits_ok_allocated (admits_of_exec_next hm h) (mem_accessBytes.2 ⟨k, hk, rfl⟩)
  · intro i s k f
    simp only [exec_eq_fault_iff, formEnabled_withImm, formReady_withImm, operandBytes_withImm]
  · intro i s k r
    simp only [exec_eq_refused_iff, formEnabled_withImm, formReady_withImm, operandBytes_withImm]
  · intro i s n m ar rs c hn
    exact exec_reg_withPlatform hn s m ar rs c

/-! ### The byte that decides (R38, R148 item 7) -/

theorem memBytes_le_32 (i : Instr) : i.memBytes ≤ 32 := by
  cases i <;> simp [Instr.memBytes]

theorem le_addressSpace_of_le_32 {n : Nat} (h : n ≤ 32) (m : Mode) : n ≤ 2 ^ Config.addressBits m :=
  h.trans (by cases m <;> decide)

section MirroredAccess

variable {s : State} {g : Seg} {lin : Word64} {n : Nat} {kind : AccessKind}

theorem accessWraps_iff {m : Mode} (h : lin.toNat < 2 ^ Config.addressBits m) :
    accessWraps m lin n = true ↔ 2 ^ Config.addressBits m < lin.toNat + n := by
  simp [accessWraps, byteAddress_of_lt (k := 0) h]

variable (hseg : ∀ j, j < n → segmentAdmits s g kind (byteAddress s.mode lin j) = true)

include hseg

theorem mirrorAdmits_wraps (hw : accessWraps s.mode lin n = true) :
    mirrorAdmits s g lin n kind = .refuse .accessWraps := by
  rw [mirrorAdmits, if_pos (segmentAdmits_all_iff.2 hseg), if_pos hw]

/-- In an access that does not wrap the first byte that is not admitted decides. -/
theorem mirrorAdmits_firstByte {k : Nat} (hfit : lin.toNat + n ≤ 2 ^ Config.addressBits s.mode) (hk : k < n)
    (hbefore : ∀ j, j < k → byteVerdict s kind (lin.toNat + j) = .ok)
    (hne : byteVerdict s kind (lin.toNat + k) ≠ .ok) :
    mirrorAdmits s g lin n kind = byteVerdict s kind (lin.toNat + k) := by
  have haddr : ∀ j, j < n → byteAddress s.mode lin j = lin.toNat + j := fun j hj => byteAddress_of_lt (by omega)
  have hw : ¬ accessWraps s.mode lin n = true := by
    rw [accessWraps_iff (by omega)]
    omega
  rw [mirrorAdmits, if_pos (segmentAdmits_all_iff.2 hseg), if_neg hw, ← haddr k hk]
  refine lowestVerdict_lowest (by omega) hk (fun j hj hlt => ?_) (by rwa [haddr k hk])
  rw [haddr j hj, haddr k hk] at hlt
  rw [haddr j hj]
  exact hbefore j (by omega)

end MirroredAccess

section ByteVerdict

variable {s : State} {kind : AccessKind} {a : Nat}

theorem byteVerdict_of_pageFault {c : PageCause} (h : regionVerdict s.regions kind a = .pageFault c) :
    byteVerdict s kind a = .fault (.pf c kind (BitVec.ofNat 64 a)) := by
  simp [byteVerdict, h]

theorem byteVerdict_of_device (h : regionVerdict s.regions kind a = .device) :
    byteVerdict s kind a = .refuse .deviceRegion := by
  simp [byteVerdict, h]

theorem allocated_of_absent (h : Memory.byte? s.mem a = none) :
    allocated s kind a = .fault (.pf s.absentCause kind (BitVec.ofNat 64 a)) := by
  simp [allocated, h]

theorem byteVerdict_of_absent (h : regionVerdict s.regions kind a = .allow) (hb : Memory.byte? s.mem a = none) :
    byteVerdict s kind a = .fault (.pf s.absentCause kind (BitVec.ofNat 64 a)) := by
  simp [byteVerdict, h, allocated_of_absent hb]

end ByteVerdict

/-- Settles O38: where the launch is silent `ADMITS` mirrors a processor, and the lowest byte it does not admit is the
form's outcome. -/
theorem firstUnadmittedByteDecides : Obligations.FirstUnadmittedByteDecides := by
  unfold Obligations.FirstUnadmittedByteDecides
  intro i s m hr hm ha hsilent hseg
  have hmirror := admits_of_no_answer hsilent
  constructor
  · intro hwrap
    exact exec_of_admits_refuse hr hm ha
      (hmirror.trans (mirrorAdmits_wraps hseg ((accessWraps_iff (linearAddress_lt s m)).2 hwrap)))
  · intro hfit k hk hbefore
    have hbyte : byteVerdict s .read ((linearAddress s m).toNat + k) ≠ .ok →
        admits s m.seg (linearAddress s m) i.memBytes .read =
          byteVerdict s .read ((linearAddress s m).toNat + k) :=
      fun hne => hmirror.trans (mirrorAdmits_firstByte hseg hfit hk hbefore hne)
    refine ⟨fun c hc => ?_, fun hallow hnone => ?_, fun hdevice => ?_⟩
    · rw [byteVerdict_of_pageFault hc] at hbyte
      exact exec_of_admits_fault hr hm ha (hbyte (by simp))
    · rw [byteVerdict_of_absent hallow hnone] at hbyte
      exact exec_of_admits_fault hr hm ha (hbyte (by simp))
    · rw [byteVerdict_of_device hdevice] at hbyte
      exact exec_of_admits_refuse hr hm ha (hbyte (by simp))

/-- Settles O54: the launch's answer is the verdict, an `ok` of it being one only where every byte has a value. -/
theorem launchAnswerDecides : Obligations.LaunchAnswerDecides := by
  unfold Obligations.LaunchAnswerDecides
  intro i s m hr hm ha
  refine ⟨fun h => ?_, fun h => ?_, fun c a h => ?_, fun h => ?_, fun h => ⟨fun hall => ?_, ?_⟩⟩
  · exact exec_of_admits_fault hr hm ha (admits_of_answer h)
  · exact exec_of_admits_fault hr hm ha (admits_of_answer h)
  · exact exec_of_admits_fault hr hm ha (admits_of_answer h)
  · exact exec_of_admits_refuse hr hm ha (admits_of_answer h)
  · refine exec_completes_of_admits_ok hr hm ha ((admits_of_answer h).trans (answerVerdict_ok_iff.2 ⟨rfl, ?_⟩))
    intro a ha'
    obtain ⟨j, hj, rfl⟩ := mem_accessBytes.1 ha'
    exact hall j hj
  · intro k hk hlower hnone
    have habsent := allocated_of_absent (kind := .read) hnone
    refine exec_of_admits_fault hr hm ha ((admits_of_answer h).trans (Eq.trans ?_ habsent))
    exact lowestVerdict_lowest (le_addressSpace_of_le_32 (memBytes_le_32 i) s.mode) hk
      (fun j hj hlt => allocated_ok_iff.2 (hlower j hj hlt)) (by simp [habsent])

end Sys2Proof.Machine
end

section
/-! PROOFS. The fetch (20_memory.md R42, 60_exceptions.md R148 item 1). That a step asks `ADMITS` for every byte up to
the top of the address space, when the instruction passes it, rests on the decoder reading its bytes front to back. -/

namespace Sys2Proof

/-! ### The decoder reads its bytes front to back (R71) -/

/-- The same answer with more bytes left over. -/
def DecodeResult.leaving {α : Type} (more : List Byte) (x : DecodeResult (α × List Byte)) :
    DecodeResult (α × List Byte) :=
  x.andThen fun a => .ok (a.1, a.2 ++ more)

/-- Once a stage answers anything but "truncated", bytes that follow are left over and change nothing. -/
def ReadsFront {α : Type} (f : List Byte → DecodeResult (α × List Byte)) : Prop :=
  ∀ bs more, f bs ≠ .truncated → f (bs ++ more) = (f bs).leaving more

namespace DecodeResult

variable {α : Type} (more : List Byte)

@[simp] theorem leaving_ok (a : α) (t : List Byte) :
    (ok (a, t) : DecodeResult (α × List Byte)).leaving more = ok (a, t ++ more) := rfl
@[simp] theorem leaving_ud : (ud : DecodeResult (α × List Byte)).leaving more = ud := rfl
@[simp] theorem leaving_refused (r : DecodeRefusal) :
    (refused r : DecodeResult (α × List Byte)).leaving more = refused r := rfl

end DecodeResult

/-- A stage that reads front to back, followed by one that does on the bytes it leaves, reads front to back. -/
theorem ReadsFront.andThen {α β : Type} {f : List Byte → DecodeResult (α × List Byte)}
    {g : α → List Byte → DecodeResult (β × List Byte)} (hf : ReadsFront f) (hg : ∀ a, ReadsFront (g a)) :
    ReadsFront fun bs => (f bs).andThen fun x => g x.1 x.2 := by
  intro bs more h
  have hfront := hf bs more
  cases hx : f bs with
  | ok x =>
    simp only [hx, DecodeResult.andThen_ok] at h hfront ⊢
    rw [hfront (by simp)]
    exact hg x.1 x.2 more h
  | ud => simp_all
  | refused r => simp_all
  | truncated => simp_all

section Stages

variable {α : Type} {f g : List Byte → DecodeResult (α × List Byte)}

theorem ReadsFront.ok (a : α) : ReadsFront fun bs => .ok (a, bs) := fun _ _ _ => rfl

theorem ReadsFront.ud : ReadsFront fun _ => (.ud : DecodeResult (α × List Byte)) := fun _ _ _ => rfl

theorem ReadsFront.refused (r : DecodeRefusal) :
    ReadsFront fun _ => (.refused r : DecodeResult (α × List Byte)) := fun _ _ _ => rfl

theorem ReadsFront.ite {c : Prop} [Decidable c] (hf : ReadsFront f) (hg : ReadsFront g) :
    ReadsFront fun bs => if c then f bs else g bs := by
  by_cases hc : c
  · simpa only [if_pos hc] using hf
  · simpa only [if_neg hc] using hg

/-- A stage that needs a byte and reads front to back after it. -/
theorem ReadsFront.of_cons (hnil : f [] = .truncated) (hcons : ∀ b, ReadsFront fun t => f (b :: t)) :
    ReadsFront f := by
  intro bs more h
  cases bs with
  | nil => exact absurd hnil h
  | cons b t => exact hcons b t more h

/-- After a byte that was looked at, a stage still reads front to back. -/
theorem ReadsFront.cons (hf : ReadsFront f) (b : Byte) : ReadsFront fun t => f (b :: t) :=
  fun t more h => hf (b :: t) more h

end Stages

theorem afterRepeat_readsFront (m : Mode) : ReadsFront (afterRepeat m) := by
  intro bs more
  induction bs with
  | nil => exact fun h => absurd rfl h
  | cons b t ih =>
    cases hb : legacyByte? b with
    | some x =>
      simp only [List.cons_append, afterRepeat, hb]
      cases x with
      | lock => exact fun _ => rfl
      | _ => exact ih
    | none =>
      have front : ReadsFront fun u => afterRepeat m (b :: u) := by
        simp only [afterRepeat, hb]
        exact .ite (.of_cons rfl fun c => .ite .ud (.refused _))
          (.ite (.ite .ud (.of_cons rfl fun c => .ite .ud (.refused _))) (.refused _))
      exact front t more

theorem scanPrefixes_readsFront (m : Mode) (p : Prefixes) : ReadsFront (scanPrefixes m p) := by
  intro bs more
  induction bs generalizing p with
  | nil => exact fun h => absurd rfl h
  | cons b t ih =>
    simp only [List.cons_append, scanPrefixes]
    cases legacyByte? b with
    | none => exact ReadsFront.ite (.refused _) ((ReadsFront.ok p).cons b) t more
    | some x =>
      cases x with
      | lock => exact fun _ => rfl
      | rep => exact afterRepeat_readsFront m t more
      | opSize =>
        by_cases hp : p.p66 = true
        · simp [hp]
        · simpa [hp] using ih _
      | addrSize =>
        by_cases hp : p.a67 = true
        · simp [hp]
        · simpa [hp] using ih _
      | segment =>
        by_cases hp : p.seg.isSome = true
        · simp [hp]
        · simpa [hp] using ih _

theorem parseLegacyOpcode_readsFront (p : Prefixes) (e : Ext) : ReadsFront (parseLegacyOpcode p e) := by
  unfold parseLegacyOpcode
  exact .ite (.of_cons rfl fun b => .ite (.of_cons rfl fun c => .ite (.ok _) (.refused _)) (.refused _)) (.refused _)

theorem parseVexOpcode_readsFront (m : Mode) (mmmmm : BitVec 5) (e : Ext) (last : Byte) :
    ReadsFront (parseVexOpcode m mmmmm e last) := by
  unfold parseVexOpcode
  exact .ite (.of_cons rfl fun b => .ite (.ite (.refused _) (.ok _)) (.refused _)) (.refused _)

theorem parseOpcode_readsFront (m : Mode) (p : Prefixes) : ReadsFront (parseOpcode m p) := by
  have legacy := parseLegacyOpcode_readsFront p
  have vex := parseVexOpcode_readsFront m
  refine .of_cons rfl fun b0 => ?_
  unfold parseOpcode
  refine .ite (.of_cons rfl fun c => ?rex) (.ite (.ite .ud (.of_cons rfl fun b1 => ?vex)) ((legacy _).cons b0))
  case rex => exact .ite .ud ((legacy _).cons c)
  case vex =>
    refine .ite (.ite .ud (.ite (vex _ _ b1) (.of_cons rfl fun b2 => vex _ _ b2))) ?_
    exact ((legacy _).cons b0).cons b1

theorem parseDisp_readsFront (n : DispSize) : ReadsFront (parseDisp n) := by
  cases n with
  | d0 => exact .ok _
  | d8 => exact .of_cons rfl fun b => .ok _
  | d32 =>
    exact .of_cons rfl fun b0 => .of_cons rfl fun b1 => .of_cons rfl fun b2 => .of_cons rfl fun b3 => .ok _

/-- A memory operand is made from its displacement, and the bytes after that are left over. -/
theorem parseDisp_memOperand_readsFront (m : Mode) (p : Prefixes) (base index : Option GReg) (scale : Scale)
    (riprel : Bool) (n : DispSize) :
    ReadsFront fun bs => (parseDisp n bs).andThen fun x =>
      .ok (RM.mem (memOperand m p base index scale riprel x.1), x.2) :=
  (parseDisp_readsFront n).andThen fun d => .ok (RM.mem (memOperand m p base index scale riprel d))

theorem parseRm_readsFront (m : Mode) (p : Prefixes) (e : Ext) (md : BitVec 2) (rm : BitVec 3) :
    ReadsFront (parseRm m p e md rm) := by
  have mem := parseDisp_memOperand_readsFront m p
  unfold parseRm
  exact .ite (.ok _) (.ite (.of_cons rfl fun sib => mem _ _ _ _ _) (.ite (mem _ _ _ _ _) (mem _ _ _ _ _)))

theorem parseImm_readsFront (pol : Imm8Policy) (f : Form) (dst : VReg) (o : RM) :
    ReadsFront (parseImm pol f dst o) :=
  .of_cons rfl fun _ => .ite (.ok _) (.refused _)

theorem parseBody_readsFront (m : Mode) (pol : Imm8Policy) (p : Prefixes) (f : Form) (e : Ext) :
    ReadsFront (parseBody m pol p f e) :=
  .of_cons rfl fun _ => (parseRm_readsFront m p e _ _).andThen fun o => parseImm_readsFront pol f _ o

theorem parseInstr_readsFront (m : Mode) (pol : Imm8Policy) : ReadsFront (parseInstr m pol) :=
  .ite (.refused _) ((scanPrefixes_readsFront m _).andThen fun p =>
    (parseOpcode_readsFront m p).andThen fun fe => parseBody_readsFront m pol p fe.1 fe.2)

/-- Once the decoder answers, bytes that follow change nothing. -/
theorem decode_append {m : Mode} {pol : Imm8Policy} {bs : List Byte} (more : List Byte)
    (h : decode m pol bs ≠ .truncated) : decode m pol (bs ++ more) = decode m pol bs := by
  have hfront := parseInstr_readsFront m pol bs more
  unfold decode at h ⊢
  cases hx : parseInstr m pol bs with
  | truncated => simp [hx] at h
  | ok x =>
    obtain ⟨i, rest⟩ := x
    rw [hfront (by simp [hx]), hx]
    simp [Nat.add_sub_add_right]
  | ud => simp [hfront, hx]
  | refused r => simp [hfront, hx]

/-- Bytes that are not enough for an answer are not enough with fewer of them. -/
theorem decode_take_truncated {m : Mode} {pol : Imm8Policy} {bs : List Byte} (h : decode m pol bs = .truncated)
    (n : Nat) : decode m pol (bs.take n) = .truncated := by
  by_contra hne
  have happend := decode_append (bs.drop n) hne
  rw [List.take_append_drop, h] at happend
  exact hne happend.symm

theorem decode_nil {m : Mode} (hm : m ≠ .realAddress) (pol : Imm8Policy) : decode m pol [] = .truncated := by
  simp [decode, parseInstr, hm, scanPrefixes]

/-- The decoder needs a byte to answer anything. -/
theorem bytesNeeded_pos {m : Mode} (hm : m ≠ .realAddress) (pol : Imm8Policy) (bs : List Byte) :
    0 < bytesNeeded m pol bs := by
  unfold bytesNeeded
  cases hfind : (List.range (bs.length + 1)).find? fun n => !(decode m pol (bs.take n)).isTruncated with
  | none => exact Nat.succ_pos _
  | some n =>
    refine Nat.pos_of_ne_zero fun (hn : n = 0) => ?_
    simpa [hn, decode_nil hm, DecodeResult.isTruncated] using List.find?_some hfind

/-- Where there is no answer the decoder needs one byte more than there are. -/
theorem bytesNeeded_of_truncated {m : Mode} {pol : Imm8Policy} {bs : List Byte}
    (h : decode m pol bs = .truncated) : bytesNeeded m pol bs = bs.length + 1 := by
  have hnone : (List.range (bs.length + 1)).find? (fun n => !(decode m pol (bs.take n)).isTruncated) = none :=
    List.find?_eq_none.2 fun n _ => by simp [decode_take_truncated h n, DecodeResult.isTruncated]
  rw [bytesNeeded, hnone, Option.getD_none]

end Sys2Proof

namespace Sys2Proof.Machine

/-! ### The fetch comes first (R148 item 1) -/

section Fetch

variable {s : State}

theorem fetchLength_pos (hm : s.mode ≠ .realAddress) (hpc : s.pc.toNat < 2 ^ Config.addressBits s.mode) :
    0 < fetchLength s :=
  lt_min (bytesNeeded_pos hm _ _) (lt_min (by decide) (Nat.sub_pos_of_lt hpc))

/-- No byte past the top of the address space is asked for. -/
theorem pc_add_fetchLength_le (hpc : s.pc.toNat < 2 ^ Config.addressBits s.mode) :
    s.pc.toNat + fetchLength s ≤ 2 ^ Config.addressBits s.mode := by
  have hle : fetchLength s ≤ 2 ^ Config.addressBits s.mode - s.pc.toNat :=
    (min_le_right _ _).trans (min_le_right _ _)
  omega

/-- Of an instruction that passes the top of the address space every byte below it is asked for. -/
theorem fetchLength_of_truncated_at_top
    (htop : s.pc.toNat + (fetchBytes s).length = 2 ^ Config.addressBits s.mode) (hlen : (fetchBytes s).length < 15)
    (hd : decode s.mode s.imm8Policy (fetchBytes s) = .truncated) : fetchLength s = (fetchBytes s).length := by
  rw [fetchLength, bytesNeeded_of_truncated hd, Config.maxInstrBytes]
  omega

variable (hend : s.pc ≠ s.endPc) (hm : s.mode ≠ .realAddress)

include hend hm

theorem step_of_fetch_fault {f : Fault} (h : admits s .cs s.pc (fetchLength s) .fetch = .fault f) :
    step s = .fault f := by
  rw [step_running hend, (fetchDecode_not_admitted hm).1 f h, andThen_fault]

theorem step_of_fetch_refuse {r : Refusal} (h : admits s .cs s.pc (fetchLength s) .fetch = .refuse r) :
    step s = .refused r := by
  rw [step_running hend, (fetchDecode_not_admitted hm).2 r h, andThen_refused]

/-- Fewer than 15 bytes, all admitted, that make no instruction: the next one lies past the top, and the step is refused
(log 16). -/
theorem step_of_truncated (hok : admits s .cs s.pc (fetchLength s) .fetch = .ok)
    (hlen : (fetchBytes s).length < 15) (hd : decode s.mode s.imm8Policy (fetchBytes s) = .truncated) :
    step s = .refused .fetchWraps := by
  have hstop : ¬ Config.maxInstrBytes ≤ (fetchBytes s).length := Nat.not_le_of_lt hlen
  have hfetch : fetchDecode s = .refused .fetchWraps := by
    simp [fetchDecode, hm, hok, hd, decodedResult, fetchStop, hstop]
  rw [step_running hend, hfetch, andThen_refused]

end Fetch

/-- Where the launch is silent and every byte passes the check of CS, the byte at `pc` decides if it is not
admitted. -/
theorem admits_fetch_firstByte {s : State} (hm : s.mode ≠ .realAddress)
    (hpc : s.pc.toNat < 2 ^ Config.addressBits s.mode)
    (hsilent : launchAnswer s.admitRules .cs s.pc (fetchLength s) .fetch = none)
    (hseg : ∀ j, j < fetchLength s → segmentAdmits s .cs .fetch (s.pc.toNat + j) = true)
    (hne : byteVerdict s .fetch s.pc.toNat ≠ .ok) :
    admits s .cs s.pc (fetchLength s) .fetch = byteVerdict s .fetch s.pc.toNat := by
  have hfit := pc_add_fetchLength_le hpc
  have hseg' : ∀ j, j < fetchLength s → segmentAdmits s .cs .fetch (byteAddress s.mode s.pc j) = true :=
    fun j hj => by rw [byteAddress_of_lt (by omega)]; exact hseg j hj
  exact (admits_of_no_answer hsilent).trans
    (mirrorAdmits_firstByte hseg' hfit (fetchLength_pos hm hpc) (fun j hj => absurd hj (Nat.not_lt_zero j)) hne)

/-- Settles O41: the fetch is asked for before anything is decoded, and the byte at `pc` is the first asked for. -/
theorem fetchFaultComesFirst : Obligations.FetchFaultComesFirst := by
  unfold Obligations.FetchFaultComesFirst
  intro s hend hm
  refine ⟨fun f => step_of_fetch_fault hend hm, fun r => step_of_fetch_refuse hend hm, fun hpc hsilent =>
    ⟨fun hcs => ?_, fun hseg => ?_⟩, fun htop hlen hd hok => ?_⟩
  · refine step_of_fetch_fault hend hm ((admits_of_no_answer hsilent).trans
      (mirrorAdmits_segmentFault (fetchLength_pos hm hpc) ?_))
    rwa [byteAddress_of_lt hpc]
  · have hbyte := admits_fetch_firstByte hm hpc hsilent hseg
    have hpcw : BitVec.ofNat 64 s.pc.toNat = s.pc := by simp
    refine ⟨fun c hc => ?_, fun hdevice => ?_, fun hallow hnone => ?_⟩
    · rw [byteVerdict_of_pageFault hc, hpcw] at hbyte
      exact step_of_fetch_fault hend hm (hbyte (by simp))
    · rw [byteVerdict_of_device hdevice] at hbyte
      exact step_of_fetch_refuse hend hm (hbyte (by simp))
    · rw [byteVerdict_of_absent hallow hnone, hpcw] at hbyte
      exact step_of_fetch_fault hend hm (hbyte (by simp))
  · refine step_of_truncated hend hm ?_ hlen hd
    rwa [fetchLength_of_truncated_at_top htop hlen hd]

end Sys2Proof.Machine
end

section
/-! PROOFS. Encoding and decoding (30_encoding.md): every encoding decodes to its instruction, every decoded instruction
stands in one of its encodings (R55 to R62, R70, R71), how long the encodings are (R64), and what the bytes that are no
encoding are answered (R63, R65, R72). -/

namespace Sys2Proof

/-! ### An encoding is prefixes, opcode and body (R55, R62) -/

/-- The layout an instruction is encoded in. -/
def Instr.form : Instr → Form
  | .shufpd _ _ _ => .legacy
  | .vshufpd128 _ a _ _ => .vex128 a
  | .vshufpd256 _ a _ _ => .vex256 a

/-- The mandatory `66` of the legacy layout (R55); a VEX prefix has it in its pp field (R62). -/
def Form.needs66 : Form → Bool
  | .legacy => true
  | .vex128 _ => false
  | .vex256 _ => false

/-- REX or VEX prefix and opcode (R55, R62). -/
def Form.opcodeBytes (m : Mode) (st : EncodingStyle) (e : Ext) : Form → List Byte
  | .legacy => rexBytes m st e ++ [0x0F#8, 0xC6#8]
  | .vex128 a => vexBytes st e a false ++ [0xC6#8]
  | .vex256 a => vexBytes st e a true ++ [0xC6#8]

theorem formInstr_parts (i : Instr) : formInstr i.form i.dst i.rm i.imm = i := by cases i <;> rfl

section FormInstr

variable (f : Form) (dst : VReg) (o : RM) (imm8 : Byte)

@[simp] theorem formInstr_form : (formInstr f dst o imm8).form = f := by cases f <;> rfl
@[simp] theorem formInstr_dst : (formInstr f dst o imm8).dst = dst := by cases f <;> rfl
@[simp] theorem formInstr_rm : (formInstr f dst o imm8).rm = o := by cases f <;> rfl
@[simp] theorem formInstr_imm : (formInstr f dst o imm8).imm = imm8 := by cases f <;> rfl

end FormInstr

theorem Instr.wf_iff {m : Mode} {pol : Imm8Policy} {i : Instr} :
    i.wf m pol = true ↔ m ≠ .realAddress ∧ i.form.wf m = true ∧ VReg.wf m i.dst = true ∧ i.rm.wf m = true ∧
      pol.admits (i.form.reservedZero i.imm) = true := by
  cases i <;>
    simp [Instr.wf, Instr.form, Instr.dst, Instr.rm, Instr.imm, Form.wf, Form.reservedZero, and_assoc, and_left_comm]

/-- The extension bits of an instruction's encoding (R74). -/
def Instr.ext (m : Mode) (st : EncodingStyle) (i : Instr) : Ext := rmExt m st (hiBit i.dst) i.rm

theorem encodeStyled_eq (m : Mode) (st : EncodingStyle) (i : Instr) :
    encodeStyled m st i =
      orderPrefixes st (if i.form.needs66 then [0x66#8] else []) (rmPrefixes m st i.rm).1 (rmPrefixes m st i.rm).2 ++
        (i.form.opcodeBytes m st (i.ext m st) ++ encodeBody m st i.dst i.rm i.imm) := by
  cases i <;>
    simp [encodeStyled, Instr.form, Instr.dst, Instr.rm, Instr.imm, Instr.ext, Form.needs66, Form.opcodeBytes]

/-! ### Every encoding decodes to its instruction -/

theorem extBitFits_hiBit_of_lt {m : Mode} {r : Fin 16} (hm : m ≠ .realAddress)
    (h : m = .mode32 → r.val < 8) : extBitFits m (hiBit r) := by
  cases m with
  | mode64 => exact .inl rfl
  | mode32 => exact .inr ⟨rfl, by simpa [hiBit] using h rfl⟩
  | realAddress => exact absurd rfl hm

theorem VReg.extBitFits_hiBit {m : Mode} {r : VReg} (hm : m ≠ .realAddress) (h : VReg.wf m r = true) :
    extBitFits m (hiBit r) :=
  extBitFits_hiBit_of_lt hm fun h32 => by simpa [VReg.wf, Config.numVregs, h32] using h

theorem GReg.extBitFits_hiBit {m : Mode} {r : GReg} (hm : m ≠ .realAddress) (h : GReg.wf m r = true) :
    extBitFits m (hiBit r) :=
  extBitFits_hiBit_of_lt hm fun h32 => by simpa [GReg.wf, h32] using h

theorem extBitFits_spare {m : Mode} (hm : m ≠ .realAddress) (b : Bool) : extBitFits m (spare m b) := by
  cases m with
  | mode64 => exact .inl rfl
  | mode32 => exact .inr ⟨rfl, rfl⟩
  | realAddress => exact absurd rfl hm

theorem extBitFits_false {m : Mode} (hm : m ≠ .realAddress) : extBitFits m false := (Ext.zero_fitsMode hm).r

/-- The registers of an operand of the mode need no extension bit the mode lacks. -/
theorem rmExt_fitsMode {m : Mode} {r : Bool} {o : RM} (st : EncodingStyle) (hm : m ≠ .realAddress)
    (hr : extBitFits m r) (ho : o.wf m = true) : (rmExt m st r o).FitsMode m := by
  have hspare := extBitFits_spare hm
  cases o with
  | reg n => exact ⟨hr, hspare _, VReg.extBitFits_hiBit hm ho⟩
  | mem o =>
    simp only [RM.wf, MemOperand.wf, Bool.and_eq_true] at ho
    obtain ⟨⟨⟨⟨hbase, hindex⟩, _⟩, _⟩, _⟩ := ho
    refine ⟨hr, ?_, ?_⟩
    · unfold rmExt
      dsimp only
      split
      · cases hi : o.index with
        | none => exact extBitFits_false hm
        | some i => exact GReg.extBitFits_hiBit hm (by simpa [hi] using hindex)
      · exact hspare _
    · unfold rmExt
      dsimp only
      split
      · rename_i b hb
        exact GReg.extBitFits_hiBit hm (by simpa [hb] using hbase)
      · exact hspare _

/-- In `mode32` the extension bits are all 0. -/
theorem Ext.FitsMode.eq_zero {m : Mode} {e : Ext} (h : e.FitsMode m) (hm : m ≠ .mode64) :
    m = .mode32 ∧ e = Ext.zero := by
  obtain ⟨r, x, b⟩ := e
  obtain ⟨hr, hx, hb⟩ := h
  obtain ⟨h32, hr⟩ := hr.resolve_left hm
  obtain ⟨_, hx⟩ := hx.resolve_left hm
  obtain ⟨_, hb⟩ := hb.resolve_left hm
  exact ⟨h32, by simp_all [Ext.zero]⟩

/-- The opcode of every form reads back (R55, R56, R60 to R62, R65). -/
theorem parseOpcode_opcodeBytes {m : Mode} {st : EncodingStyle} {p : Prefixes} {e : Ext} {f : Form} (bs : List Byte)
    (hp : p.p66 = f.needs66) (he : e.FitsMode m) (hf : f.wf m = true) :
    parseOpcode m p (f.opcodeBytes m st e ++ bs) = .ok ((f, e), bs) := by
  have hmode (a : VReg) (ha : VReg.wf m a = true) : m = .mode64 ∨ (m = .mode32 ∧ e = Ext.zero ∧ a.val < 8) := by
    by_cases hm : m = .mode64
    · exact .inl hm
    · obtain ⟨h32, he⟩ := he.eq_zero hm
      exact .inr ⟨h32, he, by simpa [VReg.wf, Config.numVregs, h32] using ha⟩
  cases f with
  | legacy =>
    have hext : m = .mode64 ∨ e = Ext.zero := (em (m = .mode64)).imp_right fun hm => (he.eq_zero hm).2
    simpa [Form.opcodeBytes] using parseOpcode_rex (st := st) bs hp hext
  | vex128 a => simpa [Form.opcodeBytes, vexForm] using parseOpcode_vex (st := st) false bs hp (hmode a hf)
  | vex256 a => simpa [Form.opcodeBytes, vexForm] using parseOpcode_vex (st := st) true bs hp (hmode a hf)

theorem vexBytes_begins (st : EncodingStyle) (e : Ext) (a : VReg) (l : Bool) :
    ∃ b t, vexBytes st e a l = b :: t ∧ legacyByte? b = none := by
  unfold vexBytes
  split
  · exact ⟨0xC5#8, _, rfl, rfl⟩
  · exact ⟨0xC4#8, _, rfl, rfl⟩

/-- The scan of the legacy prefixes stops at the first byte of REX, VEX or opcode. -/
theorem opcodeBytes_begins (m : Mode) (st : EncodingStyle) (e : Ext) (f : Form) :
    ∃ b t, f.opcodeBytes m st e = b :: t ∧ legacyByte? b = none := by
  cases f with
  | legacy =>
    by_cases hrex : m = .mode64 ∧ (e ≠ Ext.zero ∨ st.wide)
    · exact ⟨_, _, by rw [Form.opcodeBytes, rexBytes, if_pos hrex]; rfl, (rexByte_fields _ e.r e.x e.b).2.2⟩
    · exact ⟨0x0F#8, _, by rw [Form.opcodeBytes, rexBytes, if_neg hrex]; rfl, rfl⟩
  | vex128 a =>
    obtain ⟨b, t, h, hb⟩ := vexBytes_begins st e a false
    exact ⟨b, _, by rw [Form.opcodeBytes, h]; rfl, hb⟩
  | vex256 a =>
    obtain ⟨b, t, h, hb⟩ := vexBytes_begins st e a true
    exact ⟨b, _, by rw [Form.opcodeBytes, h]; rfl, hb⟩

theorem parseInstr_encodeStyled {m : Mode} {pol : Imm8Policy} (st : EncodingStyle) {i : Instr} (rest : List Byte)
    (h : i.wf m pol = true) : parseInstr m pol (encodeStyled m st i ++ rest) = .ok (i, rest) := by
  obtain ⟨hm, hf, hdst, ho, hi⟩ := Instr.wf_iff.1 h
  have he : (i.ext m st).FitsMode m := rmExt_fitsMode st hm (VReg.extBitFits_hiBit hm hdst) ho
  have hscan : scanPrefixes m Prefixes.none (encodeStyled m st i ++ rest) =
      .ok (scanned m st i.form.needs66 i.rm,
        i.form.opcodeBytes m st (i.ext m st) ++ (encodeBody m st i.dst i.rm i.imm ++ rest)) := by
    obtain ⟨b, t, hop, hb⟩ := opcodeBytes_begins m st (i.ext m st) i.form
    simpa [encodeStyled_eq, hop] using scanPrefixes_encoded (p66 := i.form.needs66) _ hb
  have hp66 : (scanned m st i.form.needs66 i.rm).p66 = i.form.needs66 := by cases i.rm <;> rfl
  simp only [parseInstr, hm, if_false, hscan, DecodeResult.andThen_ok, parseOpcode_opcodeBytes _ hp66 he hf]
  exact (parseBody_encodeBody rest ho (scanned_fits ho) hi).trans (by rw [formInstr_parts])

/-- Settles O1, stage by stage of R71: the prefixes, the opcode and the body of an encoding each read back. -/
theorem decodeOfEncodeIsTheInstruction : Obligations.DecodeOfEncodeIsTheInstruction := by
  unfold Obligations.DecodeOfEncodeIsTheInstruction
  intro m pol st i rest h
  simp [decode, parseInstr_encodeStyled st rest h]

/-! ### The length of an encoding (R64) -/

theorem orderPrefixes_length (st : EncodingStyle) (a b c : List Byte) :
    (orderPrefixes st a b c).length = a.length + b.length + c.length := by
  cases h : st.order <;> simp [orderPrefixes, h] <;> omega

theorem encodeStyled_length (m : Mode) (st : EncodingStyle) (i : Instr) :
    (encodeStyled m st i).length = i.form.needs66.toNat + (rmPrefixes m st i.rm).1.length +
      (rmPrefixes m st i.rm).2.length + (i.form.opcodeBytes m st (i.ext m st)).length +
        (encodeBody m st i.dst i.rm i.imm).length := by
  rw [encodeStyled_eq, List.length_append, List.length_append, orderPrefixes_length]
  cases i.form.needs66 <;> simp [Nat.add_assoc]

theorem rmPrefixes_length_le (m : Mode) (st : EncodingStyle) (o : RM) :
    (rmPrefixes m st o).1.length ≤ 1 ∧ (rmPrefixes m st o).2.length ≤ 1 := by
  cases o <;>
  · simp only [rmPrefixes]
    constructor <;> split <;> simp

/-- The opcode of a form takes three or four bytes, the mandatory `66` counted. -/
theorem opcodeBytes_length (m : Mode) (st : EncodingStyle) (e : Ext) (f : Form) :
    3 ≤ f.needs66.toNat + (f.opcodeBytes m st e).length ∧ f.needs66.toNat + (f.opcodeBytes m st e).length ≤ 4 := by
  have hrex : (rexBytes m st e).length ≤ 1 := by
    unfold rexBytes
    split <;> simp
  have hvex (a : VReg) (l : Bool) : 2 ≤ (vexBytes st e a l).length ∧ (vexBytes st e a l).length ≤ 3 := by
    unfold vexBytes
    split <;> simp
  cases f with
  | legacy =>
    simp only [Form.needs66, Form.opcodeBytes, List.length_append, List.length_cons, List.length_nil, Bool.toNat_true]
    omega
  | vex128 a | vex256 a =>
    have h128 := hvex a false
    have h256 := hvex a true
    simp only [Form.needs66, Form.opcodeBytes, List.length_append, List.length_singleton, Bool.toNat_false]
    omega

theorem dispEnc_length_le (n : DispSize) (d : BitVec 32) : (dispEnc n d).length ≤ 4 := by
  cases n <;> simp [dispEnc, dispBytes]

/-- ModRM and immediate, with at most a SIB byte and four displacement bytes between them. -/
theorem encodeBody_length (m : Mode) (st : EncodingStyle) (dst : VReg) (o : RM) (imm8 : Byte) :
    2 ≤ (encodeBody m st dst o imm8).length ∧ (encodeBody m st dst o imm8).length ≤ 7 := by
  have hrm : (encodeRm m st o).2.2.length ≤ 5 := by
    cases o with
    | reg n => simp [encodeRm]
    | mem o =>
      have hdisp (b : GReg) : (dispEnc (dispChoice st b o.disp) o.disp).length < 5 :=
        Nat.lt_succ_of_le (dispEnc_length_le _ _)
      simp only [encodeRm]
      split <;> split <;> simp [dispBytes, hdisp, (hdisp _).le]
  have hlen : (encodeBody m st dst o imm8).length = (encodeRm m st o).2.2.length + 2 := by simp [encodeBody]
  omega

theorem encodeStyled_length_bounds (m : Mode) (st : EncodingStyle) (i : Instr) :
    5 ≤ (encodeStyled m st i).length ∧ (encodeStyled m st i).length ≤ 13 := by
  have hpre := rmPrefixes_length_le m st i.rm
  have hop := opcodeBytes_length m st (i.ext m st) i.form
  have hbody := encodeBody_length m st i.dst i.rm i.imm
  rw [encodeStyled_length]
  omega

/-! ### The two VEX prefixes (R62) -/

section TwoPrefixes

variable {m : Mode} {st : EncodingStyle}

/-- The style's choice of the VEX prefix leaves the extension bits of the operand as they are, and R has no part in
them. -/
theorem rmExt_withVex (wide w r : Bool) (o : RM) :
    rmExt m { st with wide := wide, w := w } r o = { rmExt m st false o with r := r } := by
  cases o <;> rfl

theorem rmPrefixes_withVex (wide w : Bool) (o : RM) :
    rmPrefixes m { st with wide := wide, w := w } o = rmPrefixes m st o := by
  cases o <;> rfl

theorem encodeBody_withVex (wide w : Bool) (dst : VReg) (o : RM) (imm8 : Byte) :
    encodeBody m { st with wide := wide, w := w } dst o imm8 = encodeBody m st dst o imm8 := rfl

theorem vexBytes_length {e : Ext} (a : VReg) (l : Bool) (hx : e.x = false) (hb : e.b = false) :
    (vexBytes st e a l).length = 2 + st.wide.toNat := by
  cases hw : st.wide <;> simp [vexBytes, hx, hb, hw]

/-- Where X and B are 0, the three-byte VEX prefix costs one byte, and its W none. -/
theorem encodeStyled_length_withVex {i : Instr} (hi : ∀ d o k, i ≠ .shufpd d o k)
    (hx : (rmExt m st false i.rm).x = false) (hb : (rmExt m st false i.rm).b = false) (wide w : Bool) :
    (encodeStyled m { st with wide := wide, w := w } i).length =
      (rmPrefixes m st i.rm).1.length + (rmPrefixes m st i.rm).2.length + 3 +
        (encodeBody m st i.dst i.rm i.imm).length + wide.toNat := by
  rw [encodeStyled_length, rmPrefixes_withVex, encodeBody_withVex, Instr.ext, rmExt_withVex]
  cases i with
  | shufpd d o k => exact absurd rfl (hi d o k)
  | _ =>
    simp only [Instr.form, Form.needs66, Form.opcodeBytes, List.length_append, List.length_singleton,
      vexBytes_length, hx, hb, Bool.toNat_false]
    omega

end TwoPrefixes

/-- Settles O2: both encodings are styles that O1 speaks of, and their lengths differ by one. -/
theorem twoByteAndThreeByteVexDecodeAlike : Obligations.TwoByteAndThreeByteVexDecodeAlike := by
  unfold Obligations.TwoByteAndThreeByteVexDecodeAlike
  intro m pol st i rest h hi hx hb
  have hlen := encodeStyled_length_withVex hi hx hb
  have hdecode (wide w : Bool) := decodeOfEncodeIsTheInstruction m pol { st with wide := wide, w := w } i rest h
  exact ⟨_, fun w => ⟨by rw [hdecode, hlen], by rw [hdecode, hlen, Bool.toNat_true, Bool.toNat_false]⟩⟩

/-- Settles O3: every stage of R71 reads its bytes front to back. -/
theorem decodeIgnoresFollowingBytes : Obligations.DecodeIgnoresFollowingBytes := by
  unfold Obligations.DecodeIgnoresFollowingBytes
  exact fun m pol bs extra h => decode_append extra h

/-! ### Mod 00, r/m 101 (R57) -/

/-- The operand with a displacement and no register, of the mode's address size: RIP-relative in `mode64`, absolute in
`mode32`. -/
def dispOperand (m : Mode) (d : BitVec 32) : MemOperand :=
  memOperand m Prefixes.none none none .x1 (m == .mode64) d

@[simp] theorem hiBit_regNum (hi : Bool) : ∀ lo : BitVec 3, hiBit (regNum hi lo) = hi := by
  cases hi <;> decide

@[simp] theorem lo3_regNum (hi : Bool) : ∀ lo : BitVec 3, lo3 (regNum hi lo) = lo := by
  cases hi <;> decide

theorem encode_shufpd_dispOperand {m : Mode} (hm : m ≠ .realAddress) (r : BitVec 3) (d : BitVec 32) (k : Byte) :
    encode m (.shufpd (regNum false r) (.mem (dispOperand m d)) k) =
      0x66#8 :: 0x0F#8 :: 0xC6#8 :: (0x0#2 ++ r ++ 0x5#3 : Byte) :: (dispBytes d ++ [k]) := by
  cases m with
  | realAddress => exact absurd rfl hm
  | mode64 | mode32 =>
    simp [encode, encodeStyled, dispOperand, memOperand, rmPrefixes, rexBytes, rmExt, encodeBody, encodeRm, usesSib,
      hiBit_regNum, lo3_regNum, EncodingStyle.short, Prefixes.none, asizeOf, orderPrefixes, spare, Ext.zero]

theorem decode_shufpd_dispOperand {m : Mode} (hm : m ≠ .realAddress) (r : BitVec 3) (d : BitVec 32) (k : Byte)
    (rest : List Byte) :
    decode m .ignore (0x66#8 :: 0x0F#8 :: 0xC6#8 :: (0x0#2 ++ r ++ 0x5#3 : Byte) :: (dispBytes d ++ k :: rest)) =
      .ok { instr := .shufpd (regNum false r) (.mem (dispOperand m d)) k, len := 9 } := by
  have hwf : (Instr.shufpd (regNum false r) (.mem (dispOperand m d)) k).wf m .ignore = true :=
    Instr.wf_iff.2 ⟨hm, rfl, VReg.wf_regNum r (extBitFits_false hm),
      memOperand_wf d hm rfl rfl (by simp) (by simp), rfl⟩
  have h := decodeOfEncodeIsTheInstruction m .ignore EncodingStyle.short _ rest hwf
  rw [← encode, encode_shufpd_dispOperand hm] at h
  simpa [dispBytes] using h

/-- Settles O9: the bytes are the shortest encoding of the operand in each mode, so that O1 says what they decode to. -/
theorem ripRelativeInMode64AbsoluteInMode32 : Obligations.RipRelativeInMode64AbsoluteInMode32 := by
  unfold Obligations.RipRelativeInMode64AbsoluteInMode32
  intro r d k rest
  exact ⟨decode_shufpd_dispOperand (m := .mode64) (by decide) r d k rest,
    decode_shufpd_dispOperand (m := .mode32) (by decide) r d k rest⟩

/-- Settles O6: closed words, evaluated. -/
theorem writtenOutWordsDecode : Obligations.WrittenOutWordsDecode := by
  unfold Obligations.WrittenOutWordsDecode
  decide

/-! ### The prefixes the scan has met (R55) -/

/-- The `66` among the prefixes met. -/
def Prefixes.byte66 (p : Prefixes) : Option Byte := if p.p66 then some 0x66#8 else Option.none

/-- The `67` among the prefixes met. -/
def Prefixes.byte67 (p : Prefixes) : Option Byte := if p.a67 then some 0x67#8 else Option.none

/-- The segment override among the prefixes met. -/
def Prefixes.byteSeg (p : Prefixes) : Option Byte := p.seg.map segByte

/-- The bytes of the prefixes met. -/
def Prefixes.bytes (p : Prefixes) : List Byte := p.byte66.toList ++ (p.byte67.toList ++ p.byteSeg.toList)

theorem Prefixes.bytes_none : Prefixes.none.bytes = [] := rfl

theorem Prefixes.byte66_toList (p : Prefixes) : p.byte66.toList = if p.p66 then [0x66#8] else [] := by
  unfold Prefixes.byte66
  split <;> rfl

theorem Prefixes.bytes_meet66 {p : Prefixes} (h : p.p66 = false) :
    ({ p with p66 := true } : Prefixes).bytes = 0x66#8 :: p.bytes := by
  simp [Prefixes.bytes, Prefixes.byte66, Prefixes.byte67, Prefixes.byteSeg, h]

theorem Prefixes.bytes_meet67 {p : Prefixes} (h : p.a67 = false) :
    ({ p with a67 := true } : Prefixes).bytes.Perm (0x67#8 :: p.bytes) := by
  simp [Prefixes.bytes, Prefixes.byte66, Prefixes.byte67, Prefixes.byteSeg, h]

theorem Prefixes.bytes_meetSeg {p : Prefixes} (g : Seg) (h : p.seg = Option.none) :
    ({ p with seg := some g } : Prefixes).bytes.Perm (segByte g :: p.bytes) := by
  simpa [Prefixes.bytes, Prefixes.byte66, Prefixes.byte67, Prefixes.byteSeg, h] using
    List.perm_append_singleton (segByte g) (p.byte66.toList ++ p.byte67.toList)

theorem eq_lock_of_legacyByte : ∀ {b : Byte}, legacyByte? b = some .lock → b = 0xF0#8 := by decide

theorem eq_66_of_legacyByte : ∀ {b : Byte}, legacyByte? b = some .opSize → b = 0x66#8 := by decide

theorem eq_67_of_legacyByte : ∀ {b : Byte}, legacyByte? b = some .addrSize → b = 0x67#8 := by decide

theorem eq_segByte_of_legacyByte {g : Seg} : ∀ {b : Byte}, legacyByte? b = some (.segment g) → b = segByte g := by
  cases g <;> decide

/-- What follows a repeat prefix is never scanned on (R63, R72). -/
theorem afterRepeat_ne_ok (m : Mode) (bs : List Byte) (x : Prefixes × List Byte) : afterRepeat m bs ≠ .ok x := by
  induction bs with
  | nil => exact nofun
  | cons b bs ih =>
    unfold afterRepeat
    split
    · exact nofun
    · exact ih
    · intro h
      repeat' split at h
      all_goals cases h

/-- The bytes a scan passes over are those of the prefixes it has met, in some order. -/
theorem scanPrefixes_eq_ok {m : Mode} {p q : Prefixes} {bs t : List Byte} (h : scanPrefixes m p bs = .ok (q, t)) :
    (m = .mode32 → q.a67 = false) ∧ ∃ ps, bs = ps ++ t ∧ q.bytes.Perm (ps ++ p.bytes) := by
  induction bs generalizing p with
  | nil => cases h
  | cons b bs ih =>
    have meet {p' : Prefixes} (hp : p'.bytes.Perm (b :: p.bytes)) (h : scanPrefixes m p' bs = .ok (q, t)) :
        (m = .mode32 → q.a67 = false) ∧ ∃ ps, b :: bs = ps ++ t ∧ q.bytes.Perm (ps ++ p.bytes) := by
      obtain ⟨hm, ps, rfl, hps⟩ := ih h
      exact ⟨hm, b :: ps, rfl, hps.trans ((hp.append_left ps).trans List.perm_middle)⟩
    unfold scanPrefixes at h
    split at h
    next => cases h
    next => exact absurd h (afterRepeat_ne_ok m bs _)
    next hb =>
      split at h
      · cases h
      · rename_i h66
        cases eq_66_of_legacyByte hb
        exact meet (.of_eq (Prefixes.bytes_meet66 (by simpa using h66))) h
    next hb =>
      split at h
      · cases h
      · rename_i h67
        cases eq_67_of_legacyByte hb
        exact meet (Prefixes.bytes_meet67 (by simpa using h67)) h
    next g hb =>
      split at h
      · cases h
      · rename_i hseg
        cases eq_segByte_of_legacyByte hb
        exact meet (Prefixes.bytes_meetSeg g (by simpa using hseg)) h
    next =>
      split at h
      · cases h
      · rename_i h67
        cases h
        exact ⟨by simpa using h67, [], rfl, .refl _⟩

theorem exists_prefixOrder_iff {P : PrefixOrder → Prop} :
    (∃ o, P o) ↔ P .abc ∨ P .acb ∨ P .bac ∨ P .bca ∨ P .cab ∨ P .cba :=
  ⟨fun ⟨o, h⟩ => by cases o <;> simp [h], by rintro (h | h | h | h | h | h) <;> exact ⟨_, h⟩⟩

/-- However at most three bytes are permuted, they stand in one of the six orders. -/
theorem exists_order_of_perm {a b c : Option Byte} {ps : List Byte}
    (h : ps.Perm (a.toList ++ (b.toList ++ c.toList))) :
    ∃ order, ∀ st : EncodingStyle, st.order = order → orderPrefixes st a.toList b.toList c.toList = ps := by
  suffices ∃ order, orderPrefixes { EncodingStyle.short with order := order } a.toList b.toList c.toList = ps by
    obtain ⟨_, rfl⟩ := this
    exact ⟨_, fun st hst => by rw [orderPrefixes, hst, orderPrefixes]⟩
  have hmem := List.mem_permutations'.2 h
  rw [exists_prefixOrder_iff]
  cases a <;> cases b <;> cases c
  all_goals
    simp only [Option.toList, List.nil_append, List.cons_append, List.permutations', List.permutations'Aux,
      List.flatMap_cons, List.flatMap_nil, List.map, List.append_nil, List.mem_cons, List.not_mem_nil,
      or_false] at hmem
    simp only [orderPrefixes, Option.toList, List.nil_append, List.cons_append, List.append_nil]
    tauto

/-! ### The opcode -/

theorem parseLegacyOpcode_eq_ok {p : Prefixes} {e e' : Ext} {f : Form} {bs t : List Byte}
    (h : parseLegacyOpcode p e bs = .ok ((f, e'), t)) :
    p.p66 = true ∧ f = .legacy ∧ e' = e ∧ bs = 0x0F#8 :: 0xC6#8 :: t := by
  unfold parseLegacyOpcode at h
  repeat' split at h
  all_goals cases h
  simp_all

theorem rexByte_of_isRex : ∀ b : Byte, isRex b = true → rexByte (b.getLsbD 3) (Ext.ofRex b) = b := by decide

theorem vexLast_of_pp : ∀ b : Byte, b.extractLsb' 0 2 = 0x1#2 →
    vexLast (b.getLsbD 7) (vvvvNum (b.extractLsb' 3 4)) (b.getLsbD 2) = b := by decide

theorem vexSecond_of_mmmmm : ∀ b : Byte, b.extractLsb' 0 5 = 0x01#5 →
    BitVec.ofBool (b.getLsbD 7) ++ BitVec.ofBool (b.getLsbD 6) ++ BitVec.ofBool (b.getLsbD 5) ++ 0x01#5 = b := by
  decide

theorem parseVexOpcode_eq_ok {m : Mode} {mmmmm : BitVec 5} {e e' : Ext} {f : Form} {last : Byte} {bs t : List Byte}
    (h : parseVexOpcode m mmmmm e last bs = .ok ((f, e'), t)) :
    mmmmm = 0x01#5 ∧ e' = e ∧ bs = 0xC6#8 :: t ∧
      ∃ a l, f = vexForm l a ∧ vexLast (last.getLsbD 7) a l = last := by
  unfold parseVexOpcode at h
  split at h
  · rename_i hfields
    split at h
    · cases h
    · split at h
      · rename_i hc6
        dsimp only at h
        split at h
        · cases h
        · cases h
          exact ⟨hfields.1, rfl, by rw [hc6], _, _, rfl, vexLast_of_pp last hfields.2⟩
      · cases h
  · cases h

/-- The bytes before `t` are what a style with some choice of REX or VEX prefix writes as the opcode after these
prefixes. -/
def OpcodeWritten (m : Mode) (p : Prefixes) (f : Form) (e : Ext) (bs t : List Byte) : Prop :=
  p.p66 = f.needs66 ∧ ∃ wide w, ∀ st : EncodingStyle, st.wide = wide → st.w = w → f.opcodeBytes m st e ++ t = bs

section Opcode

variable {m : Mode} {p : Prefixes} {e : Ext} {f : Form} {bs t : List Byte}

theorem opcodeWritten_bare (h : parseLegacyOpcode p Ext.zero bs = .ok ((f, e), t)) : OpcodeWritten m p f e bs t := by
  obtain ⟨hp, rfl, rfl, rfl⟩ := parseLegacyOpcode_eq_ok h
  exact ⟨hp, false, false, fun st hwide _ => by simp [Form.opcodeBytes, rexBytes, hwide]⟩

theorem opcodeWritten_rex {b : Byte} (hm : m = .mode64) (hrex : isRex b = true)
    (h : parseLegacyOpcode p (Ext.ofRex b) bs = .ok ((f, e), t)) : OpcodeWritten m p f e (b :: bs) t := by
  obtain ⟨hp, rfl, rfl, rfl⟩ := parseLegacyOpcode_eq_ok h
  refine ⟨hp, true, b.getLsbD 3, fun st hwide hw => ?_⟩
  have hbytes : rexBytes m st (Ext.ofRex b) = [b] := by
    rw [rexBytes, if_pos ⟨hm, .inr hwide⟩, hwide, hw, Bool.true_and, rexByte_of_isRex b hrex]
  simp [Form.opcodeBytes, hbytes]

theorem opcodeWritten_vex {a : VReg} {l : Bool} {vex : List Byte} (hp : p.p66 = false) (wide w : Bool)
    (hvex : ∀ st : EncodingStyle, st.wide = wide → st.w = w → vexBytes st e a l = vex) :
    OpcodeWritten m p (vexForm l a) e (vex ++ 0xC6#8 :: t) t := by
  refine ⟨by cases l <;> exact hp, wide, w, fun st hwide hw => ?_⟩
  cases l <;> simp [vexForm, Form.opcodeBytes, hvex st hwide hw]

theorem opcodeWritten_vex2 {b1 : Byte} (hp : p.p66 = false)
    (h : parseVexOpcode m 0x01#5 { r := !b1.getLsbD 7, x := false, b := false } b1 bs = .ok ((f, e), t)) :
    OpcodeWritten m p f e (0xC5#8 :: b1 :: bs) t := by
  obtain ⟨_, rfl, rfl, a, l, rfl, hlast⟩ := parseVexOpcode_eq_ok h
  refine opcodeWritten_vex (vex := [0xC5#8, b1]) hp false false fun st hwide _ => ?_
  rw [vexBytes, if_pos ⟨rfl, rfl, by simp [hwide]⟩, Bool.not_not, hlast]

theorem opcodeWritten_vex3 {b1 b2 : Byte} (hp : p.p66 = false)
    (h : parseVexOpcode m (b1.extractLsb' 0 5) { r := !b1.getLsbD 7, x := !b1.getLsbD 6, b := !b1.getLsbD 5 } b2 bs =
      .ok ((f, e), t)) :
    OpcodeWritten m p f e (0xC4#8 :: b1 :: b2 :: bs) t := by
  obtain ⟨hmap, rfl, rfl, a, l, rfl, hlast⟩ := parseVexOpcode_eq_ok h
  refine opcodeWritten_vex (vex := [0xC4#8, b1, b2]) hp true (b2.getLsbD 7) fun st hwide hw => ?_
  rw [vexBytes, if_neg (by simp [hwide]), hwide, hw, Bool.true_and, hlast]
  simp only [Bool.not_not, vexSecond_of_mmmmm b1 hmap]

/-- The bytes of REX or VEX prefix and opcode are those a style writes. -/
theorem parseOpcode_eq_ok (h : parseOpcode m p bs = .ok ((f, e), t)) : OpcodeWritten m p f e bs t := by
  cases bs with
  | nil => cases h
  | cons b0 bs =>
    unfold parseOpcode at h
    dsimp only at h
    split at h
    · -- a REX prefix
      rename_i hrex
      repeat' split at h
      case h_2.isFalse => exact opcodeWritten_rex hrex.1 hrex.2 h
      all_goals cases h
    · split at h
      · rename_i hlead
        split at h
        · cases h
        · split at h
          · cases h
          · split at h
            · -- a VEX prefix, of two or of three bytes
              split at h
              · cases h
              · rename_i h66
                have hp : p.p66 = false := by simpa using h66
                split at h
                · rename_i hc5
                  subst hc5
                  exact opcodeWritten_vex2 hp h
                · rename_i hc5
                  obtain rfl : b0 = 0xC4#8 := by simpa [isVexLead, hc5] using hlead
                  split at h
                  · cases h
                  · exact opcodeWritten_vex3 hp h
            · exact opcodeWritten_bare h
      · exact opcodeWritten_bare h

end Opcode

/-! ### The operand (R57 to R59) -/

/-- A displacement form that can hold the displacement: nothing only for 0, one byte only if it is sign-extended. -/
def DispSize.Holds (n : DispSize) (d : BitVec 32) : Prop := (n = .d0 → d = 0#32) ∧ (n = .d8 → fitsDisp8 d = true)

/-- The bytes of a displacement are those that encode it in its form. -/
theorem parseDisp_eq_ok {n : DispSize} {d : BitVec 32} {bs t : List Byte} (h : parseDisp n bs = .ok (d, t)) :
    n.Holds d ∧ bs = dispEnc n d ++ t := by
  have disp8_byte : ∀ b : Byte, (disp8 b).extractLsb' 0 8 = b := by decide
  cases n with
  | d0 =>
    cases h
    exact ⟨⟨fun _ => rfl, nofun⟩, rfl⟩
  | d8 =>
    unfold parseDisp at h
    dsimp only at h
    split at h
    · cases h
    · cases h
      exact ⟨⟨nofun, fun _ => by simp [fitsDisp8, disp8_byte]⟩, by simp [dispEnc, disp8_byte]⟩
  | d32 =>
    unfold parseDisp at h
    dsimp only at h
    split at h
    · rename_i b0 b1 b2 b3 _
      cases h
      obtain ⟨h0, h1, h2, h3⟩ := Machine.disp32_bytes b0 b1 b2 b3
      exact ⟨⟨nofun, nofun⟩, by simp [dispEnc, dispBytes, h0, h1, h2, h3]⟩
    · cases h

/-- The rows of the tables of R57 and R58: `mod`, `r/m`, the operand they name and the bytes after ModRM. -/
inductive RmRow (m : Mode) (p : Prefixes) (e : Ext) : BitVec 2 → BitVec 3 → RM → List Byte → Prop where
  | reg (rm : BitVec 3) : RmRow m p e 0x3#2 rm (.reg (regNum e.b rm)) []
  | sibNoBase {sib : Byte} {d : BitVec 32} (hsib : sib.extractLsb' 0 3 = 0x5#3) :
    RmRow m p e 0x0#2 0x4#3
      (.mem (memOperand m p none (sibIndex e sib) (scaleOf (sib.extractLsb' 6 2)) false d)) (sib :: dispBytes d)
  | sibBase {md : BitVec 2} {sib : Byte} {d : BitVec 32} (hmd : md ≠ 0x3#2) (hsib : sibNoBase md sib = false)
    (hd : (modDisp md).Holds d) :
    RmRow m p e md 0x4#3
      (.mem (memOperand m p (some (regNum e.b (sib.extractLsb' 0 3))) (sibIndex e sib)
        (scaleOf (sib.extractLsb' 6 2)) false d)) (sib :: dispEnc (modDisp md) d)
  | disp {d : BitVec 32} :
    RmRow m p e 0x0#2 0x5#3 (.mem (memOperand m p none none .x1 (m == .mode64) d)) (dispBytes d)
  | base {md : BitVec 2} {rm : BitVec 3} {d : BitVec 32} (hmd : md ≠ 0x3#2) (hrm : rm ≠ 0x4#3)
    (hdisp : ¬(rm = 0x5#3 ∧ md = 0x0#2)) (hd : (modDisp md).Holds d) :
    RmRow m p e md rm (.mem (memOperand m p (some (regNum e.b rm)) none .x1 false d)) (dispEnc (modDisp md) d)

/-- The operand stage answers by a row of the tables. -/
theorem parseRm_eq_ok {m : Mode} {p : Prefixes} {e : Ext} {md : BitVec 2} {rm : BitVec 3} {o : RM} {bs t : List Byte}
    (h : parseRm m p e md rm bs = .ok (o, t)) : ∃ enc, bs = enc ++ t ∧ RmRow m p e md rm o enc := by
  unfold parseRm at h
  split at h
  · rename_i hmd
    cases h
    cases hmd
    exact ⟨[], rfl, .reg rm⟩
  · rename_i hmd
    split at h
    · rename_i hrm
      subst hrm
      split at h
      · cases h
      · rename_i sib _
        obtain ⟨⟨d, u⟩, hdisp, h⟩ := DecodeResult.andThen_eq_ok_iff.1 h
        cases h
        cases hsib : sibNoBase md sib with
        | true =>
          rw [hsib, if_pos rfl] at hdisp
          obtain ⟨_, rfl⟩ := parseDisp_eq_ok hdisp
          have hfields := hsib
          simp only [sibNoBase, Bool.and_eq_true, beq_iff_eq] at hfields
          obtain ⟨h5, rfl⟩ := hfields
          rw [sibBase, hsib, if_pos rfl]
          exact ⟨_, rfl, .sibNoBase h5⟩
        | false =>
          rw [hsib, if_neg (by decide)] at hdisp
          obtain ⟨hd, rfl⟩ := parseDisp_eq_ok hdisp
          rw [sibBase, hsib, if_neg (by decide)]
          exact ⟨_, rfl, .sibBase hmd hsib hd⟩
    · rename_i hrm
      split at h
      · rename_i h5
        obtain ⟨rfl, rfl⟩ := h5
        obtain ⟨⟨d, u⟩, hdisp, h⟩ := DecodeResult.andThen_eq_ok_iff.1 h
        cases h
        exact ⟨_, (parseDisp_eq_ok hdisp).2, .disp⟩
      · rename_i h5
        obtain ⟨⟨d, u⟩, hdisp, h⟩ := DecodeResult.andThen_eq_ok_iff.1 h
        cases h
        obtain ⟨hd, rfl⟩ := parseDisp_eq_ok hdisp
        exact ⟨_, rfl, .base hmd hrm h5 hd⟩

/-- The style of bytes that were read: the order and the kind of prefix given, the prefixes met, the extension bits,
and the displacement form and SIB byte that `mod` and `r/m` say. -/
def styleRead (order : PrefixOrder) (wide w : Bool) (p : Prefixes) (e : Ext) (md : BitVec 2) (rm : BitVec 3) :
    EncodingStyle :=
  { order := order, wide := wide, w := w, spareX := e.x, spareB := e.b, disp := modDisp md, sib := rm == 0x4#3,
    explicitSeg := p.seg.isSome, regSeg := p.seg, reg67 := p.a67 }

theorem dispMod_modDisp : ∀ {md : BitVec 2}, md ≠ 0x3#2 → dispMod (modDisp md) = md := by decide

theorem modDisp_eq_d0 : ∀ {md : BitVec 2}, modDisp md = .d0 ↔ md = 0x0#2 := by decide

/-- The displacement form `mod` says is one the style may ask for. -/
theorem dispChoice_modDisp {st : EncodingStyle} {md : BitVec 2} {b : GReg} {d : BitVec 32} (hst : st.disp = modDisp md)
    (hd : (modDisp md).Holds d) (hb : ¬(lo3 b = 0x5#3 ∧ md = 0x0#2)) : dispChoice st b d = modDisp md := by
  have hfits : dispFits (modDisp md) b d = true := by
    obtain ⟨h0, h8⟩ := hd
    cases hn : modDisp md with
    | d0 =>
      have hb5 : lo3 b ≠ 0x5#3 := fun h5 => hb ⟨h5, modDisp_eq_d0.1 hn⟩
      simp [dispFits, h0 hn, hb5]
    | d8 => exact h8 hn
    | d32 => rfl
  rw [dispChoice, hst, if_pos hfits]

theorem scaleField_scaleOf : ∀ f : BitVec 2, scaleField (scaleOf f) = f := by decide

theorem byte_fields : ∀ b : Byte, (b.extractLsb' 6 2 ++ b.extractLsb' 3 3 ++ b.extractLsb' 0 3 : Byte) = b := by decide

section MemOperand

variable (m : Mode) (p : Prefixes) (base index : Option GReg) (scale : Scale) (riprel : Bool) (d : BitVec 32)

@[simp] theorem memOperand_seg : (memOperand m p base index scale riprel d).seg = p.seg.getD (defaultSeg base) := rfl
@[simp] theorem memOperand_base : (memOperand m p base index scale riprel d).base = base := rfl
@[simp] theorem memOperand_index : (memOperand m p base index scale riprel d).index = index := rfl
@[simp] theorem memOperand_scale : (memOperand m p base index scale riprel d).scale = scale := rfl
@[simp] theorem memOperand_riprel : (memOperand m p base index scale riprel d).riprel = riprel := rfl
@[simp] theorem memOperand_disp : (memOperand m p base index scale riprel d).disp = d := rfl
@[simp] theorem memOperand_asize : (memOperand m p base index scale riprel d).asize = asizeOf m p := rfl

end MemOperand

/-- The SIB byte an operand was read from is the one that encodes it. -/
theorem sibByte_read {o : MemOperand} {e : Ext} {sib : Byte} {b3 : BitVec 3} (hi : o.index = sibIndex e sib)
    (hs : o.scale = scaleOf (sib.extractLsb' 6 2)) (hb : sib.extractLsb' 0 3 = b3) : sibByte o b3 = sib := by
  subst hb
  refine Eq.trans ?_ (byte_fields sib)
  rw [sibByte, hs, scaleField_scaleOf, hi, sibIndex]
  split
  · rename_i i h
    split at h
    · cases h
    · cases h
      rw [lo3_regNum]
  · rename_i h
    split at h
    · rename_i h4
      rw [show sib.extractLsb' 3 3 = 0x4#3 by simpa [lo3_regNum, show lo3 4 = 0x4#3 from rfl] using congrArg lo3 h4]
    · cases h

/-- Bit X is the extension bit of the index register; no index is number 4 in four bits. -/
theorem sibIndex_any_hiBit (e : Ext) (sib : Byte) : (sibIndex e sib).any hiBit = e.x := by
  unfold sibIndex
  split
  · rename_i h4
    simpa [hiBit_regNum, show hiBit 4 = false from rfl] using (congrArg hiBit h4).symm
  · exact hiBit_regNum e.x _

/-- Base field 101 with `mod` 00 is no base register. -/
theorem sibNoBase_eq_false {md : BitVec 2} {sib : Byte} (h : sibNoBase md sib = false) :
    ¬(sib.extractLsb' 0 3 = 0x5#3 ∧ md = 0x0#2) := by
  rintro ⟨h5, rfl⟩
  rw [sibNoBase, h5] at h
  cases h

section Row

variable {m : Mode} {p : Prefixes} {e : Ext} {md : BitVec 2} {rm : BitVec 3} {o : RM} {enc : List Byte}
  {order : PrefixOrder} {wide w : Bool}

/-- A row's operand is encoded, in the style read, as the row says (R57, R58). -/
theorem encodeRm_of_row (h : RmRow m p e md rm o enc) :
    encodeRm m (styleRead order wide w p e md rm) o = (md, rm, enc) := by
  cases h with
  | reg rm => simp [encodeRm]
  | @sibNoBase sib d hsib =>
    have hbyte := sibByte_read (o := memOperand m p none (sibIndex e sib) (scaleOf _) false d) rfl rfl hsib
    simp [encodeRm, usesSib, styleRead, hbyte]
  | @sibBase _ sib d hmd hsib hd =>
    have hbyte := sibByte_read (o := memOperand m p (some (regNum e.b (sib.extractLsb' 0 3))) (sibIndex e sib)
      (scaleOf _) false d) rfl rfl rfl
    have hchoice := dispChoice_modDisp (st := styleRead order wide w p e md 0x4#3)
      (b := regNum e.b (sib.extractLsb' 0 3)) rfl hd (by simpa using sibNoBase_eq_false hsib)
    have hsib : (styleRead order wide w p e md 0x4#3).sib = true := rfl
    simp [encodeRm, usesSib, hsib, hbyte, hchoice, dispMod_modDisp hmd]
  | disp => cases m <;> simp [encodeRm, usesSib, styleRead]
  | @base _ _ d hmd hrm hdisp hd =>
    have hchoice := dispChoice_modDisp (st := styleRead order wide w p e md rm) (b := regNum e.b rm) rfl hd
      (by simpa using hdisp)
    have hsib : (styleRead order wide w p e md rm).sib = false := beq_eq_false_iff_ne.2 hrm
    simp [encodeRm, usesSib, hsib, hchoice, dispMod_modDisp hmd, hrm]

/-- A row's operand gives back the extension bits it was read with (R74). -/
theorem rmExt_of_row (he : e.FitsMode m) (h : RmRow m p e md rm o enc) :
    rmExt m (styleRead order wide w p e md rm) e.r o = e := by
  have spare_eq {b : Bool} (hb : extBitFits m b) : spare m b = b := by
    rcases hb with rfl | ⟨rfl, rfl⟩ <;> rfl
  have hx := spare_eq he.x
  have hb := spare_eq he.b
  cases h <;> simp_all [rmExt, usesSib, styleRead, sibIndex_any_hiBit]

/-- A memory operand's prefixes are the ones it was read with. -/
theorem rmPrefixes_memOperand (hm : m ≠ .realAddress) (h67 : m = .mode32 → p.a67 = false) (base index : Option GReg)
    (scale : Scale) (riprel : Bool) (d : BitVec 32) :
    rmPrefixes m (styleRead order wide w p e md rm) (.mem (memOperand m p base index scale riprel d)) =
      (p.byte67.toList, p.byteSeg.toList) := by
  refine Prod.ext ?_ ?_
  · cases m <;> cases h : p.a67 <;> simp_all [rmPrefixes, asizeOf, Prefixes.byte67]
  · cases h : p.seg <;> simp [rmPrefixes, styleRead, Prefixes.byteSeg, h]

/-- A row's operand has the prefixes it was read with (R55, R59). -/
theorem rmPrefixes_of_row (hm : m ≠ .realAddress) (h67 : m = .mode32 → p.a67 = false) (h : RmRow m p e md rm o enc) :
    rmPrefixes m (styleRead order wide w p e md rm) o = (p.byte67.toList, p.byteSeg.toList) := by
  cases h with
  | reg n =>
    refine Prod.ext ?_ ?_
    · cases m <;> cases h : p.a67 <;> simp_all [rmPrefixes, styleRead, Prefixes.byte67]
    · cases h : p.seg <;> simp [rmPrefixes, styleRead, Prefixes.byteSeg, h]
  | _ => exact rmPrefixes_memOperand hm h67 _ _ _ _ _

end Row

/-! ### Every decoded instruction stands in one of its encodings -/

theorem parseImm_reads {pol : Imm8Policy} {f : Form} {dst : VReg} {o : RM} {i : Instr} {bs t : List Byte}
    (h : parseImm pol f dst o bs = .ok (i, t)) : ∃ imm8, bs = imm8 :: t ∧ i = formInstr f dst o imm8 := by
  unfold parseImm at h
  split at h
  · cases h
  · split at h <;> cases h
    exact ⟨_, rfl, rfl⟩

/-- ModRM, the operand's bytes and the immediate are the body of the instruction in the style read. -/
theorem parseBody_reads {m : Mode} {pol : Imm8Policy} {p : Prefixes} {f : Form} {e : Ext} {i : Instr}
    {bs t : List Byte} (h : parseBody m pol p f e bs = .ok (i, t)) (hm : m ≠ .realAddress)
    (h67 : m = .mode32 → p.a67 = false) (he : e.FitsMode m) (order : PrefixOrder) (wide w : Bool) :
    ∃ st : EncodingStyle, st.order = order ∧ st.wide = wide ∧ st.w = w ∧ i.form = f ∧ i.ext m st = e ∧
      rmPrefixes m st i.rm = (p.byte67.toList, p.byteSeg.toList) ∧
      encodeBody m st i.dst i.rm i.imm ++ t = bs := by
  unfold parseBody at h
  split at h
  · cases h
  · rename_i modrm _
    obtain ⟨⟨o, u⟩, hrm, himm⟩ := DecodeResult.andThen_eq_ok_iff.1 h
    obtain ⟨enc, rfl, hrow⟩ := parseRm_eq_ok hrm
    obtain ⟨imm8, rfl, rfl⟩ := parseImm_reads himm
    refine ⟨styleRead order wide w p e (modrm.extractLsb' 6 2) (modrm.extractLsb' 0 3), rfl, rfl, rfl,
      formInstr_form .., ?_, ?_, ?_⟩
    · simp [Instr.ext, rmExt_of_row he hrow]
    · simp [rmPrefixes_of_row hm h67 hrow]
    · simp [encodeBody, encodeRm_of_row hrow, byte_fields]

theorem parseInstr_reads {m : Mode} {pol : Imm8Policy} {i : Instr} {bs t : List Byte}
    (h : parseInstr m pol bs = .ok (i, t)) : ∃ st, encodeStyled m st i ++ t = bs := by
  unfold parseInstr at h
  split at h
  · cases h
  · rename_i hm
    obtain ⟨⟨p, u⟩, hscan, h⟩ := DecodeResult.andThen_eq_ok_iff.1 h
    obtain ⟨⟨⟨f, e⟩, v⟩, hop, hbody⟩ := DecodeResult.andThen_eq_ok_iff.1 h
    obtain ⟨h67, ps, rfl, hps⟩ := scanPrefixes_eq_ok hscan
    obtain ⟨hp66, wide, w, hopcode⟩ := parseOpcode_eq_ok hop
    rw [Prefixes.bytes_none, List.append_nil] at hps
    obtain ⟨order, horder⟩ := exists_order_of_perm hps.symm
    obtain ⟨st, ho, hwide, hw, hform, hext, hprefixes, rfl⟩ :=
      parseBody_reads hbody hm h67 (parseOpcode_fits hm hop).2 order wide w
    refine ⟨st, ?_⟩
    rw [encodeStyled_eq, hform, hext, hprefixes, ← hp66, ← Prefixes.byte66_toList, horder st ho,
      ← hopcode st hwide hw, List.append_assoc, List.append_assoc]

/-- Settles O58, stage by stage of R71: each stage determines the choices of a style that writes the bytes it read. -/
theorem everyDecodedWordIsAnEncoding : Obligations.EveryDecodedWordIsAnEncoding := by
  unfold Obligations.EveryDecodedWordIsAnEncoding
  intro m pol bs d h
  obtain ⟨⟨i, t⟩, hparse, h⟩ := DecodeResult.andThen_eq_ok_iff.1 h
  cases h
  obtain ⟨st, rfl⟩ := parseInstr_reads hparse
  exact ⟨st, by simp⟩

/-- Settles O4: a decoded instruction stands in an encoding, whose length is bounded and which O1 decodes. -/
theorem decodedLengthsLieBetween5And13 : Obligations.DecodedLengthsLieBetween5And13 := by
  unfold Obligations.DecodedLengthsLieBetween5And13
  intro m pol bs d h
  have hwf := decodedInstructionsAreWellFormed m pol bs d h
  have hlen : d.len ≤ bs.length := by
    obtain ⟨_, _, h⟩ := DecodeResult.andThen_eq_ok_iff.1 h
    cases h
    exact Nat.sub_le _ _
  obtain ⟨st, hst⟩ := everyDecodedWordIsAnEncoding m pol bs d h
  have hstlen : (encodeStyled m st d.instr).length = d.len := by rw [hst, List.length_take, min_eq_left hlen]
  obtain ⟨h5, h13⟩ := encodeStyled_length_bounds m st d.instr
  refine ⟨hstlen ▸ h5, hstlen ▸ h13, hlen, ?_⟩
  have hdecode := decodeOfEncodeIsTheInstruction m pol st d.instr [] hwf
  rwa [List.append_nil, hstlen, hst] at hdecode

/-! ### Prefixes scanned without an answer (R55, R71) -/

/-- From the prefixes `p` the scan passes over the bytes `ps`, and has then met the prefixes `q`. -/
structure ScansTo (m : Mode) (p : Prefixes) (ps : List Byte) (q : Prefixes) : Prop where
  p66  : q.p66 = true ↔ p.p66 = true ∨ 0x66#8 ∈ ps
  a67  : q.a67 = true ↔ p.a67 = true ∨ 0x67#8 ∈ ps
  seg  : q.seg.isSome = true ↔ p.seg.isSome = true ∨ ∃ b ∈ ps, isOverride b = true
  scan : ∀ t, scanPrefixes m p (ps ++ t) = scanPrefixes m q t

theorem isOverride_iff {b : Byte} : isOverride b = true ↔ ∃ g, b = segByte g := by
  constructor
  · intro h
    unfold isOverride at h
    split at h
    case h_1 g hb => exact ⟨g, eq_segByte_of_legacyByte hb⟩
    all_goals cases h
  · rintro ⟨g, rfl⟩
    simp [isOverride]

theorem segByte_ne (g : Seg) : segByte g ≠ 0x66#8 ∧ segByte g ≠ 0x67#8 := by cases g <;> decide

theorem isOverride_segByte (g : Seg) : isOverride (segByte g) = true := isOverride_iff.2 ⟨g, rfl⟩

section ScansTo

variable {m : Mode} {p q : Prefixes} {ps : List Byte}

theorem ScansTo.cons_66 (hp : p.p66 = false) (h : ScansTo m { p with p66 := true } ps q) :
    ScansTo m p (0x66#8 :: ps) q where
  p66 := by simp [h.p66]
  a67 := by simp [h.a67]
  seg := by simp [h.seg, isOverride, legacyByte_66]
  scan t := by simp [← h.scan t, scanPrefixes, legacyByte_66, hp]

theorem ScansTo.cons_67 (hp : p.a67 = false) (h : ScansTo m { p with a67 := true } ps q) :
    ScansTo m p (0x67#8 :: ps) q where
  p66 := by simp [h.p66]
  a67 := by simp [h.a67]
  seg := by simp [h.seg, isOverride, legacyByte_67]
  scan t := by simp [← h.scan t, scanPrefixes, legacyByte_67, hp]

theorem ScansTo.cons_segByte {g : Seg} (hp : p.seg = none) (h : ScansTo m { p with seg := some g } ps q) :
    ScansTo m p (segByte g :: ps) q where
  p66 := by simp [h.p66, (segByte_ne g).1.symm]
  a67 := by simp [h.a67, (segByte_ne g).2.symm]
  seg := by simp [h.seg, isOverride_segByte]
  scan t := by simp [← h.scan t, scanPrefixes, hp]

/-- Prefixes of which none stands twice, those already met counted, are scanned without an answer. -/
theorem exists_scansTo_of_count (hkind : ∀ b ∈ ps, b = 0x66#8 ∨ b = 0x67#8 ∨ isOverride b = true)
    (h66 : ps.count 0x66#8 + p.p66.toNat ≤ 1) (h67 : ps.count 0x67#8 + p.a67.toNat ≤ 1)
    (hseg : ps.countP isOverride + p.seg.isSome.toNat ≤ 1) : ∃ q, ScansTo m p ps q := by
  induction ps generalizing p with
  | nil => exact ⟨p, by simp, by simp, by simp, fun t => rfl⟩
  | cons b ps ih =>
    obtain ⟨hb, hps⟩ := List.forall_mem_cons.1 hkind
    rcases hb with rfl | rfl | hb
    · have hp : p.p66 = false := Bool.toNat_eq_zero.1 (by rw [List.count_cons_self] at h66; omega)
      obtain ⟨q, h⟩ := ih (p := { p with p66 := true }) hps (by simpa [hp] using h66) (by simpa using h67)
        (by simpa [isOverride, legacyByte_66] using hseg)
      exact ⟨q, h.cons_66 hp⟩
    · have hp : p.a67 = false := Bool.toNat_eq_zero.1 (by rw [List.count_cons_self] at h67; omega)
      obtain ⟨q, h⟩ := ih (p := { p with a67 := true }) hps (by simpa using h66) (by simpa [hp] using h67)
        (by simpa [isOverride, legacyByte_67] using hseg)
      exact ⟨q, h.cons_67 hp⟩
    · have hp : p.seg.isSome = false :=
        Bool.toNat_eq_zero.1 (by rw [List.countP_cons_of_pos hb] at hseg; omega)
      obtain ⟨g, rfl⟩ := isOverride_iff.1 hb
      obtain ⟨hne66, hne67⟩ := segByte_ne g
      obtain ⟨q, h⟩ := ih (p := { p with seg := some g }) hps (by simpa [hne66] using h66)
        (by simpa [hne67] using h67) (by simpa [hp, hb] using hseg)
      exact ⟨q, h.cons_segByte (by simpa using hp)⟩

end ScansTo

theorem PrefixesOnce.exists_scansTo {ps : List Byte} (h : PrefixesOnce ps) (m : Mode) :
    ∃ q, ScansTo m Prefixes.none ps q := by
  obtain ⟨hkind, h66, h67, hseg⟩ := h
  exact exists_scansTo_of_count hkind h66 h67 hseg

section Answers

variable {m : Mode} {pol : Imm8Policy} {ps : List Byte} {q : Prefixes}

/-- `66` was met exactly where it stands. -/
theorem ScansTo.p66_iff (h : ScansTo m Prefixes.none ps q) : q.p66 = true ↔ 0x66#8 ∈ ps := by
  simpa [Prefixes.none] using h.p66

theorem ScansTo.a67_iff (h : ScansTo m Prefixes.none ps q) : q.a67 = true ↔ 0x67#8 ∈ ps := by
  simpa [Prefixes.none] using h.a67

theorem ScansTo.seg_of_mem (h : ScansTo m Prefixes.none ps q) {g : Seg} (hg : segByte g ∈ ps) :
    q.seg.isSome = true := h.seg.2 (.inr ⟨_, hg, isOverride_segByte g⟩)

theorem ScansTo.p66_eq_false (h : ScansTo m Prefixes.none ps q) (h66 : 0x66#8 ∉ ps) : q.p66 = false :=
  Bool.eq_false_iff.2 fun hp => h66 (h.p66_iff.1 hp)

variable (hs : ScansTo m Prefixes.none ps q) (hm : m ≠ .realAddress)

include hs hm

theorem decode_of_scan_ud {t : List Byte} (h : scanPrefixes m q t = .ud) : decode m pol (ps ++ t) = .ud := by
  simp [decode, parseInstr, hm, hs.scan, h]

theorem decode_of_scan_refused {t : List Byte} {r : DecodeRefusal} (h : scanPrefixes m q t = .refused r) :
    decode m pol (ps ++ t) = .refused r := by
  simp [decode, parseInstr, hm, hs.scan, h]

/-- The scan ends before a byte that is no legacy prefix, but in `mode32` after `67` (R71). -/
theorem scanPrefixes_of_none {b : Byte} (t : List Byte) (hb : legacyByte? b = none)
    (h67 : m = .mode64 ∨ 0x67#8 ∉ ps) : scanPrefixes m q (b :: t) = .ok (q, b :: t) := by
  have hq : ¬(m = .mode32 ∧ q.a67 = true) := by
    rw [hs.a67_iff]
    rintro ⟨rfl, h⟩
    exact h67.elim (by simp) fun h' => h' h
  simp only [scanPrefixes, hb, if_neg hq]

theorem decode_of_opcode_ud {b : Byte} {t : List Byte} (hb : legacyByte? b = none) (h67 : m = .mode64 ∨ 0x67#8 ∉ ps)
    (h : parseOpcode m q (b :: t) = .ud) : decode m pol (ps ++ b :: t) = .ud := by
  simp [decode, parseInstr, hm, hs.scan, scanPrefixes_of_none hs hm t hb h67, h]

theorem decode_of_opcode_refused {b : Byte} {t : List Byte} {r : DecodeRefusal} (hb : legacyByte? b = none)
    (h67 : m = .mode64 ∨ 0x67#8 ∉ ps) (h : parseOpcode m q (b :: t) = .refused r) :
    decode m pol (ps ++ b :: t) = .refused r := by
  simp [decode, parseInstr, hm, hs.scan, scanPrefixes_of_none hs hm t hb h67, h]

end Answers

/-! ### The bytes that start REX and VEX -/

theorem legacyByte_of_isVexLead : ∀ {b : Byte}, isVexLead b = true → legacyByte? b = none := by decide

theorem isRex_of_isVexLead : ∀ {b : Byte}, isVexLead b = true → isRex b = false := by decide

theorem legacyByte_of_isRex : ∀ {b : Byte}, isRex b = true → legacyByte? b = none := by decide

theorem noPrefixByte_iff {m : Mode} {b : Byte} :
    noPrefixByte m b = true ↔ legacyByte? b = none ∧ isVexLead b = false ∧ ¬(m = .mode64 ∧ isRex b = true) := by
  simp [noPrefixByte, and_assoc, imp_iff_not_or]

/-- In `mode64` `C5` and `C4` always start a VEX prefix (R65). -/
theorem mode_ne_of_not_vexFollows {m : Mode} {b : Byte} (h : vexFollows m b = false) : m ≠ .mode64 := by
  rintro rfl
  cases h

/-! ### After a repeat prefix (R63, R72, log 8) -/

theorem scanPrefixes_repeat (m : Mode) (q : Prefixes) {r : Byte} (t : List Byte) (hr : r = 0xF2#8 ∨ r = 0xF3#8) :
    scanPrefixes m q (r :: t) = afterRepeat m t := by
  rcases hr with rfl | rfl <;> rfl

/-- Further prefixes but LOCK are looked past. -/
theorem afterRepeat_append {m : Mode} {qs : List Byte} (t : List Byte)
    (hqs : ∀ q ∈ qs, (legacyByte? q).isSome = true ∧ q ≠ 0xF0#8) : afterRepeat m (qs ++ t) = afterRepeat m t := by
  induction qs with
  | nil => rfl
  | cons b qs ih =>
    obtain ⟨⟨hb, hlock⟩, hqs⟩ := List.forall_mem_cons.1 hqs
    obtain ⟨x, hx⟩ := Option.isSome_iff_exists.1 hb
    have hx' : x ≠ .lock := fun h => hlock (eq_lock_of_legacyByte (h ▸ hx))
    rw [← ih hqs]
    cases x <;> simp_all [afterRepeat]

section AfterRepeat

variable {m : Mode} {b v x : Byte} {t : List Byte}

theorem afterRepeat_vex (hv : isVexLead v = true)
    (ht : m = .mode64 ∨ ∃ c bs, t = c :: bs ∧ vexFollows m c = true) : afterRepeat m (v :: t) = .ud := by
  by_cases hm : m = .mode64
  · simp [afterRepeat, legacyByte_of_isVexLead hv, isRex_of_isVexLead hv, hv, hm]
  · obtain ⟨c, bs, rfl, hc⟩ := ht.resolve_left hm
    simp [afterRepeat, legacyByte_of_isVexLead hv, hv, hm, hc]

theorem afterRepeat_not_vex (hv : isVexLead v = true) (hb : vexFollows m b = false) :
    afterRepeat m (v :: b :: t) = .refused .repeatPrefix := by
  simp [afterRepeat, legacyByte_of_isVexLead hv, hv, hb, mode_ne_of_not_vexFollows hb]

theorem afterRepeat_rex (hx : isRex x = true) :
    afterRepeat .mode64 (x :: b :: t) = if isVexLead b then .ud else .refused .repeatPrefix := by
  simp [afterRepeat, legacyByte_of_isRex hx, hx]

theorem afterRepeat_noPrefix (hb : noPrefixByte m b = true) :
    afterRepeat m (b :: t) = .refused .repeatPrefix := by
  obtain ⟨hlegacy, hvex, hrex⟩ := noPrefixByte_iff.1 hb
  simp [afterRepeat, hlegacy, hvex, hrex]

end AfterRepeat

/-! ### The opcode stage, branch by branch (R71 steps 2 and 3) -/

section Opcode

variable {m : Mode} {p : Prefixes} {e : Ext} {b b1 b2 c v x : Byte} {t : List Byte}

theorem parseOpcode_noPrefix (hb : noPrefixByte m b = true) :
    parseOpcode m p (b :: t) = parseLegacyOpcode p Ext.zero (b :: t) := by
  obtain ⟨_, hvex, hrex⟩ := noPrefixByte_iff.1 hb
  simp [parseOpcode, hvex, hrex]

theorem parseOpcode_rexThen (hx : isRex x = true) :
    parseOpcode .mode64 p (x :: b :: t) =
      if isVexLead b then .ud else parseLegacyOpcode p (Ext.ofRex x) (b :: t) := by
  simp [parseOpcode, hx]

theorem parseOpcode_not_vex (hv : isVexLead v = true) (hb : vexFollows m b = false) :
    parseOpcode m p (v :: b :: t) = parseLegacyOpcode p Ext.zero (v :: b :: t) := by
  simp [parseOpcode, hv, hb, mode_ne_of_not_vexFollows hb]

/-- `66` before a VEX prefix (R63). -/
theorem parseOpcode_vex_of_66 (hv : isVexLead v = true) (hp : p.p66 = true)
    (ht : m = .mode64 ∨ ∃ c bs, t = c :: bs ∧ vexFollows m c = true) : parseOpcode m p (v :: t) = .ud := by
  by_cases hm : m = .mode64
  · simp [parseOpcode, isRex_of_isVexLead hv, hv, hm, hp]
  · obtain ⟨c, bs, rfl, hc⟩ := ht.resolve_left hm
    simp [parseOpcode, hv, hm, hp, hc]

theorem parseOpcode_vex2 (hp : p.p66 = false) (hb : vexFollows m b1 = true) :
    parseOpcode m p (0xC5#8 :: b1 :: t) =
      parseVexOpcode m 0x01#5 { r := !b1.getLsbD 7, x := false, b := false } b1 t := by
  have hrex : isRex 0xC5#8 = false := rfl
  have hlead : isVexLead 0xC5#8 = true := rfl
  simp [parseOpcode, hrex, hlead, hp, hb]

theorem parseOpcode_vex3 (hp : p.p66 = false) (hb : vexFollows m b1 = true) :
    parseOpcode m p (0xC4#8 :: b1 :: b2 :: t) =
      parseVexOpcode m (b1.extractLsb' 0 5)
        { r := !b1.getLsbD 7, x := !b1.getLsbD 6, b := !b1.getLsbD 5 } b2 t := by
  have hrex : isRex 0xC4#8 = false := rfl
  have hlead : isVexLead 0xC4#8 = true := rfl
  simp [parseOpcode, hrex, hlead, hp, hb]

theorem parseLegacyOpcode_not_0F (h : p.p66 = false ∨ b ≠ 0x0F#8) :
    parseLegacyOpcode p e (b :: t) = .refused .notShufpd := by
  rcases h with h | h <;> simp [parseLegacyOpcode, h]

theorem parseLegacyOpcode_not_C6 (h : b ≠ 0xC6#8) :
    parseLegacyOpcode p e (0x0F#8 :: b :: t) = .refused .notShufpd := by
  simp [parseLegacyOpcode, h]

theorem parseVexOpcode_other_fields {mmmmm : BitVec 5} {last : Byte}
    (h : mmmmm ≠ 0x01#5 ∨ last.extractLsb' 0 2 ≠ 0x1#2 ∨ c ≠ 0xC6#8) :
    parseVexOpcode m mmmmm e last (c :: t) = .refused .notVshufpd := by
  unfold parseVexOpcode
  split
  · rename_i hfields
    have hc : c ≠ 0xC6#8 := (h.resolve_left (not_not.2 hfields.1)).resolve_left (not_not.2 hfields.2)
    exact if_neg hc
  · rfl

/-- The top bit of an inverted `vvvv` field is 0 for registers 8 to 15 (R60). -/
theorem eight_le_vvvvNum : ∀ b : Byte, b.getLsbD 6 = false → 8 ≤ (vvvvNum (b.extractLsb' 3 4)).val := by decide

theorem parseVexOpcode_nonCanonical {last : Byte} (hpp : last.extractLsb' 0 2 = 0x1#2)
    (h : e.b = true ∨ last.getLsbD 6 = false) :
    parseVexOpcode .mode32 0x01#5 e last (0xC6#8 :: t) = .refused .nonCanonicalVex := by
  have hcanon : e ≠ Ext.zero ∨ 8 ≤ (vvvvNum (last.extractLsb' 3 4)).val :=
    h.imp (fun hb he => by simp [he, Ext.zero] at hb) (eight_le_vvvvNum last)
  simp [parseVexOpcode, hpp, hcanon]

end Opcode

/-- Settles O7: the scan answers for LOCK and for what follows a repeat prefix, the opcode stage for `66` or REX before
VEX. -/
theorem lockAndMisplacedBytesBeforeVexAreUd : Obligations.LockAndMisplacedBytesBeforeVexAreUd := by
  unfold Obligations.LockAndMisplacedBytesBeforeVexAreUd
  intro m pol ps hm hps
  obtain ⟨q, hs⟩ := hps.exists_scansTo m
  refine ⟨fun bs => decode_of_scan_ud hs hm rfl, fun v t hv ht h66 h67 => ?_, fun x v bs h64 hx hv => ?_,
    fun r qs hr hqs => ?_⟩
  · exact decode_of_opcode_ud hs hm (legacyByte_of_isVexLead hv) h67
      (parseOpcode_vex_of_66 hv (hs.p66_iff.2 h66) ht)
  · subst h64
    exact decode_of_opcode_ud hs hm (legacyByte_of_isRex hx) (.inl rfl) (by rw [parseOpcode_rexThen hx, if_pos hv])
  · have after {t : List Byte} (h : afterRepeat m t = .ud) : decode m pol (ps ++ r :: (qs ++ t)) = .ud :=
      decode_of_scan_ud hs hm (by rw [scanPrefixes_repeat m q _ hr, afterRepeat_append t hqs, h])
    refine ⟨fun bs => after rfl, fun v t hv ht => after (afterRepeat_vex hv ht), fun x v bs h64 hx hv => after ?_⟩
    rw [h64, afterRepeat_rex hx, if_pos hv]

/-- Settles O8: the scan answers for repeated prefixes, for what follows a repeat prefix and for `67` in `mode32`, the
opcode stage for every other opcode. -/
theorem otherBytesAreRefusedByName : Obligations.OtherBytesAreRefusedByName := by
  unfold Obligations.OtherBytesAreRefusedByName
  intro m pol ps hm hps
  obtain ⟨q, hs⟩ := hps.exists_scansTo m
  refine ⟨fun b bs hb hmem => ?_, fun g h bs hmem => ?_, fun r qs b bs hr hqs => ?_, fun b bs h32 h67 hb => ?_,
    fun h67 => ?_⟩
  · refine decode_of_scan_refused hs hm ?_
    rcases hb with rfl | rfl
    · simp [scanPrefixes, legacyByte_66, hs.p66_iff.2 hmem]
    · simp [scanPrefixes, legacyByte_67, hs.a67_iff.2 hmem]
  · refine decode_of_scan_refused hs hm ?_
    simp [scanPrefixes, hs.seg_of_mem hmem]
  · have after {t : List Byte} (h : afterRepeat m t = .refused .repeatPrefix) :
        decode m pol (ps ++ r :: (qs ++ t)) = .refused .repeatPrefix :=
      decode_of_scan_refused hs hm (by rw [scanPrefixes_repeat m q _ hr, afterRepeat_append t hqs, h])
    refine ⟨fun hb => after (afterRepeat_noPrefix hb), fun x h64 hx hb => after ?_,
      fun v hv hb => after (afterRepeat_not_vex hv hb)⟩
    rw [h64, afterRepeat_rex hx, hb, if_neg (by decide)]
  · refine decode_of_scan_refused hs hm ?_
    simp [scanPrefixes, hb, h32, hs.a67_iff.2 h67]
  · have opcode {b : Byte} {t : List Byte} {r : DecodeRefusal} (hb : legacyByte? b = none)
        (h : parseOpcode m q (b :: t) = .refused r) : decode m pol (ps ++ b :: t) = .refused r :=
      decode_of_opcode_refused hs hm hb h67 h
    have not66 (h : 0x66#8 ∉ ps) : q.p66 = false := hs.p66_eq_false h
    refine ⟨fun b bs hb h => ?_, fun b bs hb => ?_, fun x b bs h64 hx hb h => ?_, fun x b bs h64 hx hb => ?_,
      fun v b bs h32 hv hb => ?_, fun h66 => ⟨fun b1 c bs hb1 h => ?_, fun b1 b2 c bs hb1 h => ?_,
        fun b1 b2 bs h32 hb1 hmap hpp h => ?_⟩⟩
    · refine opcode (noPrefixByte_iff.1 hb).1 ?_
      rw [parseOpcode_noPrefix hb, parseLegacyOpcode_not_0F (h.imp_left not66)]
    · refine opcode rfl ?_
      rw [parseOpcode_noPrefix (by cases m <;> rfl), parseLegacyOpcode_not_C6 hb]
    · refine opcode (legacyByte_of_isRex hx) ?_
      rw [h64, parseOpcode_rexThen hx, hb, if_neg (by decide), parseLegacyOpcode_not_0F (h.imp_left not66)]
    · refine opcode (legacyByte_of_isRex hx) ?_
      rw [h64, parseOpcode_rexThen hx, if_neg (by decide), parseLegacyOpcode_not_C6 hb]
    · refine opcode (legacyByte_of_isVexLead hv) ?_
      have h0F : v ≠ 0x0F#8 := fun h => by rw [h] at hv; cases hv
      rw [parseOpcode_not_vex hv hb, parseLegacyOpcode_not_0F (.inr h0F)]
    · refine opcode rfl ?_
      rw [parseOpcode_vex2 (not66 h66) hb1, parseVexOpcode_other_fields (.inr h)]
    · refine opcode rfl ?_
      rw [parseOpcode_vex3 (not66 h66) hb1, parseVexOpcode_other_fields h]
    · refine opcode rfl ?_
      have hcanon : (!b1.getLsbD 5) = true ∨ b2.getLsbD 6 = false := h.imp_left fun hb => by rw [hb]; rfl
      rw [parseOpcode_vex3 (not66 h66) hb1, hmap, h32]
      exact parseVexOpcode_nonCanonical hpp hcanon

end Sys2Proof

namespace Sys2Proof.Machine

/-! ### Overlong instructions (R64, R145) -/

/-- Every byte fetched lies below the top of the address space. -/
theorem codeFrom_below_top {s : State} {k fuel j : Nat} (hj : j < (codeFrom s k fuel).length) :
    s.pc.toNat + (k + j) < 2 ^ Config.addressBits s.mode := by
  induction fuel generalizing k j with
  | zero => simp [codeFrom] at hj
  | succ fuel ih =>
    unfold codeFrom at hj
    split at hj
    · simp at hj
    · split at hj
      · cases j with
        | zero => omega
        | succ j =>
          have := ih (k := k + 1) (j := j) (by simpa using hj)
          omega
      · simp at hj

/-- Settles O43: where 15 bytes make no instruction the fetch asks for all of them, and the step ends as R64 says; an
encoding has at most two prefixes beside the mandatory `66`, four bytes up to its opcode with that `66`, and seven of
body. -/
theorem overlongInstructionRaisesGp : Obligations.OverlongInstructionRaisesGp := by
  unfold Obligations.OverlongInstructionRaisesGp
  refine ⟨fun s hend hm hlen hd hok => ?_, fun m pol st i _ => (encodeStyled_length_bounds m st i).2⟩
  have htop : s.pc.toNat + (0 + 14) < 2 ^ Config.addressBits s.mode :=
    codeFrom_below_top (fuel := Config.maxInstrBytes) (show 14 < (fetchBytes s).length by omega)
  have hfetch : fetchLength s = 15 := by
    rw [fetchLength, bytesNeeded_of_truncated hd, hlen, Config.maxInstrBytes]
    omega
  have hstop : fetchDecode s = .fault .gp0 := by
    simp [fetchDecode, hm, hfetch, hok, hd, decodedResult, fetchStop, hlen, Config.maxInstrBytes]
  rw [step_running hend, hstop, andThen_fault]

end Sys2Proof.Machine
end

section
/-! PROOFS. What a step and a run do to `pc` (40_shufpd.md R107, R113): the advance by the decoded length, added up over
a run, and the step as exec of the instruction whose bytes stand at `pc`. -/

namespace Sys2Proof

/-! ### The bytes the decoder needs (log 9) -/

theorem DecodeResult.isTruncated_eq_false_iff {α : Type} {x : DecodeResult α} :
    x.isTruncated = false ↔ x ≠ .truncated := by
  cases x <;> simp [DecodeResult.isTruncated]

/-- The decoder needs exactly the bytes of its answer, when it has none on fewer of them. -/
theorem bytesNeeded_append {m : Mode} {pol : Imm8Policy} {bs : List Byte} (more : List Byte)
    (hd : decode m pol bs ≠ .truncated) (hfewest : ∀ k, k < bs.length → decode m pol (bs.take k) = .truncated) :
    bytesNeeded m pol (bs ++ more) = bs.length := by
  have hfind : (List.range ((bs ++ more).length + 1)).find?
      (fun n => !(decode m pol ((bs ++ more).take n)).isTruncated) = some bs.length := by
    refine List.find?_range_eq_some.2 ⟨?_, by simp, fun k hk => ?_⟩
    · rw [List.take_left, DecodeResult.isTruncated_eq_false_iff.2 hd, Bool.not_false]
    · rw [List.take_append_of_le_length hk.le, hfewest k hk]
      rfl
  rw [bytesNeeded, hfind, Option.getD_some]

/-- On fewer bytes than an instruction has the decoder has no answer: the answer would be that instruction, and the
decoder reads no further than it is given. -/
theorem decode_take_of_ok {m : Mode} {pol : Imm8Policy} {bs : List Byte} {d : Decoded} {k : Nat}
    (hd : decode m pol bs = .ok d) (hk : k < d.len) : decode m pol (bs.take k) = .truncated := by
  by_contra hne
  have hfront : decode m pol (bs.take k) = .ok d := by
    rw [← decode_append (bs.drop k) hne, List.take_append_drop, hd]
  obtain ⟨_, _, hle, _⟩ := decodedLengthsLieBetween5And13 m pol _ d hfront
  have : (bs.take k).length ≤ k := List.length_take_le k bs
  omega

end Sys2Proof

namespace Sys2Proof.Machine

/-! ### The advance of `pc` (R14, R113) -/

theorem nextPc_eq_truncLinear (m : Mode) (pc : Word64) (n : Nat) :
    nextPc m pc n = truncLinear m (pc + BitVec.ofNat 64 n) := by
  cases m <;> rfl

/-- `pc` advances modulo the address space of the mode. -/
theorem nextPc_toNat (m : Mode) (pc : Word64) (n : Nat) :
    (nextPc m pc n).toNat = (pc.toNat + n) % 2 ^ Config.addressBits m := by
  rw [nextPc_eq_truncLinear, truncLinear_toNat, BitVec.toNat_add, BitVec.toNat_ofNat, Nat.add_mod_mod,
    Nat.mod_mod_of_dvd _ (addressSpace_dvd m)]

/-- Settles O47: the frame of a step gives the advance, and the decoder's bound its length. -/
theorem stepAdvancesPcByTheLength : Obligations.StepAdvancesPcByTheLength := by
  unfold Obligations.StepAdvancesPcByTheLength
  intro s t hpc h
  obtain ⟨d, hfetch, hadvance, _, _, _⟩ := stepWritesOnlyDestinationAndPc s t hpc h
  obtain ⟨_, _, hd⟩ := fetchDecode_eq_next_iff.1 hfetch
  obtain ⟨h5, h13, _, _⟩ := decodedLengthsLieBetween5And13 _ _ _ d hd
  exact ⟨d, hd, h5, h13, by rw [hadvance, nextPc_toNat]⟩

theorem State.final_eq_false_iff {s : State} : s.final = false ↔ s.pc ≠ s.endPc := by
  simp [State.final]

theorem SameButVectorsPc.mode_eq {s t : State} (h : SameButVectorsPc s t) : t.mode = s.mode := by
  rw [show t = { s with ymm := t.ymm, pc := t.pc } from h]

/-- In the modes in scope the invariant keeps `pc` inside the address space (R14). -/
theorem State.Inv.pc_lt {s : State} (h : s.Inv) (hm : s.mode ≠ .realAddress) :
    s.pc.toNat < 2 ^ Config.addressBits s.mode := by
  obtain ⟨_, h32⟩ := h
  cases hmode : s.mode with
  | mode64 => exact s.pc.isLt
  | mode32 => exact h32 hmode
  | realAddress => exact absurd hmode hm

/-- The lengths of the instructions run add up, modulo the address space. -/
theorem runsTo_advances {k : Nat} {s t : State} (hpc : s.pc.toNat < 2 ^ Config.addressBits s.mode)
    (hrun : RunsTo k s t) (hend : ∀ j u, j < k → RunsTo j s u → u.final = false) :
    ∃ n, 5 * k ≤ n ∧ n ≤ 13 * k ∧ t.pc.toNat = (s.pc.toNat + n) % 2 ^ Config.addressBits s.mode := by
  induction k generalizing s with
  | zero =>
    rw [← runsTo_zero.1 hrun]
    exact ⟨0, by omega, by omega, (Nat.mod_eq_of_lt hpc).symm⟩
  | succ k ih =>
    obtain ⟨u, hstep, hrest⟩ := runsTo_succ.1 hrun
    have hstart : s.pc ≠ s.endPc := State.final_eq_false_iff.1 (hend 0 s (Nat.succ_pos k) (runsTo_zero.2 rfl))
    obtain ⟨d, _, h5, h13, hu⟩ := stepAdvancesPcByTheLength s u hstart hstep
    have hmode : u.mode = s.mode := (step_sameButVectorsPc hstep).mode_eq
    have hupc : u.pc.toNat < 2 ^ Config.addressBits u.mode := by
      rw [hu, hmode]
      exact Nat.mod_lt _ (Nat.two_pow_pos _)
    obtain ⟨n, hn5, hn13, ht⟩ := ih hupc hrest fun j v hj hv =>
      hend (j + 1) v (Nat.succ_lt_succ hj) (runsTo_succ.2 ⟨u, hstep, hv⟩)
    refine ⟨d.len + n, by omega, by omega, ?_⟩
    rw [ht, hmode, hu, Nat.mod_add_mod, Nat.add_assoc]

/-- Settles O52: the invariant puts the first `pc` inside the address space, and every step keeps it there. -/
theorem runsAdvanceFiveToThirteenBytesAStep : Obligations.RunsAdvanceFiveToThirteenBytesAStep := by
  unfold Obligations.RunsAdvanceFiveToThirteenBytesAStep
  intro k s t hinv hm hrun hend
  exact runsTo_advances (hinv.pc_lt hm) hrun hend

/-! ### The instruction at `pc` (R107) -/

/-- Bytes that stand at `pc` and are the fewest the decoder answers on are fetched and decoded, and no byte after
them. -/
theorem fetchDecode_of_bytes {s : State} {bs : List Byte} (hm : s.mode ≠ .realAddress)
    (htop : s.pc.toNat + bs.length ≤ 2 ^ Config.addressBits s.mode)
    (hadmits : admits s .cs s.pc bs.length .fetch = .ok)
    (hbytes : ∀ j, j < bs.length → Memory.byte? s.mem (s.pc.toNat + j) = bs[j]?)
    (hlen : bs.length ≤ Config.maxInstrBytes) (hd : decode s.mode s.imm8Policy bs ≠ .truncated)
    (hfewest : ∀ k, k < bs.length → decode s.mode s.imm8Policy (bs.take k) = .truncated) :
    fetchDecode s = decodedResult (fetchBytes s).length (decode s.mode s.imm8Policy bs) := by
  obtain ⟨more, hmore⟩ : ∃ more, fetchBytes s = bs ++ more :=
    codeFrom_begins (by simpa using htop) (by simpa using hbytes) _ hlen
  have hfetch : fetchLength s = bs.length := by
    rw [fetchLength, hmore, bytesNeeded_append more hd hfewest]
    omega
  have hdecode : decode s.mode s.imm8Policy (fetchBytes s) = decode s.mode s.imm8Policy bs := by
    rw [hmore, decode_append more hd]
  simp [fetchDecode, hm, hfetch, hadmits, hdecode]

/-- Settles O45: the bytes at `pc` are the fewest that settle the answer, an instruction's own by its length, and the
step goes on with that answer. -/
theorem stepRunsTheDecodedInstruction : Obligations.StepRunsTheDecodedInstruction := by
  unfold Obligations.StepRunsTheDecodedInstruction
  intro s bs hend hm htop hadmits hbytes
  have fetch := fetchDecode_of_bytes hm htop hadmits hbytes
  refine ⟨fun d hd hlen => ?_, fun hlen hfewest => ⟨fun r hr => ?_, fun hud => ?_⟩⟩
  · obtain ⟨_, h13, _, _⟩ := decodedLengthsLieBetween5And13 _ _ _ d hd
    have hfetch := fetch (by rw [hlen, Config.maxInstrBytes]; omega) (by simp [hd])
      fun k hk => decode_take_of_ok hd (hlen ▸ hk)
    rw [step_running hend, hfetch, hd, decodedResult, andThen_next]
    rfl
  · rw [step_running hend, fetch hlen (by simp [hr]) hfewest, hr, decodedResult, andThen_refused]
  · rw [step_running hend, fetch hlen (by simp [hud]) hfewest, hud, decodedResult, raise_eq, andThen_fault]

end Sys2Proof.Machine
end

section
/-! PROOFS. The reserved bits of imm8 (40_shufpd.md R111): a form reads the select bits only, and the decoder under
`refuse` is the decoder under `ignore` followed by one check of the term. -/

namespace Sys2Proof.Machine

/-- The meanings of the three forms read imm8 through its select bits. -/
theorem exec_withImm_selectMask (i : Instr) (s : State) : exec (i.withImm (i.imm &&& i.selectMask)) s = exec i s := by
  cases i with
  | shufpd d o k => simp [exec, execShufpd, Instr.withImm, Instr.imm, Instr.selectMask]
  | vshufpd128 d a o k => simp [exec, execVshufpd128, Instr.withImm, Instr.imm, Instr.selectMask]
  | vshufpd256 d a o k => simp [exec, execVshufpd256, Instr.withImm, Instr.imm, Instr.selectMask]

end Sys2Proof.Machine

namespace Sys2Proof

theorem DecodeResult.andThen_assoc {α β γ : Type} (x : DecodeResult α) (f : α → DecodeResult β)
    (g : β → DecodeResult γ) : (x.andThen f).andThen g = x.andThen fun a => (f a).andThen g := by
  cases x <;> rfl

theorem reservedZero128_iff : ∀ k : Byte, reservedZero128 k = true ↔ k &&& ~~~0x03#8 = 0#8 := by decide

theorem reservedZero256_iff : ∀ k : Byte, reservedZero256 k = true ↔ k &&& ~~~0x0F#8 = 0#8 := by decide

/-- The reserved bits are those outside the select bits (R54). -/
theorem reservedZero_iff (i : Instr) : i.form.reservedZero i.imm = true ↔ i.imm &&& ~~~i.selectMask = 0#8 := by
  cases i with
  | shufpd d o k => exact reservedZero128_iff k
  | vshufpd128 d a o k => exact reservedZero128_iff k
  | vshufpd256 d a o k => exact reservedZero256_iff k

/-- What the policy `refuse` adds to decoding: the refusal of a term with a reserved bit set (R73). -/
def refuseReserved {α : Type} (i : Instr) (a : α) : DecodeResult α :=
  if i.form.reservedZero i.imm then .ok a else .refused .reservedImm8Bits

theorem refuseReserved_eq_ok_iff {α : Type} {i : Instr} {a b : α} :
    refuseReserved i a = .ok b ↔ a = b ∧ i.imm &&& ~~~i.selectMask = 0#8 := by
  rw [← reservedZero_iff, refuseReserved]
  split <;> simp_all

theorem parseImm_refuse (f : Form) (dst : VReg) (o : RM) (bs : List Byte) :
    parseImm .refuse f dst o bs = (parseImm .ignore f dst o bs).andThen fun x => refuseReserved x.1 x := by
  cases bs with
  | nil => rfl
  | cons imm8 t =>
    cases h : f.reservedZero imm8 <;> simp [parseImm, Imm8Policy.admits, refuseReserved, h]

theorem parseBody_refuse (m : Mode) (p : Prefixes) (f : Form) (e : Ext) (bs : List Byte) :
    parseBody m .refuse p f e bs = (parseBody m .ignore p f e bs).andThen fun x => refuseReserved x.1 x := by
  cases bs with
  | nil => rfl
  | cons b t => simp only [parseBody, parseImm_refuse, DecodeResult.andThen_assoc]

theorem parseInstr_refuse (m : Mode) (bs : List Byte) :
    parseInstr m .refuse bs = (parseInstr m .ignore bs).andThen fun x => refuseReserved x.1 x := by
  unfold parseInstr
  split
  · rfl
  · simp only [parseBody_refuse, DecodeResult.andThen_assoc]

theorem decode_refuse (m : Mode) (bs : List Byte) :
    decode m .refuse bs = (decode m .ignore bs).andThen fun d => refuseReserved d.instr d := by
  simp only [decode, parseInstr_refuse, DecodeResult.andThen_assoc]
  congr 1
  funext ⟨i, rest⟩
  simp only [refuseReserved, DecodeResult.andThen_ok]
  split <;> rfl

/-- Settles O10: exec reads the select bits only, and `refuse` is `ignore` and a check of the others. -/
theorem reservedImm8BitsFollowThePolicy : Obligations.ReservedImm8BitsFollowThePolicy := by
  unfold Obligations.ReservedImm8BitsFollowThePolicy
  refine ⟨fun i s => (Machine.exec_withImm_selectMask i s).symm, fun m bs d h => ?_, fun m bs d h hset => ?_⟩
  · rw [decode_refuse, DecodeResult.andThen_eq_ok_iff] at h
    obtain ⟨d', hd', hcheck⟩ := h
    obtain ⟨rfl, hzero⟩ := refuseReserved_eq_ok_iff.1 hcheck
    exact ⟨hd', hzero⟩
  · rw [decode_refuse, h, DecodeResult.andThen_ok, refuseReserved, if_neg (mt (reservedZero_iff d.instr).1 hset)]

end Sys2Proof
end

section
/-! PROOFS. What each form computes (40_shufpd.md R100 to R112): when it completes, its result quadword by quadword, and
the tables and equivalences of forms and operands that follow from what it writes. -/

namespace Sys2Proof.Machine

/-! ### Quadwords of lanes (R100) -/

/-- Settles O11, by the two halves of a concatenation. -/
theorem sel64AndShuf128SelectQuadwords : Obligations.Sel64AndShuf128SelectQuadwords := by
  unfold Obligations.Sel64AndShuf128SelectQuadwords
  intro a b s0 s1
  exact ⟨fun v => ⟨rfl, rfl⟩, sel64_append_false _ _, sel64_append_true _ _⟩

section Quadwords

variable (a b : Xmm) (s0 s1 h : Bool) (v : Ymm)

@[simp] theorem sel64_shuf128_false : sel64 (shuf128 a b s0 s1) false = sel64 a s0 := sel64_append_false _ _

@[simp] theorem sel64_shuf128_true : sel64 (shuf128 a b s0 s1) true = sel64 b s1 := sel64_append_true _ _

@[simp] theorem sel64_zero : sel64 0#128 h = 0#64 := by cases h <;> rfl

/-- A 128-bit value is its two halves (R5). -/
theorem sel64_true_append_false : (sel64 a true ++ sel64 a false : BitVec 128) = a :=
  BitVec.extractLsb'_append_extractLsb' (w := 64) (len := 64)

/-- Quadword `2l + h` is half `h` of lane `l`. -/
theorem quad_eq_sel64 (l : Nat) : quad v (2 * l + h.toNat) = sel64 (v.extractLsb' (128 * l) 128) h := by
  refine BitVec.eq_of_getLsbD_eq fun i hi => ?_
  cases h
  · simp [quad, sel64, show 64 * (2 * l) = 128 * l by omega, show i < 128 by omega]
  · simp [quad, sel64, show 64 * (2 * l + 1) + i = 128 * l + (64 + i) by omega, show 64 + i < 128 by omega]

theorem quad_zero : quad v 0 = sel64 (lowLane v) false := quad_eq_sel64 false v 0
theorem quad_one : quad v 1 = sel64 (lowLane v) true := quad_eq_sel64 true v 0
theorem quad_two : quad v 2 = sel64 (highLane v) false := quad_eq_sel64 false v 1
theorem quad_three : quad v 3 = sel64 (highLane v) true := quad_eq_sel64 true v 1

@[simp] theorem quad_append_zero : quad (a ++ b) 0 = sel64 b false := by rw [quad_zero, lowLane_append]
@[simp] theorem quad_append_one : quad (a ++ b) 1 = sel64 b true := by rw [quad_one, lowLane_append]
@[simp] theorem quad_append_two : quad (a ++ b) 2 = sel64 a false := by rw [quad_two, highLane_append]
@[simp] theorem quad_append_three : quad (a ++ b) 3 = sel64 a true := by rw [quad_three, highLane_append]

theorem sel64_lowLane : sel64 (lowLane v) h = if h then quad v 1 else quad v 0 := by
  cases h
  · exact (quad_zero v).symm
  · exact (quad_one v).symm

theorem sel64_highLane : sel64 (highLane v) h = if h then quad v 3 else quad v 2 := by
  cases h
  · exact (quad_two v).symm
  · exact (quad_three v).symm

theorem State.sel64_xmmReg (s : State) (r : VReg) :
    sel64 (s.xmmReg r) h = if h then quad (s.ymmReg r) 1 else quad (s.ymmReg r) 0 := sel64_lowLane h _

end Quadwords

/-! ### Quadwords of memory (R31) -/

/-- Quadword `k` of the memory at `lin` is quadword `k` of any operand there that is long enough. -/
theorem extractLsb'_leBytes_bytesAt (s : State) (lin : Word64) {n k : Nat} (h : 8 * k + 8 ≤ n) :
    (leBytes (8 * n) (bytesAt s lin n)).extractLsb' (64 * k) 64 = memQuad s lin k := by
  obtain ⟨_, narrower, _⟩ := memoryIsLittleEndian
  have hquad : memQuad s lin k = leBytes 64 (bytesAt s (lin + BitVec.ofNat 64 (8 * k)) 8) := by
    simp [memQuad, bytesAt, accessBytes, byteAddress_add, Function.comp_def]
  rw [hquad, narrower s lin n (8 * k) 8 h, ← Nat.mul_assoc]

theorem sel64_leBytes_bytesAt (s : State) (lin : Word64) (h : Bool) :
    sel64 (leBytes 128 (bytesAt s lin 16)) h = if h then memQuad s lin 1 else memQuad s lin 0 := by
  cases h
  · exact extractLsb'_leBytes_bytesAt s lin (n := 16) (k := 0) (by decide)
  · exact extractLsb'_leBytes_bytesAt s lin (n := 16) (k := 1) (by decide)

theorem quad_leBytes_bytesAt (s : State) (lin : Word64) {k : Nat} (h : k < 4) :
    quad (leBytes 256 (bytesAt s lin 32)) k = memQuad s lin k :=
  extractLsb'_leBytes_bytesAt s lin (n := 32) (by omega)

/-! ### Completion (R107) -/

/-- The operand of a form is there exactly when it passes the form's checks. -/
theorem operandBytes_completes_iff {i : Instr} {s : State} :
    (∃ bs, operandBytes i s = .next bs) ↔ OperandReady s i := by
  unfold operandBytes OperandReady
  cases i.rm with
  | reg r => exact ⟨fun _ => trivial, fun _ => ⟨[], rfl⟩⟩
  | mem m => simp [rmBytes, readMem_eq_next_iff]

/-- Settles O26: past the enabling checks a form stops only where its operand does. -/
theorem execCompletesExactlyWhenReady : Obligations.ExecCompletesExactlyWhenReady := by
  unfold Obligations.ExecCompletesExactlyWhenReady
  intro i s
  rw [exec_completes_iff, operandBytes_completes_iff]

/-! ### Results, for any second source (R102 to R104) -/

section Results

variable {s : State} {d a : VReg} {o : RM} {k : Byte}

theorem exec_shufpd_result {b : Xmm} (hr : FormReady s (.shufpd d o k)) (hb : source128 .aligned16 o s = .next b) :
    ∃ t, exec (.shufpd d o k) s = .next t ∧
      quad (t.ymmReg d) 0 = (if k.getLsbD 0 then quad (s.ymmReg d) 1 else quad (s.ymmReg d) 0) ∧
      quad (t.ymmReg d) 1 = sel64 b (k.getLsbD 1) ∧
      quad (t.ymmReg d) 2 = quad (s.ymmReg d) 2 ∧ quad (t.ymmReg d) 3 = quad (s.ymmReg d) 3 ∧
      OnlyRegisterWritten s t d := by
  have h : exec (.shufpd d o k) s = _ := execShufpd_eq hr hb
  refine ⟨_, h, ?_, ?_, ?_, ?_, exec_onlyRegisterWritten h⟩
  · simp [State.sel64_xmmReg]
  · simp
  · simp [sel64_highLane]
  · simp [sel64_highLane]

theorem exec_vshufpd128_result {b : Xmm} (hr : FormReady s (.vshufpd128 d a o k))
    (hb : source128 .anyAddress o s = .next b) :
    ∃ t, exec (.vshufpd128 d a o k) s = .next t ∧
      quad (t.ymmReg d) 0 = (if k.getLsbD 0 then quad (s.ymmReg a) 1 else quad (s.ymmReg a) 0) ∧
      quad (t.ymmReg d) 1 = sel64 b (k.getLsbD 1) ∧
      quad (t.ymmReg d) 2 = 0#64 ∧ quad (t.ymmReg d) 3 = 0#64 ∧ OnlyRegisterWritten s t d := by
  have h : exec (.vshufpd128 d a o k) s = _ := execVshufpd128_eq hr hb
  refine ⟨_, h, ?_, ?_, ?_, ?_, exec_onlyRegisterWritten h⟩
  · simp [State.sel64_xmmReg]
  · simp
  · simp
  · simp

theorem exec_vshufpd256_result {b : Ymm} (hr : FormReady s (.vshufpd256 d a o k)) (hb : source256 o s = .next b) :
    ∃ t, exec (.vshufpd256 d a o k) s = .next t ∧
      quad (t.ymmReg d) 0 = (if k.getLsbD 0 then quad (s.ymmReg a) 1 else quad (s.ymmReg a) 0) ∧
      quad (t.ymmReg d) 1 = (if k.getLsbD 1 then quad b 1 else quad b 0) ∧
      quad (t.ymmReg d) 2 = (if k.getLsbD 2 then quad (s.ymmReg a) 3 else quad (s.ymmReg a) 2) ∧
      quad (t.ymmReg d) 3 = (if k.getLsbD 3 then quad b 3 else quad b 2) ∧ OnlyRegisterWritten s t d := by
  have h : exec (.vshufpd256 d a o k) s = _ := execVshufpd256_eq hr hb
  refine ⟨_, h, ?_, ?_, ?_, ?_, exec_onlyRegisterWritten h⟩
  · simp [shuf256, sel64_lowLane]
  · simp [shuf256, sel64_lowLane]
  · simp [shuf256, sel64_highLane]
  · simp [shuf256, sel64_highLane]

end Results

/-- Settles O12: a register source gives its halves. -/
theorem shufpdRegisterResult : Obligations.ShufpdRegisterResult := by
  unfold Obligations.ShufpdRegisterResult
  intro s dst r k hr
  obtain ⟨t, ht, h0, h1, hrest⟩ := exec_shufpd_result hr (source128_reg _ r s)
  exact ⟨t, ht, h0, h1.trans (s.sel64_xmmReg _ r), hrest⟩

/-- Settles O13: a memory source gives the halves of its 16 bytes, little-endian. -/
theorem shufpdMemoryResult : Obligations.ShufpdMemoryResult := by
  unfold Obligations.ShufpdMemoryResult
  intro s dst m k hr halign hok
  have ha : misaligned .aligned16 (linearAddress s m) = false := by simp [misaligned, halign]
  obtain ⟨t, ht, h0, h1, hrest⟩ := exec_shufpd_result hr (source128_mem ha hok)
  exact ⟨t, ht, h0, h1.trans (sel64_leBytes_bytesAt s _ _), hrest⟩

/-- Settles O14: a register source gives its halves. -/
theorem vshufpd128RegisterResult : Obligations.Vshufpd128RegisterResult := by
  unfold Obligations.Vshufpd128RegisterResult
  intro s dst a r k hr
  obtain ⟨t, ht, h0, h1, hrest⟩ := exec_vshufpd128_result hr (source128_reg _ r s)
  exact ⟨t, ht, h0, h1.trans (s.sel64_xmmReg _ r), hrest⟩

/-- Settles O15: no VEX form checks the alignment, and 16 admitted bytes give their halves, little-endian. -/
theorem vshufpd128MemoryResult : Obligations.Vshufpd128MemoryResult := by
  unfold Obligations.Vshufpd128MemoryResult
  intro s dst a m k hr hok
  obtain ⟨t, ht, h0, h1, hrest⟩ := exec_vshufpd128_result hr (source128_mem rfl hok)
  exact ⟨t, ht, h0, h1.trans (sel64_leBytes_bytesAt s _ _), hrest⟩

/-- Settles O16: a register source gives its quadwords. -/
theorem vshufpd256RegisterResult : Obligations.Vshufpd256RegisterResult := by
  unfold Obligations.Vshufpd256RegisterResult
  intro s dst a r k hr
  exact exec_vshufpd256_result hr (source256_reg r s)

/-- Settles O17: 32 admitted bytes give their quadwords, little-endian. -/
theorem vshufpd256MemoryResult : Obligations.Vshufpd256MemoryResult := by
  unfold Obligations.Vshufpd256MemoryResult
  intro s dst a m k hr hok
  have result := exec_vshufpd256_result hr (source256_mem hok)
  rwa [quad_leBytes_bytesAt s _ (by decide), quad_leBytes_bytesAt s _ (by decide), quad_leBytes_bytesAt s _ (by decide),
    quad_leBytes_bytesAt s _ (by decide)] at result

/-! ### The outcome tables (R108) -/

section Lanes

variable (s : State) (i : VReg) (x : Xmm) (a b : Ymm) (s0 s1 s2 s3 : Bool)

@[simp] theorem State.xmmReg_writeXmm_same : (s.writeXmm i x).xmmReg i = x := by simp [State.xmmReg]

@[simp] theorem State.xmmReg_writeXmmZero_same : (s.writeXmmZero i x).xmmReg i = x := by simp [State.xmmReg]

@[simp] theorem lowLane_shuf256 :
    lowLane (shuf256 a b s0 s1 s2 s3) = shuf128 (lowLane a) (lowLane b) s0 s1 := lowLane_append _ _

@[simp] theorem highLane_shuf256 :
    highLane (shuf256 a b s0 s1 s2 s3) = shuf128 (highLane a) (highLane b) s2 s3 := highLane_append _ _

end Lanes

/-- `shuf128` on bits `j` and `j + 1` of imm8 is the table of R108 for them. -/
theorem selectTable_shuf128 (k : Byte) (j : Nat) (x1 x0 y1 y0 : BitVec 64) :
    SelectTable (k.extractLsb' j 2) x1 x0 y1 y0
      (shuf128 (x1 ++ x0) (y1 ++ y0) (k.getLsbD j) (k.getLsbD (j + 1))) := by
  have h0 : k.getLsbD j = (k.extractLsb' j 2).getLsbD 0 := by simp
  have h1 : k.getLsbD (j + 1) = (k.extractLsb' j 2).getLsbD 1 := by simp
  rw [h0, h1]
  refine ⟨fun h => ?_, fun h => ?_, fun h => ?_, fun h => ?_⟩ <;> simp [h, shuf128]

/-- R104: bits 255:0 of the destination of a completed 256-bit form. -/
theorem exec_next_ymmReg_dst {s t : State} {d a : VReg} {o : RM} {k : Byte}
    (h : exec (.vshufpd256 d a o k) s = .next t) :
    ∃ b, source256 o s = .next b ∧ t.ymmReg d =
      shuf256 (s.ymmReg a) b (k.getLsbD 0) (k.getLsbD 1) (k.getLsbD 2) (k.getLsbD 3) := by
  obtain ⟨_, _, h⟩ := andThen_eq_next_iff.1 (show execVshufpd256 d a o k s = _ from h)
  obtain ⟨b, hb, h⟩ := andThen_eq_next_iff.1 h
  cases h
  exact ⟨b, hb, by simp⟩

/-- The table of R108 for bits 127:0 of a 128-bit form. -/
theorem exec_selectTable {i : Instr} {s t : State} {x1 x0 y1 y0 : BitVec 64}
    (hi : ∀ d a o k, i ≠ .vshufpd256 d a o k) (hx : s.xmmReg i.firstSource = (x1 ++ x0 : BitVec 128))
    (hy : source128 i.alignRule i.rm s = .next (y1 ++ y0 : BitVec 128)) (h : exec i s = .next t) :
    SelectTable (i.imm.extractLsb' 0 2) x1 x0 y1 y0 (t.xmmReg i.dst) := by
  obtain ⟨b, hb, ht⟩ := exec_next_xmmReg_dst hi h
  obtain rfl : b = y1 ++ y0 := Host.Outcome.next.inj (hb.symm.trans hy)
  rw [ht, hx]
  exact selectTable_shuf128 i.imm 0 x1 x0 y1 y0

/-- Settles O18: each lane is `shuf128` of the sources' lanes, by the two bits of imm8 that are the lane's. -/
theorem outcomeTables : Obligations.OutcomeTables := by
  unfold Obligations.OutcomeTables
  intro s t dst a o k X0 X1 X2 X3 Y0 Y1 Y2 Y3
  refine ⟨exec_selectTable (i := .shufpd dst o k) (by simp), exec_selectTable (i := .vshufpd128 dst a o k) (by simp),
    fun hx hy h => ?_⟩
  obtain ⟨b, hb, ht⟩ := exec_next_ymmReg_dst h
  obtain rfl : b = Y3 ++ Y2 ++ Y1 ++ Y0 := Host.Outcome.next.inj (hb.symm.trans hy)
  rw [ht, hx, quadwords_eq_lanes, quadwords_eq_lanes, lowLane_shuf256, highLane_shuf256, lowLane_append,
    lowLane_append, highLane_append, highLane_append]
  exact ⟨selectTable_shuf128 k 0 X1 X0 Y1 Y0, selectTable_shuf128 k 2 X3 X2 Y3 Y2⟩

/-! ### Elements (R110, R112) -/

/-- The two elements of a 128-bit form. -/
theorem exec_elements {i : Instr} {s t : State} (hi : ∀ d a o k, i ≠ .vshufpd256 d a o k) (h : exec i s = .next t) :
    ∃ b, source128 i.alignRule i.rm s = .next b ∧ ∀ e, e < 2 →
      quad (t.ymmReg i.dst) e = sel64 (if e % 2 = 0 then s.xmmReg i.firstSource else b) (i.imm.getLsbD e) := by
  obtain ⟨b, hb, ht⟩ := exec_next_xmmReg_dst hi h
  have hlane : lowLane (t.ymmReg i.dst) = _ := ht
  refine ⟨b, hb, fun e he => ?_⟩
  match e, he with
  | 0, _ => rw [quad_zero, hlane, sel64_shuf128_false]; rfl
  | 1, _ => rw [quad_one, hlane, sel64_shuf128_true]; rfl

/-- Settles O21: an element is a half of a lane of the result, and a lane is made from the sources' same lane. -/
theorem elementsStayInTheirLane : Obligations.ElementsStayInTheirLane := by
  unfold Obligations.ElementsStayInTheirLane
  refine ⟨fun s t dst a o k h => ?_, fun s t dst a o k => exec_elements (i := .vshufpd128 dst a o k) (by simp),
    fun s t dst o k => exec_elements (i := .shufpd dst o k) (by simp)⟩
  obtain ⟨b, hb, ht⟩ := exec_next_ymmReg_dst h
  refine ⟨b, hb, fun e he => ?_⟩
  match e, he with
  | 0, _ => rw [quad_zero, ht, lowLane_shuf256, sel64_shuf128_false]; rfl
  | 1, _ => rw [quad_one, ht, lowLane_shuf256, sel64_shuf128_true]; rfl
  | 2, _ => rw [quad_two, ht, highLane_shuf256, sel64_shuf128_false]; rfl
  | 3, _ => rw [quad_three, ht, highLane_shuf256, sel64_shuf128_true]; rfl

/-- Settles O20: elements 0 and 1 of the legacy form, whichever half each select bit takes. -/
theorem resultQuadwordsComeFromTheFigureBoxes : Obligations.ResultQuadwordsComeFromTheFigureBoxes := by
  unfold Obligations.ResultQuadwordsComeFromTheFigureBoxes
  intro s t dst o k h
  obtain ⟨b, hb, helement⟩ := exec_elements (i := .shufpd dst o k) (by simp) h
  have half (v : Xmm) (c : Bool) : sel64 v c = sel64 v true ∨ sel64 v c = sel64 v false := by cases c <;> simp
  refine ⟨sel64 b true, sel64 b false, by rw [sel64_true_append_false]; exact hb, ?_, ?_⟩
  · rw [show quad (t.ymmReg dst) 1 = sel64 b (k.getLsbD 1) from helement 1 (by decide)]
    exact half b _
  · rw [show quad (t.ymmReg dst) 0 = sel64 (s.xmmReg dst) (k.getLsbD 0) from helement 0 (by decide), quad_one,
      quad_zero]
    exact half _ _

/-! ### Equivalences between forms and operands -/

/-- The 128-bit second source of a VEX form is bits 127:0 of the 256-bit one, where both are there. -/
theorem source128_eq_lowLane_source256 {s : State} {o : RM} {b : Xmm} {c : Ymm}
    (hb : source128 .anyAddress o s = .next b) (hc : source256 o s = .next c) : b = lowLane c := by
  cases o with
  | reg r => rw [← Host.Outcome.next.inj hb, ← Host.Outcome.next.inj hc]; rfl
  | mem m =>
    obtain ⟨_, h, _⟩ | ⟨_, h, _, _, rfl⟩ := source128_eq_next_iff.1 hb <;> cases h
    obtain ⟨_, h, _⟩ | ⟨_, h, _, rfl⟩ := source256_eq_next_iff.1 hc <;> cases h
    obtain ⟨_, narrower, _⟩ := memoryIsLittleEndian
    simpa [lowLane] using narrower s (linearAddress s m) 32 0 16 (by decide)

/-- Settles O22: the low lane of `shuf256` is `shuf128` of the low lanes. -/
theorem vex256LowLaneIsVex128 : Obligations.Vex256LowLaneIsVex128 := by
  unfold Obligations.Vex256LowLaneIsVex128
  intro s d a o k hr ho256 ho128
  obtain ⟨t, ht⟩ := (execCompletesExactlyWhenReady (.vshufpd256 d a o k) s).2 ⟨hr, ho256⟩
  obtain ⟨u, hu⟩ := (execCompletesExactlyWhenReady (.vshufpd128 d a o k) s).2 ⟨hr, ho128⟩
  obtain ⟨c, hc, htd⟩ := exec_next_ymmReg_dst ht
  obtain ⟨b, hb, hud⟩ := exec_next_xmmReg_dst (by simp) hu
  refine ⟨t, u, ht, hu, ?_⟩
  rw [State.xmmReg, htd, lowLane_shuf256, ← source128_eq_lowLane_source256 hb hc]
  exact hud.symm

/-- A second source the legacy form can read is the same for a VEX form. -/
theorem source128_anyAddress_of_aligned16 {s : State} {o : RM} {b : Xmm} (h : source128 .aligned16 o s = .next b) :
    source128 .anyAddress o s = .next b := by
  obtain ⟨r, rfl, rfl⟩ | ⟨m, rfl, _, hok, rfl⟩ := source128_eq_next_iff.1 h
  · rfl
  · exact source128_mem rfl hok

theorem sel64_append (h l : BitVec 64) (c : Bool) : sel64 (h ++ l) c = if c then h else l := by
  cases c <;> simp

/-- Settles O19: the sources are read from the state before, so that R108's table holds with `X1:X0` on both sides. -/
theorem sameRegisterInSeveralRoles : Obligations.SameRegisterInSeveralRoles := by
  unfold Obligations.SameRegisterInSeveralRoles
  intro s r X1 X0 hx
  have hsource (al : AlignRule) : source128 al (.reg r) s = .next (X1 ++ X0 : BitVec 128) := by rw [source128_reg, hx]
  refine ⟨fun k hr => ?_, fun k hr => ?_, fun a k hr => ?_, fun o k hr hlegacy ho => ?_⟩
  · obtain ⟨t, ht, _⟩ := exec_shufpd_result hr (hsource _)
    obtain ⟨h0, h1, h2, h3⟩ := exec_selectTable (i := .shufpd r (.reg r) k) (by simp) hx (hsource _) ht
    exact ⟨t, ht, fun hk => h0 (by rw [hk]; rfl), fun hk => h1 (by rw [hk]; rfl), fun hk => h2 (by rw [hk]; rfl),
      fun hk => h3 (by rw [hk]; rfl)⟩
  · have ht : exec (.vshufpd128 r r (.reg r) k) s = _ := execVshufpd128_eq hr (hsource _)
    exact ⟨_, ht, by simp, exec_selectTable (i := .vshufpd128 r r (.reg r) k) (by simp) hx (hsource _) ht⟩
  · obtain ⟨t, ht, h0, h1, _⟩ := exec_vshufpd128_result hr (hsource _)
    exact ⟨t, ht, h1.trans (sel64_append X1 X0 _), h0⟩
  · obtain ⟨u, hu⟩ := (execCompletesExactlyWhenReady (.shufpd r o k) s).2 ⟨hlegacy, ho⟩
    obtain ⟨b, hb, hud⟩ := exec_next_xmmReg_dst (by simp) hu
    have ht : exec (.vshufpd128 r r o k) s = _ := execVshufpd128_eq hr (source128_anyAddress_of_aligned16 hb)
    exact ⟨_, u, ht, hu, by rw [State.xmmReg_writeXmmZero_same]; exact hud.symm, by simp⟩

/-! ### Swapping twice, and the old destination -/

section Writes

variable (s : State) (i : VReg) (x y : Xmm)

theorem State.writeXmm_writeXmm : (s.writeXmm i x).writeXmm i y = s.writeXmm i y := by
  simp [State.writeXmm, State.writeYmm_writeYmm]

theorem State.writeXmm_xmmReg : s.writeXmm i (s.xmmReg i) = s := by
  rw [State.writeXmm, State.xmmReg, highLane_append_lowLane, State.writeYmm_ymmReg]

theorem shuf128_swap_swap :
    shuf128 (shuf128 x x true false) (shuf128 x x true false) true false = x := by
  rw [shuf128, sel64_shuf128_false, sel64_shuf128_true, sel64_true_append_false]

end Writes

theorem exec_shufpd_swap {s : State} {r : VReg} (hr : FormReady s (.shufpd r (.reg r) 1#8)) :
    exec (.shufpd r (.reg r) 1#8) s = .next (s.writeXmm r (shuf128 (s.xmmReg r) (s.xmmReg r) true false)) :=
  execShufpd_eq hr (source128_reg _ r s)

/-- Settles O23: the form stays ready, as a write of a vector register changes nothing it depends on. -/
theorem swapTwiceIsTheIdentity : Obligations.SwapTwiceIsTheIdentity := by
  unfold Obligations.SwapTwiceIsTheIdentity
  intro s r hr
  have hagain : FormReady (s.writeXmm r (shuf128 (s.xmmReg r) (s.xmmReg r) true false)) (.shufpd r (.reg r) 1#8) := hr
  refine ⟨_, exec_shufpd_swap hr, ?_⟩
  rw [exec_shufpd_swap hagain, State.xmmReg_writeXmm_same, shuf128_swap_swap, State.writeXmm_writeXmm,
    State.writeXmm_xmmReg]

section OldDestination

variable {d : VReg} {o : RM} (ho : o ≠ .reg d) (s : State) (v : Ymm)

include ho

theorem source128_writeYmm_other (al : AlignRule) : source128 al o (s.writeYmm d v) = source128 al o s := by
  cases o with
  | reg r =>
    have hne : r ≠ d := fun h => ho (congrArg RM.reg h)
    simp only [source128_reg, State.xmmReg, State.ymmReg_writeYmm_other _ _ _ _ hne]
  | mem m => simp only [source128, State.writeYmm, readMem_ymm]

theorem source256_writeYmm_other : source256 o (s.writeYmm d v) = source256 o s := by
  cases o with
  | reg r =>
    have hne : r ≠ d := fun h => ho (congrArg RM.reg h)
    simp only [source256_reg, State.ymmReg_writeYmm_other _ _ _ _ hne]
  | mem m => simp only [source256, State.writeYmm, readMem_ymm]

end OldDestination

theorem checkEnabled_writeYmm (e : Bool) (s : State) (d : VReg) (v : Ymm) :
    checkEnabled e (s.writeYmm d v) = checkEnabled e s := checkEnabled_ymm s _ e

/-- Settles O24: checks and sources are those of the state with the other value, and the write covers it. -/
theorem vexFormsForgetTheOldDestination : Obligations.VexFormsForgetTheOldDestination := by
  unfold Obligations.VexFormsForgetTheOldDestination
  intro s d a o k v hda ho
  have ha : (s.writeYmm d v).ymmReg a = s.ymmReg a := s.ymmReg_writeYmm_other d a v hda.symm
  constructor
  · simp only [exec, execVshufpd128, checkEnabled_writeYmm, source128_writeYmm_other ho, State.xmmReg, ha,
      State.writeXmmZero, State.writeYmm_writeYmm]
    rfl
  · simp only [exec, execVshufpd256, checkEnabled_writeYmm, source256_writeYmm_other ho, ha, State.writeYmm_writeYmm]
    rfl

end Sys2Proof.Machine
end

section
/-! PROOFS. The exceptions of class Type 4 (60_exceptions.md): which of them a form can raise and from which check
(R142 to R145, R149), what they carry (R146), and the fetch of an instruction that is cut off (R148 item 1, R42). -/

namespace Sys2Proof.Machine

/-! ### Where a fault of a memory operand comes from (R144 to R146, R38) -/

section Access

variable {s : State} {g : Seg} {lin : Word64} {n a : Nat} {kind : AccessKind} {f : Fault}

theorem firstVerdict_fault {v : Nat → Verdict} {as : List Nat} (h : firstVerdict v as = .fault f) :
    ∃ a, v a = .fault f := by
  induction as with
  | nil => cases h
  | cons a t ih =>
    simp only [firstVerdict] at h
    split at h
    · exact ih h
    · exact ⟨a, by simp_all⟩
    · cases h

theorem allocated_fault (h : allocated s kind a = .fault f) : ∃ c b, f = .pf c kind b := by
  unfold allocated at h
  split at h
  · cases h
  · cases h
    exact ⟨_, _, rfl⟩

/-- A page-level fault is a page fault of the kind of the access (R146). -/
theorem byteVerdict_fault (h : byteVerdict s kind a = .fault f) : ∃ c b, f = .pf c kind b := by
  unfold byteVerdict at h
  split at h
  · cases h
    exact ⟨_, _, rfl⟩
  · cases h
  · exact allocated_fault h

theorem segmentFault_cases (g : Seg) : (segmentFault g = .ss0 ∧ g = .ss) ∨ segmentFault g = .gp0 := by
  unfold segmentFault
  split
  · exact .inl ⟨rfl, ‹_›⟩
  · exact .inr rfl

/-- A processor's `ADMITS` answers the segment's fault, or a page fault. -/
theorem mirrorAdmits_fault (h : mirrorAdmits s g lin n kind = .fault f) :
    f = segmentFault g ∨ ∃ c b, f = .pf c kind b := by
  unfold mirrorAdmits at h
  split at h
  · split at h
    · cases h
    · obtain ⟨a, ha⟩ := firstVerdict_fault h
      exact .inr (byteVerdict_fault ha)
  · cases h
    exact .inl rfl

/-- The launch's own answer gives #SS(0) only where it says so. -/
theorem answerVerdict_fault {x : AdmitAnswer} (h : answerVerdict s lin n kind x = .fault f) :
    (f = .ss0 ∧ x = .ss0) ∨ f = .gp0 ∨ ∃ c b, f = .pf c kind b := by
  cases x with
  | ok =>
    obtain ⟨a, ha⟩ := firstVerdict_fault h
    exact .inr (.inr (allocated_fault ha))
  | ss0 => exact .inl ⟨(Verdict.fault.inj h).symm, rfl⟩
  | gp0 => exact .inr (.inl (Verdict.fault.inj h).symm)
  | pageFault c b => exact .inr (.inr ⟨c, b, (Verdict.fault.inj h).symm⟩)
  | refuse => cases h

/-- The faults `ADMITS` can answer (R38): #SS(0) through SS or by the launch's word, #GP(0), a page fault. -/
theorem admits_fault (h : admits s g lin n kind = .fault f) :
    (f = .ss0 ∧ (g = .ss ∨ launchAnswer s.admitRules g lin n kind = some .ss0)) ∨ f = .gp0 ∨
      ∃ c b, f = .pf c kind b := by
  cases hx : launchAnswer s.admitRules g lin n kind with
  | some x =>
    rw [admits_of_answer hx] at h
    exact (answerVerdict_fault h).imp_left fun ⟨hf, hss⟩ => ⟨hf, .inr (congrArg some hss)⟩
  | none =>
    rw [admits_of_no_answer hx] at h
    obtain rfl | hpf := mirrorAdmits_fault h
    · exact (segmentFault_cases g).imp (fun ⟨hf, hss⟩ => ⟨hf, .inl hss⟩) .inl
    · exact .inr (.inr hpf)

theorem memRead_fault (h : memRead s g lin n = .fault f) : admits s g lin n .read = .fault f := by
  unfold memRead at h
  split at h <;> simp_all

end Access

/-- An operand's read faults in memory only: #GP(0) of the alignment rule, or what `ADMITS` answers. -/
theorem operandBytes_fault {i : Instr} {s : State} {f : Fault} (h : operandBytes i s = .fault f) :
    ∃ m, i.rm = .mem m ∧
      (f = .gp0 ∨ admits s m.seg (linearAddress s m) i.memBytes .read = .fault f) := by
  cases hrm : i.rm with
  | reg r => simp [operandBytes, hrm, rmBytes] at h
  | mem m =>
    refine ⟨m, rfl, ?_⟩
    cases ha : misaligned i.alignRule (linearAddress s m) with
    | true =>
      rw [operandBytes_mem hrm, readMem, if_pos ha] at h
      exact .inl (Host.Outcome.fault.inj h).symm
    | false =>
      rw [operandBytes_aligned hrm ha] at h
      exact .inr (memRead_fault h)

/-- Settles O39: the enabling checks raise #UD and #NM, and the read of a memory operand the rest. -/
theorem onlyTypeFourExceptionsAreRaised : Obligations.OnlyTypeFourExceptionsAreRaised := by
  unfold Obligations.OnlyTypeFourExceptionsAreRaised
  intro i s f h
  obtain hchecks | ⟨_, hread⟩ := exec_eq_fault_iff.1 h
  · obtain ⟨_, ⟨_, hud⟩ | ⟨_, _, hnm⟩⟩ := checkEnabled_eq_fault_iff.1 hchecks
    · exact .inl hud
    · exact .inr (.inl hnm)
  · obtain ⟨m, hm, hgp | hadmits⟩ := operandBytes_fault hread
    · exact .inr (.inr ⟨m, hm, .inr (.inl hgp)⟩)
    · exact .inr (.inr ⟨m, hm, admits_fault hadmits⟩)

/-! ### #UD and #NM (R142, R143) -/

theorem operandBytes_ne_ud (i : Instr) (s : State) : operandBytes i s ≠ .fault .ud := by
  intro h
  obtain ⟨m, _, hgp | hadmits⟩ := operandBytes_fault h
  · cases hgp
  · simpa using admits_fault hadmits

/-- In a mode in scope a form raises #UD exactly when its feature is not enabled. -/
theorem exec_eq_ud_iff {i : Instr} {s : State} (hm : s.mode ≠ .realAddress) :
    exec i s = .fault .ud ↔ formEnabled s i = false := by
  simp [exec_eq_fault_iff, checkEnabled_eq_fault_iff, operandBytes_ne_ud, hm]

theorem sseEnabled_eq_false_iff {s : State} :
    s.sseEnabled = false ↔
      s.cpuid.leaf1Edx.getLsbD 26 = false ∨ s.cr0.getLsbD 2 = true ∨ s.cr4.getLsbD 9 = false := by
  rw [State.sseEnabled, Bool.and_eq_false_iff, Bool.and_eq_false_iff, Bool.not_eq_false', or_assoc]
  rfl

theorem avxEnabled_eq_false_iff {s : State} (hm : s.mode ≠ .realAddress) :
    s.avxEnabled = false ↔
      s.cpuid.leaf1Ecx.getLsbD 28 = false ∨ s.cr4.getLsbD 18 = false ∨ s.xcr0.extractLsb' 1 2 ≠ 0x3#2 := by
  rw [State.avxEnabled, bne_iff_ne.2 hm, Bool.and_true, Bool.and_eq_false_iff, Bool.and_eq_false_iff, or_assoc,
    State.xcr0SseAvx, beq_eq_false_iff_ne]
  rfl

/-- Settles O34: no other check of a form raises #UD, and the enabling conditions are those of R17. -/
theorem disabledFeatureRaisesUd : Obligations.DisabledFeatureRaisesUd := by
  unfold Obligations.DisabledFeatureRaisesUd
  intro s hm
  exact ⟨fun d o k => (exec_eq_ud_iff hm).trans sseEnabled_eq_false_iff,
    fun d a o k => (exec_eq_ud_iff hm).trans (avxEnabled_eq_false_iff hm),
    fun d a o k => (exec_eq_ud_iff hm).trans (avxEnabled_eq_false_iff hm)⟩

/-- With TS set the enabling checks of an enabled form raise #NM, before its operand is read. -/
theorem exec_nm {i : Instr} {s : State} (hm : s.mode ≠ .realAddress) (hts : s.ts = true)
    (he : formEnabled s i = true) : exec i s = .fault .nm :=
  exec_eq_fault_iff.2 (.inl (checkEnabled_eq_fault_iff.2 ⟨hm, .inr ⟨he, hts, rfl⟩⟩))

/-- Bytes that can be fetched and that the decoder finds to be #UD end the step before a form is run. -/
theorem step_of_decode_ud {s : State} (hm : s.mode ≠ .realAddress) (hend : s.pc ≠ s.endPc)
    (hok : admits s .cs s.pc (fetchLength s) .fetch = .ok)
    (hud : decode s.mode s.imm8Policy (fetchBytes s) = .ud) : step s = .fault .ud := by
  have hfetch : fetchDecode s = .fault .ud := by simp [fetchDecode, hm, hok, hud, decodedResult]
  rw [step_running hend, hfetch, andThen_fault]

/-- Settles O35: the check of TS comes after both sources of #UD and before the operand. -/
theorem taskSwitchedRaisesNm : Obligations.TaskSwitchedRaisesNm := by
  unfold Obligations.TaskSwitchedRaisesNm
  intro s hm hts
  refine ⟨fun i => ?_, step_of_decode_ud hm⟩
  cases he : formEnabled s i with
  | true => exact exec_nm hm hts he
  | false => exact (exec_eq_ud_iff hm).2 he

/-! ### The segment's check of the operand (R144, R145) -/

theorem segmentAdmits_mode32_eq_false_iff {s : State} {g : Seg} {kind : AccessKind} {a : Nat}
    (hmode : s.mode = .mode32) :
    segmentAdmits s g kind a = false ↔
      (s.segs.get g).allows kind = false ∨ (s.segs.get g).limit.toNat < segOffset (s.segs.get g) a := by
  simp only [segmentAdmits, hmode, Bool.and_eq_false_iff, decide_eq_false_iff_not, Nat.not_le]

/-- Settles O37: a byte that is not canonical, outside the limit or not readable fails the segment's check, and `ADMITS`
then answers that segment's fault. -/
theorem segmentViolationRaisesSsOrGp : Obligations.SegmentViolationRaisesSsOrGp := by
  unfold Obligations.SegmentViolationRaisesSsOrGp
  intro i s m k hr hm ha hk hsilent hviolation
  have hbyte : segmentAdmits s m.seg .read (byteAddress s.mode (linearAddress s m) k) = false := by
    obtain ⟨hmode, hcanon⟩ | ⟨hmode, hseg⟩ := hviolation
    · rw [segmentAdmits_mode64 hmode, hcanon]
    · exact (segmentAdmits_mode32_eq_false_iff hmode).2 hseg
  exact exec_of_admits_fault hr hm ha ((admits_of_no_answer hsilent).trans (mirrorAdmits_segmentFault hk hbyte))

/-! ### The fetch of an instruction that is cut off (R148 item 1, log 9) -/

/-- Every byte fetched has a value. -/
theorem byte?_isSome_of_lt_codeFrom {s : State} {k fuel j : Nat} (hj : j < (codeFrom s k fuel).length) :
    (Memory.byte? s.mem (s.pc.toNat + (k + j))).isSome = true := by
  induction fuel generalizing k j with
  | zero => simp [codeFrom] at hj
  | succ fuel ih =>
    unfold codeFrom at hj
    split at hj
    · simp at hj
    · split at hj
      · next b hb =>
        cases j with
        | zero => simp [hb]
        | succ j =>
          rw [show k + (j + 1) = k + 1 + j by omega]
          exact ih (by simpa using hj)
      · simp at hj

section CutOff

variable {s : State} {bs : List Byte} {d : Decoded}

/-- The fetch of an instruction that stands at `pc` asks for its bytes. -/
theorem fetchLength_of_instruction (hd : decode s.mode s.imm8Policy bs = .ok d) (hlen : bs.length = d.len)
    (hbytes : ∀ j, j < bs.length → Memory.byte? s.mem (s.pc.toNat + j) = bs[j]?)
    (htop : s.pc.toNat + bs.length ≤ 2 ^ Config.addressBits s.mode) : fetchLength s = bs.length := by
  obtain ⟨_, h13, _, _⟩ := decodedLengthsLieBetween5And13 _ _ _ d hd
  have hmax : bs.length ≤ Config.maxInstrBytes := by rw [Config.maxInstrBytes]; omega
  obtain ⟨more, hmore⟩ : ∃ more, fetchBytes s = bs ++ more :=
    codeFrom_begins (by simpa using htop) (by simpa using hbytes) _ hmax
  have hneeded : bytesNeeded s.mode s.imm8Policy (fetchBytes s) = bs.length := by
    rw [hmore]
    exact bytesNeeded_append more (by simp [hd]) fun k hk => decode_take_of_ok hd (hlen ▸ hk)
  rw [fetchLength, hneeded]
  omega

/-- The bytes fetched end before a byte that has no value. -/
theorem fetchBytes_of_absent (hmax : bs.length ≤ Config.maxInstrBytes)
    (hbytes : ∀ j, j < bs.length → Memory.byte? s.mem (s.pc.toNat + j) = bs[j]?)
    (htop : s.pc.toNat + bs.length ≤ 2 ^ Config.addressBits s.mode)
    (habsent : Memory.byte? s.mem (s.pc.toNat + bs.length) = none) : fetchBytes s = bs := by
  obtain ⟨more, hmore⟩ : ∃ more, fetchBytes s = bs ++ more :=
    codeFrom_begins (by simpa using htop) (by simpa using hbytes) _ hmax
  have hshort : ¬ bs.length < (fetchBytes s).length := fun hlt => by
    simpa [habsent] using byte?_isSome_of_lt_codeFrom (j := bs.length) hlt
  rw [hmore, List.length_append] at hshort
  have hnil : more = [] := List.eq_nil_of_length_eq_zero (by omega)
  rw [hmore, hnil, List.append_nil]

/-- The fetch of an instruction of which byte `k` has no value asks for the bytes up to that one. -/
theorem fetchLength_of_cutOff {k : Nat} (hd : decode s.mode s.imm8Policy bs = .ok d) (hlen : bs.length = d.len)
    (hk : k < bs.length) (hbytes : ∀ j, j < k → Memory.byte? s.mem (s.pc.toNat + j) = bs[j]?)
    (htop : s.pc.toNat + (k + 1) ≤ 2 ^ Config.addressBits s.mode)
    (habsent : Memory.byte? s.mem (s.pc.toNat + k) = none) : fetchLength s = k + 1 := by
  obtain ⟨_, h13, _, _⟩ := decodedLengthsLieBetween5And13 _ _ _ d hd
  have htake : (bs.take k).length = k := List.length_take_of_le hk.le
  have hfetched : fetchBytes s = bs.take k := by
    refine fetchBytes_of_absent (by rw [htake, Config.maxInstrBytes]; omega) (fun j hj => ?_) (by omega)
      (by rwa [htake])
    rw [htake] at hj
    rw [hbytes j hj, List.getElem?_take_of_lt hj]
  have hneeded : bytesNeeded s.mode s.imm8Policy (fetchBytes s) = k + 1 := by
    rw [hfetched, bytesNeeded_of_truncated (decode_take_of_ok hd (hlen ▸ hk)), htake]
  rw [fetchLength, hneeded, Config.maxInstrBytes]
  omega

end CutOff

/-- Settles O42: the fetch asks for the whole instruction or for its bytes up to the one without a value, and what
`ADMITS` answers ends the step. -/
theorem instructionCutOffByAFetchFault : Obligations.InstructionCutOffByAFetchFault := by
  unfold Obligations.InstructionCutOffByAFetchFault
  intro s i st k n hend hwf hbytes hcase htop
  have hm : s.mode ≠ .realAddress := (Instr.wf_iff.1 hwf).1
  have hd : decode s.mode s.imm8Policy (encodeStyled s.mode st i) = .ok ⟨i, (encodeStyled s.mode st i).length⟩ := by
    simpa using decodeOfEncodeIsTheInstruction s.mode s.imm8Policy st i [] hwf
  have hfetch : fetchLength s = n := by
    obtain ⟨rfl, rfl⟩ | ⟨hk, rfl, habsent⟩ := hcase
    · exact fetchLength_of_instruction hd rfl hbytes htop
    · exact fetchLength_of_cutOff hd rfl hk hbytes htop habsent
  subst hfetch
  exact ⟨fun f => step_of_fetch_fault hend hm, fun r => step_of_fetch_refuse hend hm⟩

/-! ### Vectors and error codes (R146, R149) -/

theorem getLsbD_append_bit_zero {w : Nat} (v : BitVec w) (b : BitVec 1) : (v ++ b).getLsbD 0 = b.getLsbD 0 := by
  rw [BitVec.getLsbD_append, if_pos Nat.one_pos]

theorem getLsbD_append_bit_succ {w : Nat} (v : BitVec w) (b : BitVec 1) (j : Nat) :
    (v ++ b).getLsbD (j + 1) = v.getLsbD j := by
  rw [BitVec.getLsbD_append, if_neg (by omega), Nat.add_sub_cancel]

/-- The bits of a page fault's error code: those R146 names, and zeros (log 32). -/
theorem pageErrorCode_getLsbD (c : PageCause) (k : AccessKind) (j : Nat) :
    (pageErrorCode c k).getLsbD j =
      ([c.present, false, c.user, c.rsvd, k == .fetch, c.pkey][j]?).getD false := by
  unfold pageErrorCode
  match j with
  | 0 | 1 | 2 | 3 | 4 | 5 =>
    simp only [getLsbD_append_bit_zero, getLsbD_append_bit_succ]
    simp
  | j + 6 =>
    simp only [getLsbD_append_bit_succ, BitVec.getLsbD_zero]
    rfl

/-- Settles O40: vectors and codes are the model's tables, and the code of a page fault is read bit by bit. -/
theorem vectorsAndErrorCodes : Obligations.VectorsAndErrorCodes := by
  unfold Obligations.VectorsAndErrorCodes
  refine ⟨rfl, rfl, rfl, rfl, rfl, rfl, rfl, rfl, fun c k a => ⟨rfl, rfl, pageErrorCode c k, rfl, ?_⟩⟩
  have bit := pageErrorCode_getLsbD c k
  refine ⟨bit 0, bit 1, bit 2, bit 3, bit 4, bit 5, fun j hj => ?_⟩
  rw [bit, List.getElem?_eq_none hj, Option.getD_none]

end Sys2Proof.Machine
end

section
/-! PROOFS. Runs from the launch to END (70_reset_and_hazards.md R180 to R184): the invariant every step keeps, the step
at END, programs run instruction by instruction, and the launch of one table word. -/

namespace Sys2Proof.Machine

/-! ### The invariant (R182, R14) -/

/-- Settles O49: the memory of reset is empty, and its mode is not `mode32`. -/
theorem resetIsWellFormed : Obligations.ResetIsWellFormed :=
  ⟨Memory.reset_wf, fun hmode => by cases hmode⟩

theorem SameButVectorsPc.mem_eq {s t : State} (h : SameButVectorsPc s t) : t.mem = s.mem := by
  rw [show t = { s with ymm := t.ymm, pc := t.pc } from h]

/-- Away from END a step leaves `pc` inside the address space of the mode. -/
theorem step_pc_lt {s t : State} (hend : s.pc ≠ s.endPc) (h : step s = .next t) :
    t.pc.toNat < 2 ^ Config.addressBits s.mode := by
  obtain ⟨_, _, _, _, hpc⟩ := stepAdvancesPcByTheLength s t hend h
  rw [hpc]
  exact Nat.mod_lt _ (Nat.two_pow_pos _)

/-- Settles O48: a step leaves memory and mode, and the advance of `pc` is modulo the address space. -/
theorem stepKeepsTheStateWellFormed : Obligations.StepKeepsTheStateWellFormed := by
  unfold Obligations.StepKeepsTheStateWellFormed
  intro s t ⟨hmem, h32⟩ h
  have hframe := step_sameButVectorsPc h
  refine ⟨by rwa [hframe.mem_eq], fun hmode => ?_⟩
  have hmode32 : s.mode = .mode32 := hframe.mode_eq.symm.trans hmode
  by_cases hend : s.pc = s.endPc
  · cases (step_at_end hend).symm.trans h
    exact h32 hmode32
  · simpa [hmode32, Config.addressBits] using step_pc_lt hend h

/-! ### The step at END (R184) -/

/-- A number moved on by less than the modulus is another one. -/
theorem ne_add_mod {x n M : Nat} (hn : 0 < n) (hM : n < M) : x ≠ (x + n) % M := by
  intro h
  have hlt : x < M := h ▸ Nat.mod_lt _ (by omega)
  have hmod : x + n ≡ x + 0 [MOD M] := h.symm.trans (Nat.mod_eq_of_lt hlt).symm
  exact absurd (Nat.le_of_dvd hn ((Nat.modEq_zero_iff_dvd).1 (hmod.add_left_cancel' x))) (by omega)

/-- Settles O46: away from END `pc` moves on by 5 to 13 bytes, fewer than the address space has. -/
theorem stepStaysExactlyAtEnd : Obligations.StepStaysExactlyAtEnd := by
  unfold Obligations.StepStaysExactlyAtEnd
  refine ⟨fun s => step_at_end, fun s hend hstay => ?_⟩
  obtain ⟨d, _, h5, h13, hpc⟩ := stepAdvancesPcByTheLength s s hend hstay
  have hspace : 32 ≤ 2 ^ Config.addressBits s.mode := le_addressSpace_of_le_32 le_rfl s.mode
  exact ne_add_mod (by omega) (by omega) hpc

/-! ### Programs (R182, R184) -/

theorem State.final_eq_true_iff {s : State} : s.final = true ↔ s.pc = s.endPc := by
  simp [State.final]

theorem SameButVectorsPc.endPc_eq {s t : State} (h : SameButVectorsPc s t) : t.endPc = s.endPc := by
  rw [show t = { s with ymm := t.ymm, pc := t.pc } from h]

/-- END lies below the top of the address space whatever vector registers and `pc` hold. -/
theorem SameButVectorsPc.endPc_lt {s t : State} (h : SameButVectorsPc s t)
    (htop : s.endPc.toNat < 2 ^ Config.addressBits s.mode) : t.endPc.toNat < 2 ^ Config.addressBits t.mode := by
  rwa [h.endPc_eq, h.mode_eq]

/-- A program stands in memory whatever vector registers and `pc` hold. -/
theorem SameButVectorsPc.programAt_iff {s t : State} (h : SameButVectorsPc s t) {a : Nat} {p : List (List Byte)} :
    ProgramAt t a p ↔ ProgramAt s a p := by
  rw [show t = { s with ymm := t.ymm, pc := t.pc } from h]
  induction p generalizing a with
  | nil => rfl
  | cons bs p ih => exact and_congr_right' (and_congr_right' ih)

/-- Whether a program is ready does not depend on vector registers or `pc`: each operand has its own `pc_next`. -/
theorem SameButVectorsPc.readyAt_iff {s t : State} (h : SameButVectorsPc s t) {a : Nat} {p : List (List Byte)} :
    ReadyAt t a p ↔ ReadyAt s a p := by
  rw [show t = { s with ymm := t.ymm, pc := t.pc } from h]
  induction p generalizing a with
  | nil => rfl
  | cons bs p ih => exact and_congr_right' (and_congr Iff.rfl ih)

theorem ProgramAt.le_endPc {s : State} {a : Nat} {p : List (List Byte)} (hp : ProgramAt s a p) :
    a ≤ s.endPc.toNat := by
  induction p generalizing a with
  | nil => exact le_of_eq hp
  | cons bs p ih =>
    obtain ⟨_, _, hrest⟩ := hp
    exact (Nat.le_add_right a bs.length).trans (ih hrest)

/-- An instruction of a program lies below END. -/
theorem ProgramAt.lt_endPc {s : State} {a : Nat} {bs : List Byte} {p : List (List Byte)}
    (hp : ProgramAt s a (bs :: p)) : a < s.endPc.toNat := by
  obtain ⟨⟨d, hd, hlen⟩, _, hrest⟩ := hp
  obtain ⟨h5, _, _, _⟩ := decodedLengthsLieBetween5And13 _ _ _ d hd
  have := hrest.le_endPc
  omega

theorem ProgramAt.pc_ne_endPc {s : State} {bs : List Byte} {p : List (List Byte)}
    (hp : ProgramAt s s.pc.toNat (bs :: p)) : s.pc ≠ s.endPc :=
  fun h => hp.lt_endPc.ne (congrArg BitVec.toNat h)

/-- A run is at END exactly when none of its program is left. -/
theorem ProgramAt.final_iff {s : State} {p : List (List Byte)} (hp : ProgramAt s s.pc.toNat p) :
    s.final = true ↔ p = [] := by
  rw [State.final_eq_true_iff]
  cases p with
  | nil => exact iff_of_true (BitVec.eq_of_toNat_eq hp) rfl
  | cons bs p => exact iff_of_false hp.pc_ne_endPc (List.cons_ne_nil bs p)

section Program

variable {s : State} {bs : List Byte} {p : List (List Byte)} (htop : s.endPc.toNat < 2 ^ Config.addressBits s.mode)

include htop

/-- A step from the first instruction of a program moves `pc` past its bytes. -/
theorem ProgramAt.pc_of_step (hp : ProgramAt s s.pc.toNat (bs :: p)) {u : State} (h : step s = .next u) :
    u.pc.toNat = s.pc.toNat + bs.length := by
  have hend := hp.pc_ne_endPc
  obtain ⟨⟨d, hd, hlen⟩, hbytes, hrest⟩ := hp
  obtain ⟨_, h13, _, _⟩ := decodedLengthsLieBetween5And13 _ _ _ d hd
  have hle := hrest.le_endPc
  obtain ⟨more, hmore⟩ : ∃ more, fetchBytes s = bs ++ more :=
    codeFrom_begins (by omega) (by simpa using hbytes) _ (by rw [Config.maxInstrBytes]; omega)
  obtain ⟨e, he, _, _, hpc⟩ := stepAdvancesPcByTheLength s u hend h
  rw [hmore, decode_append more (by simp [hd]), hd] at he
  cases he
  rw [hpc, hlen, Nat.mod_eq_of_lt (by omega)]

/-- A step leaves the rest of the program to run. -/
theorem ProgramAt.rest_of_step (hp : ProgramAt s s.pc.toNat (bs :: p)) {u : State} (h : step s = .next u) :
    ProgramAt u u.pc.toNat p := by
  rw [(step_sameButVectorsPc h).programAt_iff, hp.pc_of_step htop h]
  obtain ⟨_, _, hrest⟩ := hp
  exact hrest

/-- After `j` steps the program but its first `j` instructions is left to run. -/
theorem ProgramAt.runsTo (hp : ProgramAt s s.pc.toNat p) {j : Nat} (hj : j ≤ p.length) {t : State}
    (h : RunsTo j s t) : ProgramAt t t.pc.toNat (p.drop j) := by
  induction j generalizing s p with
  | zero =>
    rw [← runsTo_zero.1 h]
    exact hp
  | succ j ih =>
    obtain ⟨u, hstep, hrun⟩ := runsTo_succ.1 h
    cases p with
    | nil => exact absurd hj (Nat.not_succ_le_zero j)
    | cons bs p =>
      have hframe := step_sameButVectorsPc hstep
      exact ih (hframe.endPc_lt htop) (hp.rest_of_step htop hstep) (Nat.le_of_succ_le_succ hj) hrun

/-- A step leaves a program that is ready with the rest of it ready. -/
theorem ReadyAt.rest_of_step (hp : ProgramAt s s.pc.toNat (bs :: p)) (hr : ReadyAt s s.pc.toNat (bs :: p)) {u : State}
    (h : step s = .next u) : ReadyAt u u.pc.toNat p := by
  rw [(step_sameButVectorsPc h).readyAt_iff, hp.pc_of_step htop h]
  obtain ⟨_, _, hrest⟩ := hr
  exact hrest

/-- The first instruction of a program that is ready for it completes. -/
theorem ReadyAt.step_completes (hm : s.mode ≠ .realAddress) (hp : ProgramAt s s.pc.toNat (bs :: p))
    (hr : ReadyAt s s.pc.toNat (bs :: p)) : ∃ u, step s = .next u := by
  have hend := hp.pc_ne_endPc
  obtain ⟨⟨d, hd, hlen⟩, hbytes, hrest⟩ := hp
  obtain ⟨hfetch, hready, _⟩ := hr
  obtain ⟨hform, hoperand⟩ := hready d hd
  have hle := hrest.le_endPc
  rw [BitVec.ofNat_toNat, BitVec.setWidth_eq] at hfetch hoperand
  obtain ⟨hrun, _⟩ := stepRunsTheDecodedInstruction s bs hend hm (by omega) hfetch hbytes
  obtain ⟨u, hu⟩ := (execCompletesExactlyWhenReady d.instr (s.advance d.len)).2 ⟨hform, hoperand⟩
  exact ⟨u, (hrun d hd hlen.symm).trans hu⟩

/-- A program that is ready for all its steps completes each of them. -/
theorem ReadyAt.runs (hm : s.mode ≠ .realAddress) (hp : ProgramAt s s.pc.toNat p) (hr : ReadyAt s s.pc.toNat p) :
    ∃ t, RunsTo p.length s t := by
  induction p generalizing s with
  | nil => exact ⟨s, runsTo_zero.2 rfl⟩
  | cons bs p ih =>
    obtain ⟨u, hstep⟩ := hr.step_completes htop hm hp
    have hframe := step_sameButVectorsPc hstep
    obtain ⟨t, hrun⟩ := ih (hframe.endPc_lt htop) (by rwa [hframe.mode_eq]) (hp.rest_of_step htop hstep)
      (hr.rest_of_step htop hp hstep)
    exact ⟨t, runsTo_succ.2 ⟨u, hstep, hrun⟩⟩

end Program

/-- Settles O56: what is left of the program after `j` steps says whether the run is at END. -/
theorem programsEndWithinTheirInstructions : Obligations.ProgramsEndWithinTheirInstructions := by
  unfold Obligations.ProgramsEndWithinTheirInstructions
  intro s p _ htop hp
  refine ⟨fun t hrun => ?_, fun j t hj hrun => ?_⟩
  · exact (hp.runsTo htop le_rfl hrun).final_iff.2 List.drop_length
  · rw [← Bool.not_eq_true, (hp.runsTo htop hj.le hrun).final_iff, List.drop_eq_nil_iff]
    omega

/-- Settles O57: every step completes, the last one ends at END, and the run has the frame of its steps. -/
theorem readyProgramsRunToTheirEnd : Obligations.ReadyProgramsRunToTheirEnd := by
  unfold Obligations.ReadyProgramsRunToTheirEnd
  intro s p hm htop hp hr
  obtain ⟨t, hrun⟩ := hr.runs htop hm hp
  obtain ⟨hfinal, _⟩ := programsEndWithinTheirInstructions s p hm htop hp
  exact ⟨t, hrun, hfinal t hrun, runsChangeOnlyVectorsAndPc _ s t hrun⟩

end Sys2Proof.Machine

namespace Sys2Proof

/-! ### Table words (log 2) -/

theorem DecodeResult.toOption_eq_some_iff {α : Type} {x : DecodeResult α} {a : α} :
    x.toOption = some a ↔ x = .ok a := by
  cases x <;> simp [DecodeResult.toOption]

theorem decodeTableWord_eq_some_iff {nbits w : Nat} {i : Instr} :
    decodeTableWord nbits w = some i ↔ ∃ d, decode .mode64 .ignore (tableBytes nbits w) = .ok d ∧ d.instr = i := by
  simp [decodeTableWord, DecodeResult.toOption_eq_some_iff]

@[simp] theorem wordBytes_length (n w : Nat) : (wordBytes n w).length = n := by
  induction n generalizing w with
  | zero => rfl
  | succ n ih => simp [wordBytes, ih]

theorem padInstr_length {bs : List Byte} (h : bs.length ≤ Config.maxInstrBytes) :
    (padInstr bs).length = Config.maxInstrBytes := by
  rw [padInstr, List.length_append, List.length_replicate]
  omega

/-- A word of at most 120 bits is padded to 15 bytes, in either byte order. -/
theorem tableBytes_length {nbits : Nat} (h : nbits ≤ 120) (w : Nat) :
    (tableBytes nbits w).length = Config.maxInstrBytes := by
  have hlow : (wordBytes (nbits / 8) w).length ≤ Config.maxInstrBytes := by
    rw [wordBytes_length, Config.maxInstrBytes]
    omega
  have hhigh : (wordBytes (nbits / 8) w).reverse.length ≤ Config.maxInstrBytes := by
    rwa [List.length_reverse]
  simp only [tableBytes]
  split
  · exact padInstr_length hhigh
  · exact padInstr_length hlow
  · exact padInstr_length hhigh

end Sys2Proof

namespace Sys2Proof.Machine

/-! ### `ADMITS` below the canonical boundary, nothing said by the launch (R38, log 14) -/

/-- The lower canonical half of either linear-address width begins with 2^47 addresses. -/
theorem canonical_of_lt {w : LaWidth} {a : Nat} (h : a < 2 ^ 47) : canonical w a = true := by
  have hzero : a / 2 ^ (Config.laBits w - 1) = 0 :=
    Nat.div_eq_of_lt (h.trans_le (Nat.pow_le_pow_right (by decide) (by cases w <;> decide)))
  rw [canonical, hzero]
  rfl

theorem byteVerdict_of_allocated {s : State} {kind : AccessKind} {a : Nat}
    (hallow : regionVerdict s.regions kind a = .allow) (hb : (Memory.byte? s.mem a).isSome = true) :
    byteVerdict s kind a = .ok := by
  rw [byteVerdict, hallow]
  exact allocated_ok_iff.2 hb

/-- In `mode64`, with no line and no region listed, an access in the lower canonical half whose bytes all have a value
is admitted. -/
theorem admits_of_allocated {s : State} {lin : Word64} {n : Nat} (hmode : s.mode = .mode64)
    (hrules : s.admitRules = []) (hregions : s.regions = []) (hlow : lin.toNat + n < 2 ^ 47)
    (hbytes : ∀ j, j < n → (Memory.byte? s.mem (lin.toNat + j)).isSome = true) (g : Seg) (kind : AccessKind) :
    admits s g lin n kind = .ok := by
  have hspace : 2 ^ Config.addressBits s.mode = 2 ^ 64 := by rw [hmode]; rfl
  have hnowrap : accessWraps s.mode lin n = false := by
    rw [← Bool.not_eq_true, accessWraps_iff (by omega)]
    omega
  rw [admits_of_no_answer (by rw [hrules]; rfl), mirrorAdmits_ok_iff]
  refine ⟨hnowrap, fun a ha => ?_⟩
  obtain ⟨j, hj, rfl⟩ := mem_accessBytes.1 ha
  rw [byteAddress_of_lt (by omega), segmentAdmits_mode64 hmode]
  exact ⟨canonical_of_lt (by omega), byteVerdict_of_allocated (by rw [hregions]; rfl) (hbytes j hj)⟩

/-! ### The launch of a table word (R181, R182, log 3) -/

section Placed

variable (s : State) (bs : List Byte)

@[simp] theorem State.placeInstr_pc : (s.placeInstr bs).pc = s.pc := rfl
@[simp] theorem State.placeInstr_mode : (s.placeInstr bs).mode = s.mode := rfl
@[simp] theorem State.placeInstr_admitRules : (s.placeInstr bs).admitRules = s.admitRules := rfl
@[simp] theorem State.placeInstr_regions : (s.placeInstr bs).regions = s.regions := rfl

variable {s bs} {d : Decoded}

/-- The bytes placed at `pc` stand there, where they do not pass the top of memory. -/
theorem State.byte?_placeInstr (hfit : s.pc.toNat + bs.length ≤ 2 ^ 64) {j : Nat} (hj : j < bs.length) :
    Memory.byte? (s.placeInstr bs).mem (s.pc.toNat + j) = bs[j]? := by
  rw [State.placeInstr, Memory.byte?_storeBytes _ _ _ hfit, if_pos (by omega), Nat.add_sub_cancel_left]

theorem State.byte?_placeInstr_isSome (hfit : s.pc.toNat + bs.length ≤ 2 ^ 64) {j : Nat} (hj : j < bs.length) :
    (Memory.byte? (s.placeInstr bs).mem (s.pc.toNat + j)).isSome = true := by
  rw [State.byte?_placeInstr hfit hj, List.getElem?_eq_getElem hj, Option.isSome_some]

/-- END is the byte after the instruction placed. -/
theorem State.placeInstr_endPc (hd : decode s.mode s.imm8Policy bs = .ok d) :
    (s.placeInstr bs).endPc = nextPc s.mode s.pc d.len := by
  simp [State.placeInstr, programLength, hd]

theorem State.final_advance_placeInstr (hd : decode s.mode s.imm8Policy bs = .ok d) :
    ((s.placeInstr bs).advance d.len).final = true :=
  State.final_eq_true_iff.2 (State.placeInstr_endPc hd).symm

variable (hmode : s.mode = .mode64) (hlow : s.pc.toNat + bs.length < 2 ^ 47)

include hmode hlow

/-- In the lower canonical half, with no line and no region listed, the bytes placed can be fetched. -/
theorem State.admits_placeInstr (hrules : s.admitRules = []) (hregions : s.regions = []) {n : Nat}
    (hn : n ≤ bs.length) : admits (s.placeInstr bs) .cs s.pc n .fetch = .ok := by
  have hbytes : ∀ j, j < n → (Memory.byte? (s.placeInstr bs).mem (s.pc.toNat + j)).isSome = true := fun j hj =>
    State.byte?_placeInstr_isSome (by omega) (by omega)
  exact admits_of_allocated (by simpa using hmode) (by simpa using hrules) (by simpa using hregions) (by omega) hbytes
    .cs .fetch

variable (hd : decode s.mode s.imm8Policy bs = .ok d)

include hd

theorem State.placeInstr_endPc_toNat : (s.placeInstr bs).endPc.toNat = s.pc.toNat + d.len := by
  obtain ⟨_, _, hle, _⟩ := decodedLengthsLieBetween5And13 _ _ _ d hd
  have hfit : s.pc.toNat + d.len < 2 ^ Config.addressBits s.mode := by
    rw [hmode, Config.addressBits]
    omega
  rw [State.placeInstr_endPc hd, nextPc_toNat, Nat.mod_eq_of_lt hfit]

/-- A program of one instruction, placed low in the address space, is one R182 allows to launch. -/
theorem State.placeInstr_launchPremises (hwf : Memory.wf (s.placeInstr bs).mem) :
    LaunchPremises (s.placeInstr bs) := by
  obtain ⟨_, _, hle, _⟩ := decodedLengthsLieBetween5And13 _ _ _ d hd
  have hend := State.placeInstr_endPc_toNat hmode hlow hd
  refine ⟨⟨hwf, fun h => ?_⟩, by simp [hmode], by simp [hend], fun a ha hlt => ?_⟩
  · simp [hmode] at h
  · obtain ⟨j, rfl⟩ := Nat.exists_eq_add_of_le (show s.pc.toNat ≤ a from ha)
    exact State.byte?_placeInstr_isSome (by omega) (by omega)

/-- The instruction placed is the one the next step runs. -/
theorem State.step_placeInstr (hrules : s.admitRules = []) (hregions : s.regions = []) :
    step (s.placeInstr bs) = exec d.instr ((s.placeInstr bs).advance d.len) := by
  obtain ⟨h5, _, hle, halone⟩ := decodedLengthsLieBetween5And13 _ _ _ d hd
  have hlen : (bs.take d.len).length = d.len := List.length_take_of_le hle
  have hend : (s.placeInstr bs).pc ≠ (s.placeInstr bs).endPc := fun h => by
    have := State.placeInstr_endPc_toNat hmode hlow hd
    rw [← h, State.placeInstr_pc] at this
    omega
  have htop : s.pc.toNat + (bs.take d.len).length ≤ 2 ^ Config.addressBits s.mode := by
    rw [hmode, Config.addressBits]
    omega
  have hbytes : ∀ j, j < (bs.take d.len).length →
      Memory.byte? (s.placeInstr bs).mem (s.pc.toNat + j) = (bs.take d.len)[j]? := fun j hj => by
    rw [State.byte?_placeInstr (by omega) (by omega), List.getElem?_take_of_lt (hlen ▸ hj)]
  obtain ⟨hrun, _⟩ := stepRunsTheDecodedInstruction (s.placeInstr bs) (bs.take d.len) hend (by simp [hmode]) htop
    (State.admits_placeInstr hmode hlow hrules hregions (hlen.trans_le hle)) hbytes
  exact hrun d halone hlen

end Placed

/-- Settles O53: the bytes of the word are placed low in the address space of a `mode64` launch with no line and no
region, where they are fetched and END follows them. -/
theorem launchedTableWordRunsNext : Obligations.LaunchedTableWordRunsNext := by
  unfold Obligations.LaunchedTableWordRunsNext
  intro nbits w i hbits hword
  obtain ⟨d, hd, rfl⟩ := decodeTableWord_eq_some_iff.1 hword
  have hmode : State.reset.launched.mode = .mode64 := rfl
  have hlow : State.reset.launched.pc.toNat + (tableBytes nbits w).length < 2 ^ 47 := by
    rw [tableBytes_length hbits]
    decide
  have hwf : Memory.wf (State.reset.withFetchWord nbits w).mem := State.placeInstr_launched_wf _ Memory.reset_wf
  exact ⟨State.placeInstr_launchPremises hmode hlow hd hwf, d, hd, rfl,
    State.final_advance_placeInstr (s := State.reset.launched) hd, State.step_placeInstr hmode hlow hd rfl rfl⟩

end Sys2Proof.Machine
end
